-- ==== Sys2Proof/Word.lean ====
section
/-! DEFINITION. The two bit-vector widths of the CORE: the byte of the memory port and the 32-bit register
(00_scope.md R9, R8: REG_W = 32, ADDR_W = 32). -/

namespace Sys2Proof

/-- A byte, 0..255 (00_scope.md R9). -/
abbrev Byte := BitVec 8

/-- A 32-bit register value, command word or memory-port address (00_scope.md R8, R9). -/
abbrev Word := BitVec 32

end Sys2Proof
end

