-- ==== Sys2Proof/Syntax.lean ====
section
/-! DEFINITION. The commands of the CORE, one constructor per row of spec/opcode_table.json
(30_encoding.md R92, R93). A command word has no operand field (R91); only a reserved word keeps its bits. -/

namespace Sys2Proof

/-- A command. -/
inductive Instr where
  /-- NOP, 46_commands.md R261. -/
  | nop
  /-- ENCODE_PNG, 46_commands.md R262. -/
  | encodePng
  /-- FILTER_IMAGE, 46_commands.md R263. -/
  | filterImage
  /-- ZLIB_COMPRESS, 46_commands.md R264. -/
  | zlibCompress
  /-- CRC32, 46_commands.md R265. -/
  | crc32
  /-- ADLER32, 46_commands.md R266. -/
  | adler32
  /-- WRITE_CHUNK, 46_commands.md R267. -/
  | writeChunk
  /-- A reserved word with its RSV field and its OPCODE field, 46_commands.md R268. -/
  | reserved (rsv : BitVec 24) (opcode : BitVec 8)
  deriving DecidableEq, Repr

end Sys2Proof
end

