-- ==== Sys2Proof/Machine/Types.lean ====
section
/-! DEFINITION. The data the state of the CORE is made of: registers, internal working state, memory spans, and the
operations of the host. -/

namespace Sys2Proof.Machine

/-- System memory, a list of (address, byte) with addresses strictly rising and no byte equal to what an unlisted
address reads as (20_memory.md R60; log 5). -/
abbrev Memory := List Host.Cell

/-- The error codes a command can raise (60_exceptions.md R300); code 0, NONE, is the absence of one. -/
inductive ErrCode where
  | opcode | format | param | capacity | overflow
  deriving DecidableEq, Repr

/-- The sixteen registers of the window (10_state.md R21). -/
inductive Reg where
  | cmd | status | width | height | format | srcBase | srcStride | srcLen
  | dstBase | dstCap | quality | filter | flags | chunkType | result | outLen
  deriving DecidableEq, Repr

/-- The configuration registers, each with the bits that are not reserved (10_state.md R21, R23 to R28). -/
structure Cfg where
  width : Word
  height : Word
  format : BitVec 8
  srcBase : Word
  srcStride : Word
  srcLen : Word
  dstBase : Word
  dstCap : Word
  quality : Word
  filter : BitVec 4
  flip : Bool
  irqEn : Bool
  chunkType : Word
  deriving DecidableEq, Repr

/-- The fields of STATUS (10_state.md R22). -/
structure Status where
  busy : Bool
  done : Bool
  err : Bool
  ign : Bool
  errCode : BitVec 4
  deriving DecidableEq, Repr

/-- The stage of a busy ENCODE_PNG (10_state.md R33). -/
inductive Stage where
  | filtering | matching | serializing
  deriving DecidableEq, Repr

/-- The filter bank's working state (10_state.md R35): the previous and current effective rows, the candidate rows
F0..F4, their costs C0..C4, and the row counter y. -/
structure FilterBank where
  prev : Option (List Byte)
  cur : List Byte
  f0 : List Byte
  f1 : List Byte
  f2 : List Byte
  f3 : List Byte
  f4 : List Byte
  c0 : Nat
  c1 : Nat
  c2 : Nat
  c3 : Nat
  c4 : Nat
  y : Nat
  deriving DecidableEq, Repr, Inhabited

/-- The match finder's working state (10_state.md R33, R37): the position i and the bucket store. A bucket that is
not listed is empty; the listed ones stand in rising order of their number, none of them empty. -/
structure Finder where
  pos : Nat
  buckets : List (Nat × List Nat)
  deriving DecidableEq, Repr, Inhabited

/-- The bit writer's working state ACC, CNT and K (10_state.md R38). -/
structure BitWriter where
  acc : Word
  cnt : Nat
  k : Nat
  deriving DecidableEq, Repr, Inhabited

/-- The Adler sums S1 and S2 (10_state.md R39). -/
structure Sums where
  s1 : Nat
  s2 : Nat
  deriving DecidableEq, Repr, Inhabited

/-- The internal working state of a command (10_state.md R33, R35 to R39). -/
structure Work where
  stage : Option Stage
  filter : FilterBank
  plane : List Byte
  finder : Finder
  bits : BitWriter
  crc : Word
  adler : Sums
  deriving DecidableEq, Repr, Inhabited

/-- A run of `len` addresses of the memory port from `base` on, modulo 2^32 (20_memory.md R61). -/
structure Span where
  base : Word
  len : Nat
  deriving DecidableEq, Repr

/-- What the host touched while a command was busy (20_memory.md R75): whether it wrote a byte the command reads, and
which bytes of the destination region it wrote. -/
structure Duty where
  srcWritten : Bool
  dstWritten : List Word
  deriving DecidableEq, Repr

/-- The platform as the memory port meets it: spans that are not ordinary memory (20_memory.md R65, 60_exceptions.md
R307; log 12), host stores that may not have reached the port yet, and spans the engine wrote that the host may hold stale
copies of (20_memory.md R73, R74; the last two stay empty where PLATFORM_COHERENT = true; log 13). -/
structure Platform where
  unserved : List Span
  unflushed : List Word
  stale : List Span
  deriving DecidableEq, Repr

/-- The host variables `<name>` and the values read into them (30_encoding.md R95; log 27). -/
abbrev Vars := List (String × Word)

/-- The `<value>` of a `WR`: a number, or the host variable an earlier `RD` read into (30_encoding.md R95). -/
inductive HostValue where
  | word (v : Word)
  | var (name : String)
  deriving DecidableEq, Repr

/-- One access of the host (00_scope.md R17, 30_encoding.md R95). Register accesses carry the address on the host's bus
and the access width in bytes, so that one that is not admitted can be said (20_memory.md R71). -/
inductive HostOp where
  /-- `WR`, and with the address of CMD a mnemonic or `CMDW`. -/
  | regWrite (addr bytes : Nat) (value : HostValue)
  /-- `RD`, with the host variable it reads into. -/
  | regRead (addr bytes : Nat) (name : String)
  /-- `WAIT`: read STATUS into the host variable `s` again until BUSY = 0. -/
  | wait
  /-- A store of the host's own to system memory. -/
  | memWrite (addr : Word) (value : Byte)
  /-- A load of the host's own from system memory. -/
  | memRead (addr : Word)
  /-- The platform's cache maintenance, both directions (20_memory.md R73, R74). -/
  | maintain
  /-- The reset signal becomes asserted (70_reset_and_hazards.md R330). -/
  | assertReset
  /-- Reset ends (70_reset_and_hazards.md R330). -/
  | releaseReset
  deriving DecidableEq, Repr

/-- What a command's run gives (46_commands.md R260): no result at all (NOP), output bytes and a result, or an error. -/
inductive RunOutcome where
  | nothing
  | ok (out : List Byte) (res : Word)
  | error (code : ErrCode)
  deriving DecidableEq, Repr

/-- A command's run: its outcome and the internal working state its units are left in. -/
structure Run where
  outcome : RunOutcome
  work : Work
  deriving DecidableEq, Repr

end Sys2Proof.Machine
end

