-- ==== Sys2Proof/Machine/Bytes.lean ====
section
/-! DEFINITION. Byte-order, sign-extension and bit helpers (00_scope.md R9 to R13). -/

namespace Sys2Proof.Machine

/-- be32(v), most significant byte first (00_scope.md R11). -/
def be32 (v : Word) : List Byte :=
  [v.extractLsb' 24 8, v.extractLsb' 16 8, v.extractLsb' 8 8, v.extractLsb' 0 8]

/-- abs(sext_8(b)), the absolute value of a byte read as two's complement (00_scope.md R10). -/
def absSext8 (b : Byte) : Nat := if b.toNat < 128 then b.toNat else 256 - b.toNat

/-- The low `n` bits of `v`, least significant first: the bits `put(v, n)` appends (00_scope.md R13). -/
def lowBits (v : Nat) : Nat → List Bool
  | 0 => []
  | n + 1 => decide (v % 2 = 1) :: lowBits (v / 2) n

/-- rev_n(c): bit j of the value is bit n − 1 − j of c (00_scope.md R13). -/
def revBits (c : Nat) : Nat → Nat
  | 0 => 0
  | n + 1 => c % 2 * 2 ^ n + revBits (c / 2) n

end Sys2Proof.Machine
end

