-- ==== Sys2Proof/Config.lean ====
section
/-! DEFINITION. The OPEN parameters of the CORE (00_scope.md R8) and its free values ("any value", 00_scope.md R15).
Each is a constant with no body: nothing can be proved of its value but what its type says (log 4, log 6). -/

namespace Sys2Proof

/-- The parameters of 00_scope.md R8 that a rule of the CORE depends on, as the model's units take them. MAX_DIST is
decided (R171); it is an argument because D18 names a second value for reproducing other software. -/
structure Params where
  qmax : Nat
  fpCap : Nat
  maxDist : Nat
  hash3 : Byte → Byte → Byte → BitVec 14
  regBase : Nat
  coherent : Bool
  latency : Nat → Nat

namespace Config

/-- By how much QMAX exceeds 8, the least value R8 admits. -/
opaque qmaxOver8 : Nat

/-- FP_CAP less 1, so that 1 ≤ FP_CAP ≤ 2^30 as R8 says. -/
opaque fpCapLess1 : BitVec 30

/-- HASH3, any total function from three bytes to 0..16383 (R8, 43_lz77_match_finder.md R172). -/
opaque hash3 : Byte → Byte → Byte → BitVec 14

/-- REG_BASE divided by 0x40, so that REG_BASE is a multiple of 0x40 as R8 says. -/
opaque regBaseOver64 : Nat

/-- PLATFORM_COHERENT (R8; 20_memory.md R73, R74). -/
opaque coherent : Bool

/-- LATENCY (R8, 70_reset_and_hazards.md R350): how many steps pass between the acceptance numbered by the draw counter
and its completion. -/
opaque latency : Nat → Nat

/-- The parameters of the CORE that is modelled. -/
def chip : Params where
  qmax := qmaxOver8 + 8
  fpCap := fpCapLess1.toNat + 1
  maxDist := 32768
  hash3 := hash3
  regBase := regBaseOver64 * 64
  coherent := coherent
  latency := latency

/-- The `k`-th free byte of draw `n`. -/
opaque freeByte : Nat → Nat → Byte

/-- The `k`-th free word of draw `n`. -/
opaque freeWord : Nat → Nat → Word

/-- The free error outcome of draw `n`: success, or any of the five codes (20_memory.md R75; log 24). -/
opaque freeOutcome : Nat → Option Machine.ErrCode

/-- What a host variable holds that no read has assigned (30_encoding.md R95; log 27). -/
opaque unsetVar : String → Word

/-- Whether, at draw `n`, a memory port that the platform cannot serve leaves the command stuck
(60_exceptions.md R307, 93_implementation_defined.md U9; log 12). -/
opaque portStuck : Nat → Bool

/-- The internal working state after draw `n`, whatever the units were left in (70_reset_and_hazards.md R331; log 15). -/
opaque residue : Nat → Machine.Work → Machine.Work

end Config
end Sys2Proof
end

