-- ==== Sys2Proof/Machine/State.lean ====
section
/-! DEFINITION. The state of the CORE and of the interface around it, its faults and refusals, and its reset. -/

namespace Sys2Proof.Machine

/-- The state. -/
structure State where
  /-- The configuration registers (10_state.md R21, R23 to R28). -/
  cfg : Cfg
  /-- STATUS (10_state.md R22). -/
  status : Status
  /-- RESULT (10_state.md R21, R29). -/
  result : Word
  /-- OUT_LEN (10_state.md R21, R29). -/
  outLen : Word
  /-- The command latch CMDWORD (46_commands.md R260). -/
  cmdWord : Word
  /-- The internal working state (10_state.md R33, R35 to R39). -/
  work : Work
  /-- System memory (20_memory.md R60). -/
  mem : Memory
  /-- Steps left until the engine completes the accepted command (00_scope.md R8 LATENCY; log 2). -/
  wait : Nat
  /-- What the host touched while busy (20_memory.md R75; log 9). -/
  duty : Duty
  /-- The platform around the memory port (20_memory.md R65, R73, R74; log 12, log 13). -/
  platform : Platform
  /-- Whether reset is asserted (70_reset_and_hazards.md R330). -/
  inReset : Bool
  /-- The accesses the host has still to make, oldest first (00_scope.md R17; log 1). -/
  host : List HostOp
  /-- The value the last host read returned (30_encoding.md R95; log 17). -/
  rdata : Word
  /-- The host variables that `RD` and `WAIT` read into (30_encoding.md R95; log 27). -/
  vars : Vars
  /-- The model's own draw counter, which numbers the free values (log 6). -/
  draws : Nat
  deriving DecidableEq, Repr

/-- What stops the machine. -/
inductive Fault where
  /-- Raised at a completion, and only when Config.portStuck says so, for a command that touches an address that is not
  ordinary memory: whether it then completes "is a platform matter outside the model" (60_exceptions.md R307). Safe: the
  other draw completes with free values. -/
  | memoryPortStuck
  deriving DecidableEq, Repr

/-- Why a step has no meaning. -/
inductive Refusal where
  /-- Raised by an arm of exec for a command that has no meaning yet; no arm raises it. Safe. -/
  | notModelled (mnemonic : String)
  /-- Raised by a host register access that is not an aligned 32-bit one inside the window: "a model gives it no meaning
  (the host step is refused)" (20_memory.md R71). Safe. -/
  | accessNotAdmitted
  /-- Raised by a host register access while reset is asserted: "no register access is admitted"
  (70_reset_and_hazards.md R330). Safe. -/
  | accessDuringReset
  /-- Raised by a host access of its own to an address that is not ordinary memory; that is no part of the CORE
  (20_memory.md R65; log 12). Safe. -/
  | notOrdinaryMemory
  deriving DecidableEq, Repr

/-- The configuration registers at reset (10_state.md R42). -/
def Cfg.reset : Cfg where
  width := 0
  height := 0
  format := 0
  srcBase := 0
  srcStride := 0
  srcLen := 0
  dstBase := 0
  dstCap := 0
  quality := 8
  filter := 8
  flip := false
  irqEn := false
  chunkType := 0

/-- STATUS at reset (10_state.md R42). -/
def Status.reset : Status := ⟨false, false, false, false, 0⟩

/-- The working state a command starts from: empty buckets, ACC = CNT = K = 0, CR = 0xFFFFFFFF, S1 = 1, S2 = 0, y = 0,
i = 0 (10_state.md R40). -/
def Work.fresh : Work where
  stage := none
  filter := ⟨none, [], [], [], [], [], [], 0, 0, 0, 0, 0, 0⟩
  plane := []
  finder := ⟨0, []⟩
  bits := ⟨0, 0, 0⟩
  crc := 0xFFFFFFFF
  adler := ⟨1, 0⟩

/-- No host duty broken. -/
def Duty.kept : Duty := ⟨false, []⟩

/-- A platform whose memory is all ordinary and seen alike by both agents. -/
def Platform.plain : Platform := ⟨[], [], []⟩

/-- The machine right after reset (10_state.md R42, 70_reset_and_hazards.md R330, R332). The spec leaves `cmdWord` and
`work` unspecified and does not speak of memory at power-on: DESIGN CHOICE, log 15 and log 5. -/
def State.reset : State where
  cfg := Cfg.reset
  status := Status.reset
  result := 0
  outLen := 0
  cmdWord := 0
  work := Work.fresh
  mem := []
  wait := 0
  duty := Duty.kept
  platform := Platform.plain
  inReset := false
  host := []
  rdata := 0
  vars := []
  draws := 0

end Sys2Proof.Machine
end

