-- ==== Sys2Proof/Machine/Flags.lean ====
section
/-! DEFINITION. The STATUS flags: the word software reads, and everything that writes them (10_state.md R22, R30, R31,
R41; 46_commands.md R260; 60_exceptions.md R300, R310). -/

namespace Sys2Proof.Machine

/-- The code of an error as ERRCODE holds it (60_exceptions.md R300). -/
def ErrCode.code (c : ErrCode) : BitVec 4 :=
  match c with
  | .opcode => 1
  | .format => 2
  | .param => 3
  | .capacity => 4
  | .overflow => 5

/-- STATUS as it reads: BUSY [0], DONE [1], ERR [2], IGN [3], ERRCODE [11:8], the rest 0 (10_state.md R22). -/
def Status.word (st : Status) : Word :=
  0#20 ++ st.errCode ++ 0#4 ++ BitVec.ofBool st.ign ++ BitVec.ofBool st.err ++ BitVec.ofBool st.done
    ++ BitVec.ofBool st.busy

/-- The acceptance of a command: BUSY 1, DONE, ERR and ERRCODE 0, IGN unchanged (46_commands.md R260, 10_state.md R41). -/
def Status.accepted (st : Status) : Status := ⟨true, false, false, st.ign, 0⟩

/-- A completion: BUSY 0, DONE 1, and the error of the command if it has one (10_state.md R41). IGN is unchanged. -/
def Status.completed (st : Status) (e : Option ErrCode) : Status :=
  match e with
  | none => ⟨false, true, false, st.ign, 0⟩
  | some c => ⟨false, true, true, st.ign, c.code⟩

/-- A host write to STATUS while not busy: 1 to bit 1 clears DONE, 1 to bit 2 clears ERR and ERRCODE together, 1 to bit 3
clears IGN; every other bit is ignored (10_state.md R22, R31). -/
def Status.clearOnes (st : Status) (v : Word) : Status where
  busy := st.busy
  done := st.done && !v.getLsbD 1
  err := st.err && !v.getLsbD 2
  ign := st.ign && !v.getLsbD 3
  errCode := if v.getLsbD 2 then 0 else st.errCode

/-- A register write ignored because BUSY = 1 sets IGN (10_state.md R30). -/
def Status.ignored (st : Status) : Status := { st with ign := true }

/-- A busy command abandoned by reset has no completion (70_reset_and_hazards.md R330). -/
def Status.abandoned (st : Status) : Status := { st with busy := false }

/-- IRQ = STATUS.DONE & FLAGS.IRQ_EN, evaluated continuously (60_exceptions.md R310). -/
def State.irq (s : State) : Bool := s.status.done && s.cfg.irqEn

end Sys2Proof.Machine
end

