-- ==== Sys2Proof/Machine/Ops.lean ====
section
/-! DEFINITION. The named operations over memory, spans and registers, acceptance and the two completions of a command,
and reset. -/

namespace Sys2Proof.Machine

/-! ### System memory (20_memory.md R60 to R62, R69, R70) -/

/-- What an address reads as that nothing has written: DESIGN CHOICE, log 5. -/
def blankByte : Byte := 0

/-- One byte of memory. -/
def Memory.read (m : Memory) (a : Word) : Byte :=
  match m with
  | [] => blankByte
  | (k, v) :: rest => if k = a.toNat then v else Memory.read rest a

/-- One byte written, in canonical form. -/
def Memory.write (m : Memory) (a : Word) (b : Byte) : Memory :=
  match m with
  | [] => if b = blankByte then [] else [(a.toNat, b)]
  | (k, v) :: rest =>
    if k < a.toNat then (k, v) :: Memory.write rest a b
    else
      let tail := if k = a.toNat then rest else (k, v) :: rest
      if b = blankByte then tail else (a.toNat, b) :: tail

/-- The canonical form above address `lo`: addresses rising from `lo` on, below 2^32, and no blank byte listed. -/
def Memory.wfFrom (lo : Nat) (m : Memory) : Bool :=
  match m with
  | [] => true
  | (k, v) :: rest => decide (lo ≤ k ∧ k < 2 ^ 32 ∧ v ≠ blankByte) && Memory.wfFrom (k + 1) rest

/-- The canonical form of memory. -/
def Memory.wf (m : Memory) : Bool := Memory.wfFrom 0 m

/-- MemRead(a, n), addresses modulo 2^32 (00_scope.md R12). -/
def Memory.readBytes (m : Memory) (a : Word) (n : Nat) : List Byte :=
  match n with
  | 0 => []
  | n + 1 => m.read a :: Memory.readBytes m (a + 1) n

/-- MemWrite(a, len(bs), bs), addresses modulo 2^32 (00_scope.md R12). -/
def Memory.writeBytes (m : Memory) (a : Word) (bs : List Byte) : Memory :=
  match bs with
  | [] => m
  | b :: rest => Memory.writeBytes (m.write a b) (a + 1) rest

/-- `n` bytes from `a` on become free values of draw `d`, numbered from `k`. -/
def Memory.scramble (m : Memory) (d k : Nat) (a : Word) (n : Nat) : Memory :=
  match n with
  | 0 => m
  | n + 1 => Memory.scramble (m.write a (Config.freeByte d k)) d (k + 1) (a + 1) n

/-- The listed addresses become free values of draw `d`, numbered from `k`. -/
def Memory.scrambleAt (m : Memory) (d k : Nat) (as : List Word) : Memory :=
  match as with
  | [] => m
  | a :: rest => Memory.scrambleAt (m.write a (Config.freeByte d k)) d (k + 1) rest

/-! ### Spans of addresses (20_memory.md R61) -/

/-- Whether an address lies in a span, addresses taken modulo 2^32. -/
def Span.holds (p : Span) (a : Word) : Bool := decide ((a - p.base).toNat < p.len)

/-- Whether two spans share an address: one of them holds the other's first address. -/
def Span.meets (p r : Span) : Bool :=
  (decide (0 < r.len) && p.holds r.base) || (decide (0 < p.len) && r.holds p.base)

/-- Whether some span of a list holds an address. -/
def spansHold (ps : List Span) (a : Word) : Bool := ps.any fun p => p.holds a

/-- Whether a span of the one list shares an address with a span of the other. -/
def spansMeet (ps rs : List Span) : Bool := ps.any fun p => rs.any fun r => p.meets r

/-! ### The register window (10_state.md R20 to R31) -/

/-- The byte offset of a register from REG_BASE (10_state.md R21). -/
def Reg.offset (r : Reg) : Nat :=
  match r with
  | .cmd => 0x00
  | .status => 0x04
  | .width => 0x08
  | .height => 0x0C
  | .format => 0x10
  | .srcBase => 0x14
  | .srcStride => 0x18
  | .srcLen => 0x1C
  | .dstBase => 0x20
  | .dstCap => 0x24
  | .quality => 0x28
  | .filter => 0x2C
  | .flags => 0x30
  | .chunkType => 0x34
  | .result => 0x38
  | .outLen => 0x3C

/-- The registers in the order of the window. -/
def Reg.all : List Reg :=
  [.cmd, .status, .width, .height, .format, .srcBase, .srcStride, .srcLen,
   .dstBase, .dstCap, .quality, .filter, .flags, .chunkType, .result, .outLen]

/-- The register at a byte offset; none where the offset is not a multiple of 4 inside 0x00..0x3C (20_memory.md R71). -/
def Reg.atOffset (off : Nat) : Option Reg := Reg.all.find? fun r => r.offset == off

/-- Reading a register: CMD reads 0, reserved bits read 0 (10_state.md R21, R22, R24, R25, R27, R29, R31). -/
def readReg (r : Reg) (s : State) : Word :=
  match r with
  | .cmd => 0
  | .status => s.status.word
  | .width => s.cfg.width
  | .height => s.cfg.height
  | .format => s.cfg.format.zeroExtend 32
  | .srcBase => s.cfg.srcBase
  | .srcStride => s.cfg.srcStride
  | .srcLen => s.cfg.srcLen
  | .dstBase => s.cfg.dstBase
  | .dstCap => s.cfg.dstCap
  | .quality => s.cfg.quality
  | .filter => s.cfg.filter.zeroExtend 32
  | .flags => (BitVec.ofBool s.cfg.irqEn ++ BitVec.ofBool s.cfg.flip).zeroExtend 32
  | .chunkType => s.cfg.chunkType
  | .result => s.result
  | .outLen => s.outLen

/-- A write to a configuration register; the bits of `v` that are reserved there are dropped (10_state.md R31). The
registers that are no configuration register keep the configuration as it is. -/
def Cfg.write (c : Cfg) (r : Reg) (v : Word) : Cfg :=
  match r with
  | .cmd => c
  | .status => c
  | .width => { c with width := v }
  | .height => { c with height := v }
  | .format => { c with format := v.setWidth 8 }
  | .srcBase => { c with srcBase := v }
  | .srcStride => { c with srcStride := v }
  | .srcLen => { c with srcLen := v }
  | .dstBase => { c with dstBase := v }
  | .dstCap => { c with dstCap := v }
  | .quality => { c with quality := v }
  | .filter => { c with filter := v.setWidth 4 }
  | .flags => { c with flip := v.getLsbD 0, irqEn := v.getLsbD 1 }
  | .chunkType => { c with chunkType := v }
  | .result => c
  | .outLen => c

/-- Acceptance of a command word (46_commands.md R260): the latch, the flags, and a LATENCY for this command
(00_scope.md R8). No duty is broken yet. -/
def accept (p : Params) (w : Word) (s : State) : State :=
  { s with
    cmdWord := w
    status := s.status.accepted
    wait := p.latency s.draws
    duty := Duty.kept
    draws := s.draws + 1 }

/-- A host register write, one that is admitted. While busy it changes IGN alone (10_state.md R30); otherwise CMD accepts
a command, STATUS clears flags, RESULT and OUT_LEN ignore it (R29), and the rest take the value (R23 to R28). -/
def writeReg (p : Params) (r : Reg) (v : Word) (s : State) : State :=
  if s.status.busy then { s with status := s.status.ignored }
  else
    match r with
    | .cmd => accept p v s
    | .status => { s with status := s.status.clearOnes v }
    | r => { s with cfg := s.cfg.write r v }

/-! ### Completion (46_commands.md R260; 60_exceptions.md R301 to R305) -/

/-- A destination region as the spans it is made of; none for a command that produces no bytes. -/
def Memory.scrambleRegion (m : Memory) (d : Nat) (dst : Option Span) : Memory :=
  match dst with
  | none => m
  | some r => m.scramble d 0 r.base r.len

/-- A success completion: the output bytes at DST_BASE, RESULT and OUT_LEN, ERR and ERRCODE 0 (46_commands.md R260). -/
def successCompletion (out : List Byte) (res : Word) (s : State) : State :=
  { s with
    mem := s.mem.writeBytes s.cfg.dstBase out
    result := res
    outLen := BitVec.ofNat 32 out.length
    status := s.status.completed none }

/-- TAKING AN ERROR, the CORE's one exception (60_exceptions.md R301): RESULT 0, OUT_LEN 0, ERR 1, ERRCODE the code, and
for OVERFLOW every byte of the destination region a free value (20_memory.md R67; log 7). There is no trap entry: no
program counter or status is saved and no control flow is redirected (R304). -/
def errorCompletion (code : ErrCode) (dst : Option Span) (s : State) : State :=
  { s with
    mem := if code = .overflow then s.mem.scrambleRegion s.draws dst else s.mem
    result := 0
    outLen := 0
    status := s.status.completed (some code) }

/-- THE RETURN FROM AN ERROR: there is no return operation (60_exceptions.md R305); the indication goes when the host
writes 1 to STATUS.ERR, which clears ERR and ERRCODE, or when the next command is accepted (`accept`). -/
def clearError (s : State) : State := { s with status := s.status.clearOnes 0x4 }

/-- The completion of NOP: the flags alone (46_commands.md R261). -/
def plainCompletion (s : State) : State := { s with status := s.status.completed none }

/-- The completion of a command whose operands the host touched while it was busy, or that met memory that is not
ordinary: RESULT, OUT_LEN, the destination bytes and the error outcome are free values (20_memory.md R65, R75). -/
def freeCompletion (dst : Option Span) (s : State) : State :=
  { s with
    mem := s.mem.scrambleRegion s.draws dst
    result := Config.freeWord s.draws 0
    outLen := Config.freeWord s.draws 1
    status := s.status.completed (Config.freeOutcome s.draws) }

/-- The error a run ends in. -/
def RunOutcome.error? (o : RunOutcome) : Option ErrCode :=
  match o with
  | .nothing => none
  | .ok _ _ => none
  | .error c => some c

/-- The completion of a command whose source and destination overlap: RESULT, OUT_LEN and the destination bytes are free
values, the error outcome is the run's (20_memory.md R76; log 8). -/
def overlapCompletion (o : RunOutcome) (dst : Option Span) (s : State) : State :=
  { s with
    mem := s.mem.scrambleRegion s.draws dst
    result := Config.freeWord s.draws 0
    outLen := Config.freeWord s.draws 1
    status := s.status.completed o.error? }

/-- The completion of a command whose duties are kept (46_commands.md R260). -/
def cleanCompletion (o : RunOutcome) (dst : Option Span) (s : State) : State :=
  match o with
  | .nothing => plainCompletion s
  | .ok out res => successCompletion out res s
  | .error c => errorCompletion c dst s

/-- Where the free bytes begin that a completion draws for single addresses; the bytes of the destination region are
numbered below it. -/
def touchedFrom : Nat := 2 ^ 32

/-- What every completion does last, `written` being the bytes it may have written (`mayWrite`). The destination bytes the
host wrote while busy are free values (20_memory.md R75; log 9), and so are the written bytes a host store from before may
still reach; a host that does not see the port's memory may hold stale copies of the written bytes, and of no others (R67,
R74, 60_exceptions.md R303; DESIGN CHOICE, log 13). The internal state is released (10_state.md R40; log 15); the duty
record and the draw number move on. -/
def retire (p : Params) (written : List Span) (w : Work) (s : State) : State :=
  let touched := s.duty.dstWritten ++ s.platform.unflushed.filter (spansHold written)
  { s with
    mem := s.mem.scrambleAt s.draws touchedFrom touched
    work := Config.residue s.draws w
    wait := 0
    duty := Duty.kept
    platform := if p.coherent then s.platform else { s.platform with stale := written ++ s.platform.stale }
    draws := s.draws + 1 }

/-! ### Reset (70_reset_and_hazards.md R330, R331) -/

/-- Reset becomes asserted: a busy command is abandoned and every byte of its destination region `dst` is a free value;
RESULT, OUT_LEN and the other registers keep no meaning until reset ends. The region "may have been partly written", so
where host caches are not coherent with the port the host may hold stale copies of it (DESIGN CHOICE, log 13). -/
def assertReset (p : Params) (dst : Option Span) (s : State) : State :=
  { s with
    mem := if s.status.busy then s.mem.scrambleRegion s.draws dst else s.mem
    status := s.status.abandoned
    wait := 0
    duty := Duty.kept
    platform :=
      if p.coherent || !s.status.busy then s.platform
      else { s.platform with stale := dst.toList ++ s.platform.stale }
    inReset := true
    draws := s.draws + 1 }

/-- Reset ends: on_reset() of R330. The internal state, the command latch among it, is a free value (R331). -/
def releaseReset (s : State) : State :=
  { s with
    cfg := Cfg.reset
    status := Status.reset
    result := 0
    outLen := 0
    cmdWord := Config.freeWord s.draws 0
    work := Config.residue s.draws s.work
    wait := 0
    duty := Duty.kept
    inReset := false
    draws := s.draws + 1 }

end Sys2Proof.Machine
end

