-- ==== Sys2Proof/Machine/Operands.lean ====
section
/-! DEFINITION. The operands of the commands, all derived from the configuration registers and memory (30_encoding.md
R91): pixel format, filter mode, quality, raster rows, byte range, chunk type, and the register checks of
60_exceptions.md R302. -/

namespace Sys2Proof.Machine

/-- The four pixel formats (10_state.md R24). -/
inductive PixelFormat where
  | gray8 | bgr24 | bgra32 | rgb24
  deriving DecidableEq, Repr

/-- The five PNG filters (42_filter_bank.md R143 to R148). -/
inductive FilterType where
  | none | sub | up | average | paeth
  deriving DecidableEq, Repr

/-- FILTER.MODE as a command uses it (10_state.md R25): a forced filter, or adaptive selection. -/
inductive FilterMode where
  | forced (t : FilterType)
  | adaptive
  deriving DecidableEq, Repr

/-- The format a FORMAT code names; codes 4..255 name none (10_state.md R24). -/
def pixelFormat (fmt : BitVec 8) : Option PixelFormat :=
  match fmt.toNat with
  | 0 => some .gray8
  | 1 => some .bgr24
  | 2 => some .bgra32
  | 3 => some .rgb24
  | _ => none

/-- nchan, the channels (bytes) of a pixel (10_state.md R24, 46_commands.md R260). -/
def PixelFormat.channels (f : PixelFormat) : Nat :=
  match f with
  | .gray8 => 1
  | .bgr24 => 3
  | .bgra32 => 4
  | .rgb24 => 3

/-- The filter mode a MODE value names: 0..4 forced, 8 adaptive, the others none (10_state.md R25). -/
def filterMode (mode : BitVec 4) : Option FilterMode :=
  match mode.toNat with
  | 0 => some (.forced .none)
  | 1 => some (.forced .sub)
  | 2 => some (.forced .up)
  | 3 => some (.forced .average)
  | 4 => some (.forced .paeth)
  | 8 => some .adaptive
  | _ => none

/-- q = max(QUALITY, 5) (10_state.md R26). -/
def effectiveQuality (quality : Word) : Nat := max quality.toNat 5

/-- Whether a raster dimension is admitted: 1 .. 2^31 − 1 (46_commands.md R262). -/
def dimensionOk (v : Word) : Bool := decide (1 ≤ v.toNat ∧ v.toNat ≤ 2 ^ 31 - 1)

/-- RL = W × n, the data bytes of a row (00_scope.md R16). -/
def rowLength (c : Cfg) (f : PixelFormat) : Nat := c.width.toNat * f.channels

/-- L = H × (W × n + 1), the length of the filtered plane (42_filter_bank.md R154). -/
def planeLength (c : Cfg) (f : PixelFormat) : Nat := c.height.toNat * (rowLength c f + 1)

/-- The address of the first byte of source row `r` (20_memory.md R63). -/
def rowAddress (c : Cfg) (r : Nat) : Word := c.srcBase + BitVec.ofNat 32 (r * c.srcStride.toNat)

/-- The bytes of source row `r` (20_memory.md R63). -/
def sourceRow (c : Cfg) (f : PixelFormat) (m : Memory) (r : Nat) : List Byte :=
  m.readBytes (rowAddress c r) (rowLength c f)

/-- r(y), the source row of filtered row `y` (42_filter_bank.md R140). -/
def sourceIndex (c : Cfg) (y : Nat) : Nat := if c.flip then c.height.toNat - 1 - y else y

/-- Pixels of three bytes, the first and the third exchanged: B, G, R to R, G, B (42_filter_bank.md R141). -/
def reorderBgr (row : List Byte) : List Byte :=
  match row with
  | b :: g :: r :: rest => r :: g :: b :: reorderBgr rest
  | rest => rest

/-- Pixels of four bytes, the first and the third exchanged: B, G, R, A to R, G, B, A (42_filter_bank.md R141). -/
def reorderBgra (row : List Byte) : List Byte :=
  match row with
  | b :: g :: r :: a :: rest => r :: g :: b :: a :: reorderBgra rest
  | rest => rest

/-- The channel reorder into PNG sample order (42_filter_bank.md R141). -/
def reorder (f : PixelFormat) (row : List Byte) : List Byte :=
  match f with
  | .gray8 => row
  | .bgr24 => reorderBgr row
  | .bgra32 => reorderBgra row
  | .rgb24 => row

/-- E_y, the effective row of filtered row `y` (42_filter_bank.md R141). -/
def effectiveRow (c : Cfg) (f : PixelFormat) (m : Memory) (y : Nat) : List Byte :=
  reorder f (sourceRow c f m (sourceIndex c y))

/-- E_0 .. E_{H−1}, the effective raster (00_scope.md R16). -/
def effectiveRows (c : Cfg) (f : PixelFormat) (m : Memory) : List (List Byte) :=
  (List.range c.height.toNat).map (effectiveRow c f m)

/-- S = MemRead(SRC_BASE, SRC_LEN) (20_memory.md R64). -/
def sourceBytes (c : Cfg) (m : Memory) : List Byte := m.readBytes c.srcBase c.srcLen.toNat

/-- The four type bytes be32(CHUNK_TYPE) (10_state.md R28). -/
def chunkTypeBytes (c : Cfg) : List Byte := be32 c.chunkType

/-! ### The checks a command makes on its registers (60_exceptions.md R302) -/

/-- The code of the first check of a list that fails: a command reports exactly one (60_exceptions.md R302). -/
def firstFailure (checks : List (Bool × ErrCode)) : Option ErrCode :=
  (checks.find? fun c => c.1).map fun c => c.2

/-- The checks of a raster command after FORMAT on W and H (46_commands.md R262, R263). -/
def dimensionChecks (c : Cfg) : List (Bool × ErrCode) :=
  [(!dimensionOk c.width, .param), (!dimensionOk c.height, .param)]

/-- The check on FILTER.MODE (46_commands.md R262, R263). -/
def modeCheck (c : Cfg) : Bool × ErrCode := ((filterMode c.filter).isNone, .param)

/-- The check on QUALITY (46_commands.md R262, R264). -/
def qualityCheck (p : Params) (c : Cfg) : Bool × ErrCode := (decide (p.qmax < c.quality.toNat), .param)

/-- ENCODE_PNG's register checks, in order: PARAM (W, H, QUALITY, MODE), CAPACITY (L) (60_exceptions.md R302). -/
def encodeChecks (p : Params) (c : Cfg) (f : PixelFormat) : List (Bool × ErrCode) :=
  dimensionChecks c ++ [qualityCheck p c, modeCheck c, (decide (p.fpCap < planeLength c f), .capacity)]

/-- FILTER_IMAGE's register checks, in order: PARAM (W, H, MODE), OVERFLOW (L) (60_exceptions.md R302). -/
def filterChecks (c : Cfg) (f : PixelFormat) : List (Bool × ErrCode) :=
  dimensionChecks c ++ [modeCheck c, (decide (c.dstCap.toNat < planeLength c f), .overflow)]

/-- ZLIB_COMPRESS's register checks, in order: PARAM (QUALITY), CAPACITY (SRC_LEN) (60_exceptions.md R302). -/
def zlibChecks (p : Params) (c : Cfg) : List (Bool × ErrCode) :=
  [qualityCheck p c, (decide (p.fpCap < c.srcLen.toNat), .capacity)]

/-- WRITE_CHUNK's register check: PARAM (SRC_LEN) (60_exceptions.md R302). -/
def chunkChecks (c : Cfg) : List (Bool × ErrCode) :=
  [(decide (2 ^ 31 - 1 < c.srcLen.toNat), .param)]

/-! ### Which memory a command reads and which it may write -/

/-- The source byte range as a span (20_memory.md R64). -/
def byteRangeSpan (c : Cfg) : Span := ⟨c.srcBase, c.srcLen.toNat⟩

/-- The source rows of the raster as spans (20_memory.md R63). -/
def rasterSpans (c : Cfg) (f : PixelFormat) : List Span :=
  (List.range c.height.toNat).map fun r => ⟨rowAddress c r, rowLength c f⟩

/-- The addresses a command reads: the raster or the byte range, and nothing for a command that a register check ends
(60_exceptions.md R302: those are "decided before any memory access"; log 10). -/
def readSpans (p : Params) (i : Instr) (c : Cfg) : List Span :=
  match i with
  | .nop => []
  | .encodePng =>
    match pixelFormat c.format with
    | none => []
    | some f => if (firstFailure (encodeChecks p c f)).isSome then [] else rasterSpans c f
  | .filterImage =>
    match pixelFormat c.format with
    | none => []
    | some f => if (firstFailure (filterChecks c f)).isSome then [] else rasterSpans c f
  | .zlibCompress => if (firstFailure (zlibChecks p c)).isSome then [] else [byteRangeSpan c]
  | .crc32 => [byteRangeSpan c]
  | .adler32 => [byteRangeSpan c]
  | .writeChunk => if (firstFailure (chunkChecks c)).isSome then [] else [byteRangeSpan c]
  | .reserved _ _ => []

/-- The destination region [DST_BASE, DST_BASE + DST_CAP) of a command that produces bytes (20_memory.md R66); the others
do not read DST_BASE and DST_CAP and have none (46_commands.md R261, R265, R266, R268; log 11). -/
def writeRegion (i : Instr) (c : Cfg) : Option Span :=
  match i with
  | .nop => none
  | .encodePng => some ⟨c.dstBase, c.dstCap.toNat⟩
  | .filterImage => some ⟨c.dstBase, c.dstCap.toNat⟩
  | .zlibCompress => some ⟨c.dstBase, c.dstCap.toNat⟩
  | .crc32 => none
  | .adler32 => none
  | .writeChunk => some ⟨c.dstBase, c.dstCap.toNat⟩
  | .reserved _ _ => none

/-- The addresses a run writes: its output bytes, the whole region on OVERFLOW, and no byte on any other error
(20_memory.md R66, R67). -/
def writtenSpans (i : Instr) (c : Cfg) (o : RunOutcome) : List Span :=
  match o with
  | .nothing => []
  | .ok out _ => (writeRegion i c).toList.map fun r => ⟨r.base, out.length⟩
  | .error code => if code = .overflow then (writeRegion i c).toList else []

/-! ### The duties of 20_memory.md R65, R73, R75, R76 -/

/-- Whether a run touches memory that is not ordinary (20_memory.md R65, 60_exceptions.md R307). -/
def touchesUnserved (p : Params) (i : Instr) (o : RunOutcome) (s : State) : Bool :=
  spansMeet (readSpans p i s.cfg ++ writtenSpans i s.cfg o) s.platform.unserved

/-- Whether the host wrote a byte the command reads while it was busy (20_memory.md R75), or left a store to one in its
caches where the port does not see them (R73; log 13). -/
def sourceDisturbed (p : Params) (i : Instr) (s : State) : Bool :=
  s.duty.srcWritten || s.platform.unflushed.any (spansHold (readSpans p i s.cfg))

/-- Whether a byte the command reads lies in its destination region (20_memory.md R76). -/
def sourceOverlaps (p : Params) (i : Instr) (s : State) : Bool :=
  spansMeet (readSpans p i s.cfg) (writeRegion i s.cfg).toList

/-- Whether the bytes, RESULT and OUT_LEN of a completion are any value: it met memory that is not ordinary, the host
disturbed its source, or its source and destination overlap (20_memory.md R65, R75, R76). -/
def resultsFree (p : Params) (i : Instr) (o : RunOutcome) (s : State) : Bool :=
  touchesUnserved p i o s || sourceDisturbed p i s || sourceOverlaps p i s

/-- The bytes the engine may have written by the completion: those of the run, or the whole destination region where the
results are any value (20_memory.md R66, R67, R75, R76; log 13). -/
def mayWrite (p : Params) (i : Instr) (o : RunOutcome) (s : State) : List Span :=
  if resultsFree p i o s then (writeRegion i s.cfg).toList else writtenSpans i s.cfg o

/-- The state a completion puts the CORE in, before `retire` (46_commands.md R260, 20_memory.md R75, R76). -/
def completed (p : Params) (i : Instr) (o : RunOutcome) (s : State) : State :=
  if touchesUnserved p i o s || sourceDisturbed p i s then freeCompletion (writeRegion i s.cfg) s
  else if sourceOverlaps p i s then overlapCompletion o (writeRegion i s.cfg) s
  else cleanCompletion o (writeRegion i s.cfg) s

/-- The engine's one step for a command, its completion (46_commands.md R260): the shared end of every meaning. A memory
port the platform cannot serve may leave the command stuck (60_exceptions.md R307; log 12). -/
def complete (p : Params) (i : Instr) (r : Run) (s : State) : Host.Outcome State Fault Refusal :=
  if touchesUnserved p i r.outcome s && Config.portStuck s.draws then .fault .memoryPortStuck
  else .next (retire p (mayWrite p i r.outcome s) r.work (completed p i r.outcome s))

end Sys2Proof.Machine
end

