-- ==== Sys2Proof/Machine/Checksums.lean ====
section
/-! DEFINITION. The CRC32 and Adler32 units (41_checksums.md R120 to R129). -/

namespace Sys2Proof.Machine

/-- One shift of the CRC register: right by one, and the reflected polynomial 0xEDB88320 where the bit shifted out is 1
(41_checksums.md R121). -/
def crcShift (c : Word) : Word := if c.getLsbD 0 then (c >>> 1) ^^^ 0xEDB88320 else c >>> 1

/-- `n` shifts of the CRC register. -/
def crcShifts (n : Nat) (c : Word) : Word :=
  match n with
  | 0 => c
  | n + 1 => crcShifts n (crcShift c)

/-- crc_step, the CRC register after one byte (41_checksums.md R121). -/
def crcStep (cr : Word) (b : Byte) : Word := crcShifts 8 (cr ^^^ b.zeroExtend 32)

/-- The CRC register after a byte sequence, from 0xFFFFFFFF (41_checksums.md R122). -/
def crcRegister (s : List Byte) : Word := s.foldl crcStep 0xFFFFFFFF

/-- CRC32(s), the complement of the register (41_checksums.md R122). -/
def crc32 (s : List Byte) : Word := crcRegister s ^^^ 0xFFFFFFFF

/-- ADLER_MOD (00_scope.md R7). -/
def adlerMod : Nat := 65521

/-- ADLER_BLOCK (00_scope.md R7). -/
def adlerBlock : Nat := 5552

/-- The sums after one byte, not reduced (41_checksums.md R125). -/
def adlerByte (a : Sums) (b : Byte) : Sums := ⟨a.s1 + b.toNat, a.s2 + (a.s1 + b.toNat)⟩

/-- The reduction at the end of a block (41_checksums.md R125). -/
def adlerReduce (a : Sums) : Sums := ⟨a.s1 % adlerMod, a.s2 % adlerMod⟩

/-- The loop over blocks of at most ADLER_BLOCK bytes (41_checksums.md R125), at most `fuel` of them. -/
def adlerBlocks (fuel : Nat) (a : Sums) (s : List Byte) : Sums :=
  match fuel, s with
  | 0, _ => a
  | _, [] => a
  | fuel + 1, b :: rest =>
    adlerBlocks fuel (adlerReduce (((b :: rest).take adlerBlock).foldl adlerByte a)) ((b :: rest).drop adlerBlock)

/-- S1 and S2 after a byte sequence (41_checksums.md R125); a sequence has at most as many blocks as bytes. -/
def adlerSums (s : List Byte) : Sums := adlerBlocks s.length ⟨1, 0⟩ s

/-- (S2 << 16) | S1 (41_checksums.md R125). -/
def Sums.word (a : Sums) : Word := BitVec.ofNat 32 (a.s2 <<< 16 ||| a.s1)

/-- Adler32(s) (41_checksums.md R125). -/
def adler32 (s : List Byte) : Word := (adlerSums s).word

end Sys2Proof.Machine
end

