-- ==== Sys2Proof/Machine/ControlCommands.lean ====
section
/-! DEFINITION. The meanings of NOP and of the reserved words (46_commands.md R261, R268). -/

namespace Sys2Proof.Machine

/-- A run that ends in an error; its units are left as a command finds them. -/
def failedRun (code : ErrCode) : Run := ⟨.error code, Work.fresh⟩

/-- run NOP (46_commands.md R261). -/
def runNop : Run := ⟨.nothing, Work.fresh⟩

/-- NOP: completes and leaves RESULT, OUT_LEN and memory (46_commands.md R261). -/
def execNop (s : State) : Host.Outcome State Fault Refusal := complete Config.chip .nop runNop s

/-- run of a reserved word: Error(OPCODE), always (46_commands.md R268). -/
def runReserved : Run := failedRun .opcode

/-- A reserved command word: error OPCODE and no other effect, whatever its bits are (46_commands.md R268,
30_encoding.md R94). -/
def execReserved (rsv : BitVec 24) (opcode : BitVec 8) (s : State) : Host.Outcome State Fault Refusal :=
  complete Config.chip (.reserved rsv opcode) runReserved s

end Sys2Proof.Machine
end

