-- ==== Sys2Proof/Machine/ChecksumCommands.lean ====
section
/-! DEFINITION. The meanings of CRC32 and ADLER32 (46_commands.md R265, R266). -/

namespace Sys2Proof.Machine

/-- run CRC32 = (ok, [], CRC32(S)) (46_commands.md R265). -/
def runCrc32 (s : State) : Run :=
  let d := sourceBytes s.cfg s.mem
  ⟨.ok [] (crc32 d), { Work.fresh with crc := crcRegister d }⟩

/-- CRC32: the checksum of the source byte range into RESULT, OUT_LEN 0, no memory written (46_commands.md R265). -/
def execCrc32 (s : State) : Host.Outcome State Fault Refusal := complete Config.chip .crc32 (runCrc32 s) s

/-- run ADLER32 = (ok, [], Adler32(S)) (46_commands.md R266). -/
def runAdler32 (s : State) : Run :=
  let d := sourceBytes s.cfg s.mem
  ⟨.ok [] (adler32 d), { Work.fresh with adler := adlerSums d }⟩

/-- ADLER32: the checksum of the source byte range into RESULT, OUT_LEN 0, no memory written (46_commands.md R266). -/
def execAdler32 (s : State) : Host.Outcome State Fault Refusal := complete Config.chip .adler32 (runAdler32 s) s

end Sys2Proof.Machine
end

