-- ==== Sys2Proof/Machine/MatchFinder.lean ====
section
/-! DEFINITION. The LZ77 match finder (43_lz77_match_finder.md R170 to R191). -/

namespace Sys2Proof.Machine

/-- A symbol of the match finder's output (43_lz77_match_finder.md R171). -/
inductive Symbol where
  | lit (b : Byte)
  | copy (len dist : Nat)
  | eob
  deriving DecidableEq, Repr

/-- A match the search has found: its length and the bucket entry it starts at (43_lz77_match_finder.md R177). -/
structure Candidate where
  len : Nat
  pos : Nat
  deriving DecidableEq, Repr

/-- HASH3_default, one value HASH3 may have (43_lz77_match_finder.md R172). -/
def hash3Default (b0 b1 b2 : Byte) : BitVec 14 :=
  let h : Word := b0.zeroExtend 32 ||| (b1.zeroExtend 32 <<< 8) ||| (b2.zeroExtend 32 <<< 16)
  let h := h ^^^ (h <<< 3)
  let h := h + (h >>> 5)
  let h := h ^^^ (h <<< 4)
  let h := h + (h >>> 17)
  let h := h ^^^ (h <<< 25)
  let h := h + (h >>> 6)
  h.setWidth 14

/-- h(i), the bucket of the three bytes at `i` (43_lz77_match_finder.md R172). -/
def hashAt (p : Params) (d : List Byte) (i : Nat) : Nat :=
  (p.hash3 (d.getD i 0) (d.getD (i + 1) 0) (d.getD (i + 2) 0)).toNat

/-- B[k], oldest entry first; a bucket that is not listed is empty (10_state.md R37). -/
def bucketGet (bs : List (Nat × List Nat)) (k : Nat) : List Nat :=
  match bs with
  | [] => []
  | (j, entries) :: rest => if j = k then entries else bucketGet rest k

/-- The bucket store with B[k] replaced by entries that are not empty. -/
def bucketSet (bs : List (Nat × List Nat)) (k : Nat) (entries : List Nat) : List (Nat × List Nat) :=
  match bs with
  | [] => [(k, entries)]
  | (j, old) :: rest =>
    if j < k then (j, old) :: bucketSet rest k entries
    else if j = k then (k, entries) :: rest
    else (k, entries) :: (j, old) :: rest

/-- Whether entry `e` is admissible for position `j`: 1 ≤ j − e ≤ MAX_DIST (43_lz77_match_finder.md R174). -/
def admissible (p : Params) (j e : Nat) : Bool := decide (e < j ∧ j - e ≤ p.maxDist)

/-- cand(j), the admissible entries of the bucket of `j`, in bucket order (43_lz77_match_finder.md R175). -/
def candidates (p : Params) (d : List Byte) (bs : List (Nat × List Nat)) (j : Nat) : List Nat :=
  (bucketGet bs (hashAt p d j)).filter (admissible p j)

/-- The comparison loop of mlen, from `m` equal bytes on, at most `fuel` more (43_lz77_match_finder.md R176). -/
def matchFrom (d : List Byte) (e j : Nat) (fuel m : Nat) : Nat :=
  match fuel with
  | 0 => m
  | fuel + 1 => if d.getD (e + m) 0 = d.getD (j + m) 0 then matchFrom d e j fuel (m + 1) else m

/-- mlen(e, j, cap), capped at 258 (43_lz77_match_finder.md R176). -/
def matchLength (d : List Byte) (e j cap : Nat) : Nat := matchFrom d e j (min 258 cap) 0

/-- One entry of the search: it becomes the candidate if it is at least 3 long and longer than the best so far, or as
long and more recent (43_lz77_match_finder.md R177, R178). -/
def better (d : List Byte) (i : Nat) (best : Option Candidate) (e : Nat) : Option Candidate :=
  let m := matchLength d e i (d.length - i)
  match best with
  | none => if 3 ≤ m then some ⟨m, e⟩ else none
  | some b => if 3 ≤ m ∧ (b.len < m ∨ (m = b.len ∧ b.pos < e)) then some ⟨m, e⟩ else some b

/-- search(i), oldest entry first (43_lz77_match_finder.md R177). -/
def search (p : Params) (d : List Byte) (bs : List (Nat × List Nat)) (i : Nat) : Option Candidate :=
  (candidates p d bs i).foldl (better d i) none

/-- A bucket that receives position `i`: one that holds 2q entries is first cut to its q most recent
(43_lz77_match_finder.md R180). -/
def pushTrimmed (q : Nat) (entries : List Nat) (i : Nat) : List Nat :=
  (if entries.length = 2 * q then entries.drop q else entries) ++ [i]

/-- insert(i) (43_lz77_match_finder.md R180). -/
def insertPosition (p : Params) (d : List Byte) (q : Nat) (bs : List (Nat × List Nat)) (i : Nat) :
    List (Nat × List Nat) :=
  bucketSet bs (hashAt p d i) (pushTrimmed q (bucketGet bs (hashAt p d i)) i)

/-- lazy_reject(i, best_len): whether the bucket of i + 1 holds a strictly longer match there
(43_lz77_match_finder.md R182). -/
def lazyReject (p : Params) (d : List Byte) (bs : List (Nat × List Nat)) (i bestLen : Nat) : Bool :=
  (candidates p d bs (i + 1)).any fun e => decide (bestLen < matchLength d e (i + 1) (d.length - i - 1))

/-- The candidate that is committed at `i`, if any: the search before the insert, the lazy probe after it
(43_lz77_match_finder.md R177, R179, R182, R184). -/
def committed (p : Params) (d : List Byte) (q : Nat) (fd : Finder) : Option Candidate :=
  match search p d fd.buckets fd.pos with
  | none => none
  | some c => if lazyReject p d (insertPosition p d q fd.buckets fd.pos) fd.pos c.len then none else some c

/-- One visited position: the finder after it and the symbol it emits (43_lz77_match_finder.md R177 to R185). -/
def visit (p : Params) (d : List Byte) (q : Nat) (fd : Finder) : Finder × Symbol :=
  let bs := insertPosition p d q fd.buckets fd.pos
  match committed p d q fd with
  | some c => (⟨fd.pos + c.len, bs⟩, .copy c.len (fd.pos - c.pos))
  | none => (⟨fd.pos + 1, bs⟩, .lit (d.getD fd.pos 0))

/-- The main loop, while N − i ≥ 4 (43_lz77_match_finder.md R186), at most `fuel` positions. -/
def findLoop (p : Params) (d : List Byte) (q fuel : Nat) (fd : Finder) : Finder × List Symbol :=
  match fuel with
  | 0 => (fd, [])
  | fuel + 1 =>
    if fd.pos + 4 ≤ d.length then
      let v := visit p d q fd
      let rest := findLoop p d q fuel v.1
      (rest.1, v.2 :: rest.2)
    else (fd, [])

/-- lz77(D, q): the finder at the end, and the symbols: the loop's, the tail's literals, EOB (43_lz77_match_finder.md
R187, R188). The loop visits at most N positions. -/
def lz77 (p : Params) (d : List Byte) (q : Nat) : Finder × List Symbol :=
  let r := findLoop p d q d.length Work.fresh.finder
  (⟨d.length, r.1.buckets⟩, r.2 ++ (d.drop r.1.pos).map Symbol.lit ++ [Symbol.eob])

end Sys2Proof.Machine
end

