-- ==== Sys2Proof/Machine/Huffman.lean ====
section
/-! DEFINITION. The fixed-table Huffman encoder, the bit writer and the zlib serializer (44_huffman_bitwriter.md R210 to
R226). -/

namespace Sys2Proof.Machine

/-- One put(v, n) of the bit writer (00_scope.md R13). -/
structure Put where
  value : Nat
  width : Nat
  deriving DecidableEq, Repr

/-- A length or distance as the tables code it: the row of the table, the count of extra bits and their value
(44_huffman_bitwriter.md R216, R217). -/
structure TableCode where
  index : Nat
  extraBits : Nat
  extra : Nat
  deriving DecidableEq, Repr

/-! ### The bit writer -/

/-- The low byte of ACC (44_huffman_bitwriter.md R211). -/
def BitWriter.lowByte (bw : BitWriter) : Byte := bw.acc.setWidth 8

/-- While CNT ≥ 8, a byte is emitted; at most `fuel` of them (44_huffman_bitwriter.md R211). -/
def flushBytes (fuel : Nat) (bw : BitWriter) : BitWriter × List Byte :=
  match fuel with
  | 0 => (bw, [])
  | fuel + 1 =>
    if 8 ≤ bw.cnt then
      let r := flushBytes fuel ⟨bw.acc >>> 8, bw.cnt - 8, bw.k + 1⟩
      (r.1, bw.lowByte :: r.2)
    else (bw, [])

/-- put(v, n) through the accumulator (44_huffman_bitwriter.md R211). -/
def putBits (bw : BitWriter) (u : Put) : BitWriter × List Byte :=
  flushBytes (bw.cnt + u.width) ⟨bw.acc ||| (BitVec.ofNat 32 u.value <<< bw.cnt), bw.cnt + u.width, bw.k⟩

/-- A sequence of puts. -/
def putAll (bw : BitWriter) (us : List Put) : BitWriter × List Byte :=
  match us with
  | [] => (bw, [])
  | u :: rest =>
    let r := putBits bw u
    let rs := putAll r.1 rest
    (rs.1, r.2 ++ rs.2)

/-- The end padding: a partial byte is emitted with zero bits above (44_huffman_bitwriter.md R212). -/
def padEnd (bw : BitWriter) : BitWriter × List Byte :=
  if 0 < bw.cnt then (⟨bw.acc, 0, bw.k + 1⟩, [bw.lowByte]) else (bw, [])

/-! ### The fixed codes -/

/-- The fixed literal/length code of symbol `s`: its value, most significant bit first, and its length
(44_huffman_bitwriter.md R214). -/
def litLenCode (s : Nat) : Nat × Nat :=
  if s ≤ 143 then (0x30 + s, 8)
  else if s ≤ 255 then (0x190 + (s - 144), 9)
  else if s ≤ 279 then (s - 256, 7)
  else (0xC0 + (s - 280), 8)

/-- huff(s): the code reversed, so that it enters the stream most significant bit first (44_huffman_bitwriter.md R214). -/
def huff (s : Nat) : Put := ⟨revBits (litLenCode s).1 (litLenCode s).2, (litLenCode s).2⟩

/-- Distance code `d`, five bits reversed (44_huffman_bitwriter.md R215). -/
def distPut (d : Nat) : Put := ⟨revBits d 5, 5⟩

/-- The length table: (base, extra bits) of symbols 257, 258, … (44_huffman_bitwriter.md R216). -/
def lengthTable : List (Nat × Nat) :=
  [(3, 0), (4, 0), (5, 0), (6, 0), (7, 0), (8, 0), (9, 0), (10, 0),
   (11, 1), (13, 1), (15, 1), (17, 1), (19, 2), (23, 2), (27, 2), (31, 2),
   (35, 3), (43, 3), (51, 3), (59, 3), (67, 4), (83, 4), (99, 4), (115, 4),
   (131, 5), (163, 5), (195, 5), (227, 5), (258, 0)]

/-- The distance table: (base, extra bits) of codes 0, 1, … (44_huffman_bitwriter.md R217). -/
def distanceTable : List (Nat × Nat) :=
  [(1, 0), (2, 0), (3, 0), (4, 0), (5, 1), (7, 1), (9, 2), (13, 2), (17, 3), (25, 3),
   (33, 4), (49, 4), (65, 5), (97, 5), (129, 6), (193, 6), (257, 7), (385, 7), (513, 8), (769, 8),
   (1025, 9), (1537, 9), (2049, 10), (3073, 10), (4097, 11), (6145, 11), (8193, 12), (12289, 12),
   (16385, 13), (24577, 13)]

/-- The last row of a table whose base is at most `v`, rows numbered from `index` (44_huffman_bitwriter.md R216, R217). -/
def lastRow (best : TableCode) (index : Nat) (rows : List (Nat × Nat)) (v : Nat) : TableCode :=
  match rows with
  | [] => best
  | (base, e) :: rest => if base ≤ v then lastRow ⟨index, e, v - base⟩ (index + 1) rest v else best

/-- The row, extra-bit count and extra value of a match length; the symbol is 257 + row (44_huffman_bitwriter.md R216). -/
def lengthCode (len : Nat) : TableCode := lastRow ⟨0, 0, 0⟩ 0 lengthTable len

/-- The code, extra-bit count and extra value of a distance (44_huffman_bitwriter.md R217). -/
def distanceCode (dist : Nat) : TableCode := lastRow ⟨0, 0, 0⟩ 0 distanceTable dist

/-- The extra bits of a code, none where it has none; they are not reversed (44_huffman_bitwriter.md R218). -/
def extraPut (c : TableCode) : List Put := if 0 < c.extraBits then [⟨c.extra, c.extraBits⟩] else []

/-- emit(s), the puts of a symbol (44_huffman_bitwriter.md R218). -/
def symbolPuts (s : Symbol) : List Put :=
  match s with
  | .lit b => [huff b.toNat]
  | .copy len dist =>
    huff (257 + (lengthCode len).index) :: extraPut (lengthCode len)
      ++ distPut (distanceCode dist).index :: extraPut (distanceCode dist)
  | .eob => [huff 256]

/-- The block header: BFINAL = 1, BTYPE = 01 (44_huffman_bitwriter.md R213). -/
def blockHeader : List Put := [⟨1, 1⟩, ⟨1, 2⟩]

/-- The puts of a block of symbols (44_huffman_bitwriter.md R220). -/
def blockPuts (syms : List Symbol) : List Put := blockHeader ++ syms.flatMap symbolPuts

/-- The DEFLATE block of a symbol sequence: the writer at the end and the bytes (44_huffman_bitwriter.md R220). -/
def deflateBlock (syms : List Symbol) : BitWriter × List Byte :=
  let r := putAll Work.fresh.bits (blockPuts syms)
  let e := padEnd r.1
  (e.1, r.2 ++ e.2)

/-! ### The zlib stream -/

/-- The two header bytes (44_huffman_bitwriter.md R223). -/
def zlibHeader : List Byte := [0x78, 0x5E]

/-- A zlib stream around a block for the input `d` (44_huffman_bitwriter.md R224). -/
def zlibWrap (d block : List Byte) : List Byte := zlibHeader ++ block ++ be32 (adler32 d)

/-- zlib(D, q) (44_huffman_bitwriter.md R224). -/
def zlib (p : Params) (d : List Byte) (q : Nat) : List Byte := zlibWrap d (deflateBlock (lz77 p d q).2).2

end Sys2Proof.Machine
end

