-- ==== Sys2Proof/Machine/ScanFilter.lean ====
section
/-! DEFINITION. The scanline filter bank (42_filter_bank.md R140 to R156). -/

namespace Sys2Proof.Machine

/-- The tag byte of a filter (42_filter_bank.md R154). -/
def FilterType.tag (t : FilterType) : Byte :=
  match t with
  | .none => 0
  | .sub => 1
  | .up => 2
  | .average => 3
  | .paeth => 4

/-- The neighbour `n` bytes back in a row, 0 for the first pixel: "left" in the current row, "upper-left" in the previous
one (42_filter_bank.md R142). -/
def leftOf (n : Nat) (row : List Byte) (k : Nat) : Byte := if n ≤ k then row.getD (k - n) 0 else 0

/-- b, the byte above, 0 on row 0 (42_filter_bank.md R142). -/
def upOf (prev : Option (List Byte)) (k : Nat) : Byte :=
  match prev with
  | none => 0
  | some row => row.getD k 0

/-- c, the byte above and to the left, 0 on row 0 and for the first pixel (42_filter_bank.md R142). -/
def upperLeftOf (n : Nat) (prev : Option (List Byte)) (k : Nat) : Byte :=
  match prev with
  | none => 0
  | some row => leftOf n row k

/-- The Paeth predictor on exact integers, ties to left, then up, then upper-left (42_filter_bank.md R147). -/
def paeth (a b c : Byte) : Byte :=
  let p : Int := (a.toNat : Int) + b.toNat - c.toNat
  let pa := (p - a.toNat).natAbs
  let pb := (p - b.toNat).natAbs
  let pc := (p - c.toNat).natAbs
  if pa ≤ pb ∧ pa ≤ pc then a
  else if pb ≤ pc then b
  else c

/-- What each filter subtracts from a byte (42_filter_bank.md R143 to R148). -/
def predictor (t : FilterType) (a b c : Byte) : Byte :=
  match t with
  | .none => 0
  | .sub => a
  | .up => b
  | .average => BitVec.ofNat 8 ((a.toNat + b.toNat) / 2)
  | .paeth => paeth a b c

/-- F_t, a candidate row: each byte less its predictor, modulo 256 (42_filter_bank.md R143 to R149). -/
def filterRow (t : FilterType) (n : Nat) (prev : Option (List Byte)) (cur : List Byte) : List Byte :=
  (List.range cur.length).map fun k =>
    cur.getD k 0 - predictor t (leftOf n cur k) (upOf prev k) (upperLeftOf n prev k)

/-- The cost of a candidate row, the exact sum of |sext_8(byte)| (42_filter_bank.md R150). -/
def rowCost (row : List Byte) : Nat := (row.map absSext8).sum

/-- The scan of select_adaptive over the filters after the best one so far: a strictly lower cost replaces it, so ties
keep the lower index (42_filter_bank.md R151). -/
def selectLeast (best : FilterType) (bestCost : Nat) (rest : List (FilterType × Nat)) : FilterType :=
  match rest with
  | [] => best
  | (t, c) :: rest => if c < bestCost then selectLeast t c rest else selectLeast best bestCost rest

/-- select_adaptive over the costs C0..C4 (42_filter_bank.md R151). -/
def selectAdaptive (c0 c1 c2 c3 c4 : Nat) : FilterType :=
  selectLeast .none c0 [(.sub, c1), (.up, c2), (.average, c3), (.paeth, c4)]

/-- A row is fetched: it becomes CUR, and the row before it PREV, absent on row 0 (10_state.md R35, 42_filter_bank.md
R153: the previous row is "the effective row E_y itself, not its filtered form"). -/
def FilterBank.fetch (fb : FilterBank) (row : List Byte) : FilterBank :=
  { fb with prev := if fb.y = 0 then none else some fb.cur, cur := row }

/-- The five candidate rows and their costs are computed (42_filter_bank.md R151). -/
def FilterBank.compute (fb : FilterBank) (n : Nat) : FilterBank :=
  let f := fun t => filterRow t n fb.prev fb.cur
  { fb with
    f0 := f .none, f1 := f .sub, f2 := f .up, f3 := f .average, f4 := f .paeth
    c0 := rowCost (f .none), c1 := rowCost (f .sub), c2 := rowCost (f .up), c3 := rowCost (f .average)
    c4 := rowCost (f .paeth) }

/-- The forced candidate row alone is computed; "costs are not computed" (42_filter_bank.md R152). -/
def FilterBank.computeForced (fb : FilterBank) (n : Nat) (t : FilterType) : FilterBank :=
  let row := filterRow t n fb.prev fb.cur
  match t with
  | .none => { fb with f0 := row }
  | .sub => { fb with f1 := row }
  | .up => { fb with f2 := row }
  | .average => { fb with f3 := row }
  | .paeth => { fb with f4 := row }

/-- A candidate row of the bank. -/
def FilterBank.candidate (fb : FilterBank) (t : FilterType) : List Byte :=
  match t with
  | .none => fb.f0
  | .sub => fb.f1
  | .up => fb.f2
  | .average => fb.f3
  | .paeth => fb.f4

/-- One row through the bank: the bank after it, and the tag byte and row it appends to the plane (42_filter_bank.md
R151 to R153). -/
def filterBankRow (n : Nat) (mode : FilterMode) (fb : FilterBank) (row : List Byte) : FilterBank × List Byte :=
  let fetched := fb.fetch row
  match mode with
  | .forced t =>
    let done := fetched.computeForced n t
    ({ done with y := fb.y + 1 }, t.tag :: done.candidate t)
  | .adaptive =>
    let done := fetched.compute n
    let t := selectAdaptive done.c0 done.c1 done.c2 done.c3 done.c4
    ({ done with y := fb.y + 1 }, t.tag :: done.candidate t)

/-- The row loop: the bank after the rows, and the plane they append (42_filter_bank.md R153, R154). -/
def filterBankRows (n : Nat) (mode : FilterMode) (fb : FilterBank) (rows : List (List Byte)) :
    FilterBank × List Byte :=
  match rows with
  | [] => (fb, [])
  | row :: rest =>
    let r := filterBankRow n mode fb row
    let rs := filterBankRows n mode r.1 rest
    (rs.1, r.2 ++ rs.2)

/-- The filtered plane of an effective raster (42_filter_bank.md R154). -/
def filteredPlane (n : Nat) (mode : FilterMode) (rows : List (List Byte)) : List Byte :=
  (filterBankRows n mode Work.fresh.filter rows).2

end Sys2Proof.Machine
end

