-- ==== Sys2Proof/Machine/Framer.lean ====
section
/-! DEFINITION. The PNG chunk framer and the container (45_png_framer.md R240 to R253). -/

namespace Sys2Proof.Machine

/-- The PNG signature (45_png_framer.md R240). -/
def pngSignature : List Byte := [0x89, 0x50, 0x4E, 0x47, 0x0D, 0x0A, 0x1A, 0x0A]

/-- chunk(T, P): length, type, payload, CRC over type and payload (45_png_framer.md R241). -/
def chunk (type payload : List Byte) : List Byte :=
  be32 (BitVec.ofNat 32 payload.length) ++ type ++ payload ++ be32 (crc32 (type ++ payload))

/-- The type bytes "IHDR" (45_png_framer.md R242). -/
def typeIhdr : List Byte := [0x49, 0x48, 0x44, 0x52]

/-- The type bytes "IDAT" (45_png_framer.md R244). -/
def typeIdat : List Byte := [0x49, 0x44, 0x41, 0x54]

/-- The type bytes "IEND" (45_png_framer.md R245). -/
def typeIend : List Byte := [0x49, 0x45, 0x4E, 0x44]

/-- ctype(n), the colour type of a channel count (45_png_framer.md R242); both three-channel formats are truecolour. -/
def colourType (f : PixelFormat) : Byte :=
  match f with
  | .gray8 => 0
  | .bgr24 => 2
  | .bgra32 => 6
  | .rgb24 => 2

/-- The 13-byte IHDR payload (45_png_framer.md R242). -/
def ihdr (w h : Word) (f : PixelFormat) : List Byte := be32 w ++ be32 h ++ [8, colourType f, 0, 0, 0]

/-- The container: signature, IHDR, one IDAT with the zlib stream, IEND (45_png_framer.md R247). -/
def pngContainer (w h : Word) (f : PixelFormat) (z : List Byte) : List Byte :=
  pngSignature ++ chunk typeIhdr (ihdr w h f) ++ chunk typeIdat z ++ chunk typeIend []

/-- png_stream(W, H, n, FP, q) (45_png_framer.md R247). -/
def pngStream (p : Params) (w h : Word) (f : PixelFormat) (plane : List Byte) (q : Nat) : List Byte :=
  pngContainer w h f (zlib p plane q)

end Sys2Proof.Machine
end

