-- ==== Sys2Proof/Machine/StreamCommands.lean ====
section
/-! DEFINITION. The meanings of ZLIB_COMPRESS and WRITE_CHUNK (46_commands.md R264, R267). -/

namespace Sys2Proof.Machine

/-- A run whose output is `out`: OVERFLOW where it does not fit DST_CAP (20_memory.md R66). -/
def fittingRun (c : Cfg) (out : List Byte) (res : Word) (w : Work) : Run :=
  ⟨if c.dstCap.toNat < out.length then .error .overflow else .ok out res,
   { w with bits := { w.bits with k := out.length } }⟩

/-- The working state the compressor leaves for the input `d` (10_state.md R36 to R39). -/
def compressorWork (p : Params) (d : List Byte) (q : Nat) : Work :=
  { Work.fresh with
    plane := d
    finder := (lz77 p d q).1
    bits := (deflateBlock (lz77 p d q).2).1
    adler := adlerSums d }

/-- run ZLIB_COMPRESS (46_commands.md R264). -/
def runZlibCompress (p : Params) (s : State) : Run :=
  match firstFailure (zlibChecks p s.cfg) with
  | some code => failedRun code
  | none =>
    let d := sourceBytes s.cfg s.mem
    let q := effectiveQuality s.cfg.quality
    fittingRun s.cfg (zlib p d q) (adler32 d) (compressorWork p d q)

/-- ZLIB_COMPRESS: the zlib stream of the source byte range to the destination, its Adler32 into RESULT
(46_commands.md R264). -/
def execZlibCompress (s : State) : Host.Outcome State Fault Refusal :=
  complete Config.chip .zlibCompress (runZlibCompress Config.chip s) s

/-- run WRITE_CHUNK (46_commands.md R267). -/
def runWriteChunk (s : State) : Run :=
  match firstFailure (chunkChecks s.cfg) with
  | some code => failedRun code
  | none =>
    let t := chunkTypeBytes s.cfg
    let d := sourceBytes s.cfg s.mem
    fittingRun s.cfg (chunk t d) (crc32 (t ++ d)) { Work.fresh with crc := crcRegister (t ++ d) }

/-- WRITE_CHUNK: the source byte range framed as one chunk to the destination, its CRC into RESULT
(46_commands.md R267). -/
def execWriteChunk (s : State) : Host.Outcome State Fault Refusal :=
  complete Config.chip .writeChunk (runWriteChunk s) s

end Sys2Proof.Machine
end

