-- ==== Sys2Proof/Machine/ImageCommands.lean ====
section
/-! DEFINITION. The meanings of ENCODE_PNG and FILTER_IMAGE (46_commands.md R262, R263). -/

namespace Sys2Proof.Machine

/-- The filter bank after the whole raster, and the plane (42_filter_bank.md R153). -/
def filterRaster (c : Cfg) (f : PixelFormat) (mode : FilterMode) (m : Memory) : FilterBank × List Byte :=
  filterBankRows f.channels mode Work.fresh.filter (effectiveRows c f m)

/-- run FILTER_IMAGE (46_commands.md R263). MODE is checked with the other registers, so the last arm's error is
PARAM as well (60_exceptions.md R302). -/
def runFilterImage (s : State) : Run :=
  match pixelFormat s.cfg.format with
  | none => failedRun .format
  | some f =>
    match firstFailure (filterChecks s.cfg f) with
    | some code => failedRun code
    | none =>
      match filterMode s.cfg.filter with
      | some mode =>
        let r := filterRaster s.cfg f mode s.mem
        ⟨.ok r.2 (adler32 r.2),
         { Work.fresh with filter := r.1, adler := adlerSums r.2, bits := ⟨0, 0, r.2.length⟩ }⟩
      | none => failedRun .param

/-- FILTER_IMAGE: the filtered plane of the raster to the destination, its Adler32 into RESULT (46_commands.md R263). -/
def execFilterImage (s : State) : Host.Outcome State Fault Refusal :=
  complete Config.chip .filterImage (runFilterImage s) s

/-- run ENCODE_PNG (46_commands.md R262): FILTER, then MATCH, then SERIALIZE (10_state.md R33). -/
def runEncodePng (p : Params) (s : State) : Run :=
  match pixelFormat s.cfg.format with
  | none => failedRun .format
  | some f =>
    match firstFailure (encodeChecks p s.cfg f) with
    | some code => failedRun code
    | none =>
      match filterMode s.cfg.filter with
      | some mode =>
        let r := filterRaster s.cfg f mode s.mem
        let q := effectiveQuality s.cfg.quality
        fittingRun s.cfg (pngStream p s.cfg.width s.cfg.height f r.2 q) (adler32 r.2)
          { compressorWork p r.2 q with
            stage := some .serializing, filter := r.1, crc := crcRegister typeIend }
      | none => failedRun .param

/-- ENCODE_PNG: the PNG stream of the raster to the destination, the Adler32 of its filtered plane into RESULT
(46_commands.md R262). -/
def execEncodePng (s : State) : Host.Outcome State Fault Refusal :=
  complete Config.chip .encodePng (runEncodePng Config.chip s) s

end Sys2Proof.Machine
end

