-- ==== Sys2Proof/Machine/Dispatch.lean ====
section
/-! DEFINITION. One arm per command: the engine's completion of it (46_commands.md R260). -/

namespace Sys2Proof.Machine

def exec (i : Instr) (s : State) : Host.Outcome State Fault Refusal :=
  match i with
  | .nop => Sys2Proof.Machine.execNop s
  | .encodePng => Sys2Proof.Machine.execEncodePng s
  | .filterImage => Sys2Proof.Machine.execFilterImage s
  | .zlibCompress => Sys2Proof.Machine.execZlibCompress s
  | .crc32 => Sys2Proof.Machine.execCrc32 s
  | .adler32 => Sys2Proof.Machine.execAdler32 s
  | .writeChunk => Sys2Proof.Machine.execWriteChunk s
  | .reserved rsv opcode => Sys2Proof.Machine.execReserved rsv opcode s

end Sys2Proof.Machine
end

