-- ==== Sys2Proof/WellFormed.lean ====
section
/-! DEFINITION. Which terms of `Instr` stand for a command word. -/

namespace Sys2Proof

/-- A reserved word is one no other row of the opcode table matches: RSV ≠ 0, or OPCODE ≥ 0x07
(30_encoding.md R93). Every other constructor stands for exactly one word. -/
def Instr.wellFormed (i : Instr) : Bool :=
  match i with
  | .nop => true
  | .encodePng => true
  | .filterImage => true
  | .zlibCompress => true
  | .crc32 => true
  | .adler32 => true
  | .writeChunk => true
  | .reserved rsv opcode => decide (rsv ≠ 0 ∨ 7 ≤ opcode.toNat)

end Sys2Proof
end

