-- ==== Sys2Proof/Decode.lean ====
section
/-! DEFINITION. The command decoder and its encoder (30_encoding.md R90 to R94). -/

namespace Sys2Proof

/-- OPCODE, bits [7:0] of a command word (30_encoding.md R90). -/
def opcodeField (w : Word) : BitVec 8 := w.extractLsb' 0 8

/-- RSV, bits [31:8] of a command word (30_encoding.md R90). -/
def rsvField (w : Word) : BitVec 24 := w.extractLsb' 8 24

/-- Decoding a command word, total over all 2^32 of them: the opcode map of 30_encoding.md R92 when RSV = 0,
and a reserved encoding otherwise (R93). -/
def decode (w : Word) : Instr :=
  if rsvField w = 0 then
    match (opcodeField w).toNat with
    | 0 => .nop
    | 1 => .encodePng
    | 2 => .filterImage
    | 3 => .zlibCompress
    | 4 => .crc32
    | 5 => .adler32
    | 6 => .writeChunk
    | _ => .reserved 0 (opcodeField w)
  else .reserved (rsvField w) (opcodeField w)

/-- The command word of a command (30_encoding.md R92: "the 32-bit value equal to the opcode"); a reserved word
gives back its two fields. -/
def encode (i : Instr) : Word :=
  match i with
  | .nop => 0x00000000
  | .encodePng => 0x00000001
  | .filterImage => 0x00000002
  | .zlibCompress => 0x00000003
  | .crc32 => 0x00000004
  | .adler32 => 0x00000005
  | .writeChunk => 0x00000006
  | .reserved rsv opcode => rsv ++ opcode

/-- Why a run of bits is no command word. -/
inductive DecodeReject where
  /-- More than the 32 bits every command word has (30_encoding.md R90: "there is no other length"). -/
  | longerThanOneWord (nbits : Nat)
  deriving DecidableEq, Repr

/-- The 32-bit word whose low `nbits` bits are those of `w` and whose other bits are 0. -/
def tableWord (nbits w : Nat) : Word := BitVec.ofNat 32 (w % 2 ^ nbits)

/-- Decoding a run of `nbits` bits of value `w`. A command word is delivered by one 32-bit register write
(30_encoding.md R90), so a longer run is rejected by name and a shorter one has its upper bits 0 (log 26). -/
def decodeBits (nbits w : Nat) : Except DecodeReject Instr :=
  if nbits ≤ 32 then .ok (decode (tableWord nbits w)) else .error (.longerThanOneWord nbits)

/-- What the decoder reads from an opcode-table word of `nbits` bits. -/
def decodeTableWord (nbits w : Nat) : Option Instr :=
  match decodeBits nbits w with
  | .ok i => some i
  | .error _ => none

end Sys2Proof
end

