-- ==== Sys2Proof/Machine/HostSide.lean ====
section
/-! DEFINITION. The host's steps: its register accesses, its own memory accesses, WAIT, the platform's cache maintenance
and the reset signal (00_scope.md R17, 10_state.md R20 to R31, 20_memory.md R71 to R75, 30_encoding.md R95,
70_reset_and_hazards.md R330). -/

namespace Sys2Proof.Machine

/-- The register a host access reaches, or why it has no meaning: it must be 32 bits wide, at an offset from REG_BASE
that is a multiple of 4 inside 0x00..0x3C (20_memory.md R71), and outside reset (70_reset_and_hazards.md R330). -/
def accessedReg (p : Params) (s : State) (addr bytes : Nat) : Except Refusal Reg :=
  if s.inReset then .error .accessDuringReset
  else if bytes = 4 ∧ p.regBase ≤ addr then
    match Reg.atOffset (addr - p.regBase) with
    | some r => .ok r
    | none => .error .accessNotAdmitted
  else .error .accessNotAdmitted

/-- The host changes the byte at `a` as the memory port sees it: while a command is busy, a byte it reads or a byte of its
destination region is a broken duty, and is recorded (20_memory.md R75). -/
def noteTouched (p : Params) (a : Word) (s : State) : State :=
  if s.status.busy then
    let i := decode s.cmdWord
    { s with duty :=
      ⟨s.duty.srcWritten || spansHold (readSpans p i s.cfg) a,
       if spansHold (writeRegion i s.cfg).toList a && !s.duty.dstWritten.contains a then a :: s.duty.dstWritten
       else s.duty.dstWritten⟩ }
  else s

/-- A store of the host's own. Where host caches are not coherent with the memory port it may not have reached the port
until the platform's maintenance (20_memory.md R73; log 13). DESIGN CHOICE, log 13: it does not end the staleness of the
byte. -/
def hostStore (p : Params) (a : Word) (b : Byte) (s : State) : State :=
  let s' := noteTouched p a { s with mem := s.mem.write a b }
  if p.coherent || s'.platform.unflushed.contains a then s'
  else { s' with platform := { s'.platform with unflushed := a :: s'.platform.unflushed } }

/-- Whether a host load of the byte at `a` returns any value: it lies in the destination region of a busy command
(20_memory.md R75), or the host may hold a stale copy of it (20_memory.md R74; log 13). DESIGN CHOICE, log 13: a stale byte
loads as any value until the platform's maintenance, even after the host has stored to it, since host accesses among
themselves are the host's own affair (20_memory.md R77). -/
def loadIsFree (p : Params) (a : Word) (s : State) : Bool :=
  (s.status.busy && spansHold (writeRegion (decode s.cmdWord) s.cfg).toList a)
    || (!p.coherent && spansHold s.platform.stale a)

/-- A load of the host's own: the byte goes to `rdata` (log 17). -/
def hostLoad (p : Params) (a : Word) (s : State) : State :=
  if loadIsFree p a s then
    { s with rdata := (Config.freeByte s.draws 0).zeroExtend 32, draws := s.draws + 1 }
  else { s with rdata := (s.mem.read a).zeroExtend 32 }

/-- The platform's cache maintenance: earlier stores reach the port, stale copies are discarded (20_memory.md R73, R74;
log 13). A store that reaches the port while a command is busy touches memory then. -/
def maintain (p : Params) (s : State) : State :=
  let s' := s.platform.unflushed.foldl (fun t a => noteTouched p a t) s
  { s' with platform := { s'.platform with unflushed := [], stale := [] } }

/-! ### Host variables (30_encoding.md R95; log 27) -/

/-- What a host variable holds; one that no read has assigned holds any value. -/
def varGet (vs : Vars) (name : String) : Word :=
  match vs with
  | [] => Config.unsetVar name
  | (n, v) :: rest => if n = name then v else varGet rest name

/-- A host variable assigned: each name is listed once. -/
def varSet (vs : Vars) (name : String) (v : Word) : Vars :=
  match vs with
  | [] => [(name, v)]
  | (n, u) :: rest => if n = name then (name, v) :: rest else (n, u) :: varSet rest name v

/-- The value a `WR` writes. -/
def hostValue (x : HostValue) (vs : Vars) : Word :=
  match x with
  | .word v => v
  | .var name => varGet vs name

/-- A value read by the host into a variable. -/
def readInto (name : String) (v : Word) (s : State) : State := { s with rdata := v, vars := varSet s.vars name v }

/-- One host access. `s` is the state with the access already taken from the host's program; WAIT stays there while
BUSY = 1 (30_encoding.md R95; log 23). -/
def hostStep (p : Params) (op : HostOp) (s : State) : Host.Outcome State Fault Refusal :=
  match op with
  | .regWrite addr bytes x =>
    match accessedReg p s addr bytes with
    | .ok r => .next (writeReg p r (hostValue x s.vars) s)
    | .error e => .refused e
  | .regRead addr bytes name =>
    match accessedReg p s addr bytes with
    | .ok r => .next (readInto name (readReg r s) s)
    | .error e => .refused e
  | .wait =>
    if s.inReset then .refused .accessDuringReset
    else
      let t := readInto "s" (readReg .status s) s
      .next { t with host := if s.status.busy then .wait :: s.host else s.host }
  | .memWrite a b => if spansHold s.platform.unserved a then .refused .notOrdinaryMemory else .next (hostStore p a b s)
  | .memRead a => if spansHold s.platform.unserved a then .refused .notOrdinaryMemory else .next (hostLoad p a s)
  | .maintain => .next (maintain p s)
  | .assertReset =>
    if s.inReset then .next s else .next (assertReset p (writeRegion (decode s.cmdWord) s.cfg) s)
  | .releaseReset => if s.inReset then .next (releaseReset s) else .next s

/-- The host's turn: its next access, or nothing while its program is empty (the CORE then waits, 60_exceptions.md R317). -/
def hostTurn (p : Params) (s : State) : Host.Outcome State Fault Refusal :=
  match s.host with
  | [] => .next s
  | op :: rest => hostStep p op { s with host := rest }

/-- Whether the engine is due: a command is busy, its LATENCY has passed, and reset is not asserted (log 2, log 14). -/
def State.engineDue (s : State) : Bool := s.status.busy && s.wait == 0 && !s.inReset

/-- Time passes for a busy command: one step of its LATENCY (log 2). -/
def tick (s : State) : State := { s with wait := s.wait - 1 }

/-! ### The statements of 30_encoding.md R95 as host accesses -/

/-- The address of a register on the host's bus. -/
def regAddress (p : Params) (r : Reg) : Nat := p.regBase + r.offset

/-- `WR <REG>, <value>`. -/
def stmtWr (p : Params) (r : Reg) (x : HostValue) : HostOp := .regWrite (regAddress p r) 4 x

/-- `RD <REG> -> <name>`. -/
def stmtRd (p : Params) (r : Reg) (name : String) : HostOp := .regRead (regAddress p r) 4 name

/-- `CMDW <value>`. -/
def stmtCmdw (p : Params) (w : Word) : HostOp := stmtWr p .cmd (.word w)

/-- `<MNEMONIC>`. -/
def stmtCommand (p : Params) (i : Instr) : HostOp := stmtCmdw p (encode i)

/-- `CLR`. -/
def stmtClr (p : Params) : HostOp := stmtWr p .status (.word 0x0000000E)

/-- `WAIT`. -/
def stmtWait : HostOp := .wait

/-- `MEM <addr>: <b0> <b1> ...`, which is no instruction: the initial bytes of memory a program starts from. -/
def stmtMem (a : Word) (bs : List Byte) (s : State) : State := { s with mem := s.mem.writeBytes a bs }

end Sys2Proof.Machine
end

