-- ==== Sys2Proof/Machine/Step.lean ====
section
/-! DEFINITION. One step of the whole: the engine's completion when it is due, the host's turn otherwise. -/

namespace Sys2Proof.Machine

/-- One step (00_scope.md R17; log 1, log 2). -/
def step (s : State) : Host.Outcome State Fault Refusal :=
  if s.engineDue then exec (decode s.cmdWord) s else hostTurn Config.chip (tick s)

/-- The command word of `nbits` bits accepted with no LATENCY left, so that the next step completes it: the CORE fetches
no instruction (10_state.md R33), a command is the value written to CMD (30_encoding.md R90; log 3). -/
def State.withFetchWord (s : State) (nbits w : Nat) : State :=
  { s with
    cmdWord := tableWord nbits w
    status := s.status.accepted
    wait := 0
    inReset := false }

end Sys2Proof.Machine
end

