-- ==== Sys2Proof/Safety.lean ====
section
/-! DEFINITION. What counts as a safe state and a safe completion, and the reference forms the claims compare the machine
with: bit streams, checksums in closed form, the inverse of the filter bank and of the match finder, and the order of
the errors. None of them is used by the machine. -/

namespace Sys2Proof.Machine

/-! ### Safe states -/

/-- The invariant of STATUS (10_state.md R22): BUSY = 1 implies DONE = 0, ERR = 0 if and only if ERRCODE = 0; ERRCODE is
one of the codes of 60_exceptions.md R300; an accepted command has no error yet (46_commands.md R260). -/
structure Status.Inv (st : Status) : Prop where
  busyNotDone : st.busy = true → st.done = false
  busyNoError : st.busy = true → st.err = false
  errIffCode : st.err = false ↔ st.errCode = 0
  codeKnown : st.errCode.toNat ≤ 5

/-- The invariant of the state, which every step keeps. -/
structure State.Inv (s : State) : Prop where
  /-- Memory is in canonical form (20_memory.md R60). -/
  memWf : s.mem.wf = true
  /-- STATUS is one of the values 10_state.md R22 allows. -/
  status : s.status.Inv
  /-- No command is busy while reset is asserted (70_reset_and_hazards.md R330). -/
  resetIdle : s.inReset = true → s.status.busy = false
  /-- An idle engine has no command pending and no duty record (10_state.md R34). -/
  idleClear : s.status.busy = false → s.wait = 0 ∧ s.duty = Duty.kept
  /-- What the host is recorded to have written lies in the destination region of the busy command (20_memory.md R75). -/
  touchedInside : ∀ a ∈ s.duty.dstWritten, spansHold (writeRegion (decode s.cmdWord) s.cfg).toList a = true
  /-- Where host caches are coherent with the memory port there is nothing to flush and nothing stale (20_memory.md R79). -/
  coherentClear : Config.chip.coherent = true → s.platform.unflushed = [] ∧ s.platform.stale = []

/-! ### Safe completions -/

/-- The run of a command: what the engine computes at its completion (46_commands.md R260). -/
def runOf (p : Params) (i : Instr) (s : State) : Run :=
  match i with
  | .nop => runNop
  | .encodePng => runEncodePng p s
  | .filterImage => runFilterImage s
  | .zlibCompress => runZlibCompress p s
  | .crc32 => runCrc32 s
  | .adler32 => runAdler32 s
  | .writeChunk => runWriteChunk s
  | .reserved _ _ => runReserved

/-- The duties under which a command's results are the function of memory that its rule gives: every address it touches is
ordinary memory (20_memory.md R65), the host disturbed no byte it reads (R73, R75) and none of its destination (R75),
no store of the host's own to a byte it writes is still on its way (R73; log 13), and source and destination do not
overlap (R76). -/
structure DutiesKept (p : Params) (i : Instr) (o : RunOutcome) (s : State) : Prop where
  served : touchesUnserved p i o s = false
  undisturbed : sourceDisturbed p i s = false
  untouched : s.duty.dstWritten = []
  flushed : ∀ a ∈ s.platform.unflushed, spansHold (writtenSpans i s.cfg o) a = false
  disjoint : sourceOverlaps p i s = false

/-- What no completion changes: the configuration registers, the command latch, IGN, the host's side and the reset
signal; and what every completion leaves: BUSY 0, DONE 1, nothing pending, no duty record (10_state.md R41). The clauses on
`host`, `rdata`, `vars`, `wait`, `duty` and the platform speak of fields of the model's own (logs 1, 2, 9, 12, 13, 17,
27). -/
structure CompletionFrame (s t : State) : Prop where
  cfg : t.cfg = s.cfg
  cmdWord : t.cmdWord = s.cmdWord
  ign : t.status.ign = s.status.ign
  idle : t.status.busy = false
  done : t.status.done = true
  host : t.host = s.host
  rdata : t.rdata = s.rdata
  vars : t.vars = s.vars
  inReset : t.inReset = s.inReset
  wait : t.wait = 0
  duty : t.duty = Duty.kept
  unserved : t.platform.unserved = s.platform.unserved
  unflushed : t.platform.unflushed = s.platform.unflushed

/-- Every byte of memory reads as before. -/
def SameMemory (s t : State) : Prop := ∀ a, t.mem.read a = s.mem.read a

/-- Every byte outside the `n` bytes from `base` on reads as before. -/
def SameMemoryOutside (base : Word) (n : Nat) (s t : State) : Prop :=
  ∀ a, n ≤ (a - base).toNat → t.mem.read a = s.mem.read a

/-- `t` is `s` after the success completion of a command with output `out` and result `res` (46_commands.md R260,
20_memory.md R66, R67): the flags, RESULT, OUT_LEN, the output bytes at DST_BASE, and nothing else; no byte past them gets
stale (log 13). -/
structure SuccessFrom (s t : State) (out : List Byte) (res : Word) : Prop where
  frame : CompletionFrame s t
  err : t.status.err = false
  errCode : t.status.errCode = 0
  result : t.result = res
  outLen : t.outLen = BitVec.ofNat 32 out.length
  output : t.mem.readBytes s.cfg.dstBase out.length = out
  outside : SameMemoryOutside s.cfg.dstBase out.length s t
  stale : ∀ a, out.length ≤ (a - s.cfg.dstBase).toNat → spansHold t.platform.stale a = spansHold s.platform.stale a

/-- `t` is `s` after the error completion of a command with the code `code` (60_exceptions.md R301, R303): the flags,
RESULT 0, OUT_LEN 0, memory as before, or for OVERFLOW as before outside the destination region; but for OVERFLOW no byte
gets stale (log 13). -/
structure ErrorFrom (s t : State) (code : ErrCode) : Prop where
  frame : CompletionFrame s t
  err : t.status.err = true
  errCode : t.status.errCode = code.code
  result : t.result = 0
  outLen : t.outLen = 0
  memory : code ≠ .overflow → SameMemory s t
  platform : code ≠ .overflow → t.platform = s.platform
  outside : SameMemoryOutside s.cfg.dstBase s.cfg.dstCap.toNat s t

/-! ### Checksums -/

/-- The byte table T of 41_checksums.md R123. -/
def crcTable (x : Byte) : Word := crcStep 0 x

/-- CRC32 by the byte table (41_checksums.md R122, R123). -/
def crc32ByTable (d : List Byte) : Word :=
  d.foldl (fun (cr : Word) (b : Byte) => (cr >>> 8) ^^^ crcTable ((cr ^^^ b.zeroExtend 32).setWidth 8)) 0xFFFFFFFF ^^^ 0xFFFFFFFF

/-- Adler32 with the reduction after every byte (41_checksums.md R126). -/
def adlerPerByte (d : List Byte) : Sums :=
  d.foldl (fun a b => ⟨(a.s1 + b.toNat) % 65521, (a.s2 + (a.s1 + b.toNat) % 65521) % 65521⟩) ⟨1, 0⟩

/-- Σ_k s[k]. -/
def byteSum (d : List Byte) : Nat := (d.map BitVec.toNat).sum

/-- Σ_k (N − k) · s[k]. -/
def weightedSum (d : List Byte) : Nat :=
  match d with
  | [] => 0
  | b :: rest => (rest.length + 1) * b.toNat + weightedSum rest

/-- Adler32 in closed form (41_checksums.md R126). -/
def adlerClosed (d : List Byte) : Word :=
  BitVec.ofNat 32 ((d.length + weightedSum d) % 65521 * 65536 + (1 + byteSum d) % 65521)

/-! ### Bit streams (00_scope.md R13) -/

/-- The value of bits, least significant first. -/
def bitsValue (bits : List Bool) : Nat :=
  match bits with
  | [] => 0
  | b :: rest => (if b then 1 else 0) + 2 * bitsValue rest

/-- A stream packed into bytes, the first bit of each byte its bit 0, the last byte filled up with zero bits
(00_scope.md R13, 44_huffman_bitwriter.md R212). -/
def packBits (bits : List Bool) : List Byte :=
  match bits with
  | [] => []
  | b0 :: b1 :: b2 :: b3 :: b4 :: b5 :: b6 :: b7 :: rest =>
    BitVec.ofNat 8 (bitsValue [b0, b1, b2, b3, b4, b5, b6, b7]) :: packBits rest
  | rest => [BitVec.ofNat 8 (bitsValue rest)]

/-- The stream bytes stand for. -/
def bytesBits (d : List Byte) : List Bool := d.flatMap fun b => lowBits b.toNat 8

/-- The stream a sequence of puts appends (44_huffman_bitwriter.md R210). -/
def streamBits (us : List Put) : List Bool := us.flatMap fun u => lowBits u.value u.width

/-- A put the bit writer admits: 0 ≤ v < 2^n, 1 ≤ n ≤ 13 (44_huffman_bitwriter.md R211). -/
def Put.Admitted (u : Put) : Prop := u.value < 2 ^ u.width ∧ 1 ≤ u.width ∧ u.width ≤ 13

/-- The `n` bits of a code, most significant first (44_huffman_bitwriter.md R214, R219). -/
def codeBits (c n : Nat) : List Bool := (lowBits c n).reverse

/-- The bits of a symbol, codes most significant bit first, extra bits least significant bit first
(44_huffman_bitwriter.md R218, R219). -/
def symbolBits (s : Symbol) : List Bool :=
  match s with
  | .lit b => codeBits (litLenCode b.toNat).1 (litLenCode b.toNat).2
  | .copy len dist =>
    codeBits (litLenCode (257 + (lengthCode len).index)).1 (litLenCode (257 + (lengthCode len).index)).2
      ++ lowBits (lengthCode len).extra (lengthCode len).extraBits
      ++ codeBits (distanceCode dist).index 5
      ++ lowBits (distanceCode dist).extra (distanceCode dist).extraBits
  | .eob => codeBits 0 7

/-- A symbol of 43_lz77_match_finder.md R171. -/
def Symbol.Admitted (s : Symbol) : Prop :=
  match s with
  | .lit _ => True
  | .copy len dist => 3 ≤ len ∧ len ≤ 258 ∧ 1 ≤ dist ∧ dist ≤ 32768
  | .eob => True

/-- The DEFLATE block of a symbol sequence as a packed stream: 1, 1, 0, the symbols, zero bits to the byte boundary
(44_huffman_bitwriter.md R212, R213, R220). -/
def blockByBits (syms : List Symbol) : List Byte := packBits ([true, true, false] ++ syms.flatMap symbolBits)

/-- The zlib stream as a packed stream with its checksum in closed form (44_huffman_bitwriter.md R224). -/
def zlibByBits (p : Params) (d : List Byte) (q : Nat) : List Byte :=
  [0x78, 0x5E] ++ blockByBits (lz77 p d q).2 ++ be32 (adlerClosed d)

/-- A chunk with its CRC by the byte table (45_png_framer.md R241). -/
def chunkByTable (type payload : List Byte) : List Byte :=
  be32 (BitVec.ofNat 32 payload.length) ++ type ++ payload ++ be32 (crc32ByTable (type ++ payload))

/-- The PNG stream of a filtered plane from the reference forms (45_png_framer.md R242 to R247). -/
def pngByParts (p : Params) (c : Cfg) (f : PixelFormat) (plane : List Byte) : List Byte :=
  [0x89, 0x50, 0x4E, 0x47, 0x0D, 0x0A, 0x1A, 0x0A]
    ++ chunkByTable [0x49, 0x48, 0x44, 0x52]
        (be32 c.width ++ be32 c.height ++ [8, if f = .gray8 then 0 else if f = .bgra32 then 6 else 2, 0, 0, 0])
    ++ chunkByTable [0x49, 0x44, 0x41, 0x54] (zlibByBits p plane (max c.quality.toNat 5))
    ++ chunkByTable [0x49, 0x45, 0x4E, 0x44] []

/-! ### The inverse of the match finder (43_lz77_match_finder.md R189) -/

/-- `n` bytes appended one at a time, each the byte `dist` positions back. -/
def copyBack (dist n : Nat) (out : List Byte) : List Byte :=
  match n with
  | 0 => out
  | n + 1 => copyBack dist n (out ++ [out.getD (out.length - dist) 0])

/-- The bytes a symbol sequence reconstructs after `out`. -/
def expand (out : List Byte) (syms : List Symbol) : List Byte :=
  match syms with
  | [] => out
  | .lit b :: rest => expand (out ++ [b]) rest
  | .copy len dist :: rest => expand (copyBack dist len out) rest
  | .eob :: rest => expand out rest

/-- The input bytes a symbol stands for. -/
def Symbol.size (s : Symbol) : Nat :=
  match s with
  | .lit _ => 1
  | .copy len _ => len
  | .eob => 0

/-- The invariants of the bucket store while the finder is at `fd` (43_lz77_match_finder.md R180, R181): the entries of
a bucket rise, hash to it, lie before the position, and are at most 2q. -/
structure BucketsOk (p : Params) (d : List Byte) (q : Nat) (fd : Finder) : Prop where
  rising : ∀ k, (bucketGet fd.buckets k).Pairwise (· < ·)
  hashed : ∀ k, ∀ e ∈ bucketGet fd.buckets k, hashAt p d e = k
  earlier : ∀ k, ∀ e ∈ bucketGet fd.buckets k, e < fd.pos
  bounded : ∀ k, (bucketGet fd.buckets k).length ≤ 2 * q

/-- No bucket ever reaches 2q entries while `d` is compressed (43_lz77_match_finder.md R190). -/
def NeverFull (p : Params) (d : List Byte) (q : Nat) : Prop :=
  ∀ n k, (bucketGet (findLoop p d q n Work.fresh.finder).1.buckets k).length < 2 * q

/-! ### The inverse of the filter bank (42_filter_bank.md R155) -/

/-- The filter a tag byte names. -/
def filterOfTag (t : Byte) : FilterType :=
  if t = 1 then .sub else if t = 2 then .up else if t = 3 then .average else if t = 4 then .paeth else .none

/-- The unfiltered bytes of a row, `out` those to the left: each filtered byte plus the predictor of the bytes already
there. -/
def unfilterFrom (t : FilterType) (n : Nat) (prev : Option (List Byte)) (out filtered : List Byte) : List Byte :=
  match filtered with
  | [] => out
  | x :: rest =>
    unfilterFrom t n prev
      (out ++ [x + predictor t (leftOf n out out.length) (upOf prev out.length) (upperLeftOf n prev out.length)]) rest

/-- The rows a plane of `h` rows of `len` bytes stands for, the row before the first taken as absent. -/
def unfilterPlane (n len h : Nat) (prev : Option (List Byte)) (plane : List Byte) : List (List Byte) :=
  match h with
  | 0 => []
  | h + 1 =>
    match plane with
    | [] => []
    | tag :: rest =>
      let row := unfilterFrom (filterOfTag tag) n prev [] (rest.take len)
      row :: unfilterPlane n len h (some row) (rest.drop len)

/-! ### The order of the errors (60_exceptions.md R300, R302) -/

/-- Whether a raster command's W or H is out of range (60_exceptions.md R300). -/
abbrev badDimensions (c : Cfg) : Prop :=
  c.width = 0 ∨ 2 ^ 31 - 1 < c.width.toNat ∨ c.height = 0 ∨ 2 ^ 31 - 1 < c.height.toNat

/-- Whether FILTER.MODE is none of 0, 1, 2, 3, 4, 8 (60_exceptions.md R300). -/
abbrev badMode (c : Cfg) : Prop := ¬(c.filter.toNat ≤ 4 ∨ c.filter.toNat = 8)

/-- n of a FORMAT code, for the codes that name a format (10_state.md R24). -/
def channelCount (fmt : BitVec 8) : Nat := if fmt = 0 then 1 else if fmt = 2 then 4 else 3

/-- The FORMAT codes and the formats they name (10_state.md R24). -/
def formatCodes : List (BitVec 8 × PixelFormat) := [(0, .gray8), (1, .bgr24), (2, .bgra32), (3, .rgb24)]

/-- The MODE values and what they select (10_state.md R25; the filter of an index, 42_filter_bank.md R143 to R148). -/
def modeCodes : List (BitVec 4 × FilterMode) :=
  [(0, .forced .none), (1, .forced .sub), (2, .forced .up), (3, .forced .average), (4, .forced .paeth), (8, .adaptive)]

/-- L for the registers (46_commands.md R262). -/
def planeSize (c : Cfg) : Nat := c.height.toNat * (c.width.toNat * channelCount c.format + 1)

/-- The plane of the raster the registers describe, in the mode they select (42_filter_bank.md R154). -/
def rasterPlane (c : Cfg) (f : PixelFormat) (mode : FilterMode) (m : Memory) : List Byte :=
  filteredPlane f.channels mode (effectiveRows c f m)

end Sys2Proof.Machine
end

