-- ==== Sys2Proof/Certificates/Slice0/Obligations.lean ====
section
/-! DEFINITION. The statements about the CORE, for the provers. Each names the rule of spec/ it formalises. -/

open Sys2Proof Sys2Proof.Machine

/-! ### Encoding -/

/-- Decoding the word of a well-formed command gives the command back, with every reserved word's two fields
(30_encoding.md R92, R93). -/
def Obligations.EncodedCommandDecodesBack : Prop :=
  ∀ i : Instr, i.wellFormed = true → decode (encode i) = i

/-- Every one of the 2^32 words decodes to a well-formed command whose word it is: decoding is total, drops no bit, and no
two words share a meaning (30_encoding.md R93). -/
def Obligations.EveryWordIsOneCommand : Prop :=
  ∀ w : Word, (decode w).wellFormed = true ∧ encode (decode w) = w

/-- The opcode map: a word selects a command only if it equals the command's opcode, and every other word is reserved
(30_encoding.md R92, R93). -/
def Obligations.OpcodeMapSelectsCommand : Prop :=
  ∀ w : Word,
    (decode w = .nop ↔ w = 0x00000000) ∧ (decode w = .encodePng ↔ w = 0x00000001) ∧
    (decode w = .filterImage ↔ w = 0x00000002) ∧ (decode w = .zlibCompress ↔ w = 0x00000003) ∧
    (decode w = .crc32 ↔ w = 0x00000004) ∧ (decode w = .adler32 ↔ w = 0x00000005) ∧
    (decode w = .writeChunk ↔ w = 0x00000006) ∧
    ((∃ r o, decode w = .reserved r o) ↔ 7 ≤ w.toNat)

/-- A few words of the opcode table, and the four reserved words V-CMD-4 names, decode to what they stand for. -/
def Obligations.TableWordsDecode : Prop :=
  decodeTableWord 32 0x00000000 = some .nop ∧ decodeTableWord 32 0x00000001 = some .encodePng ∧
  decodeTableWord 32 0x00000004 = some .crc32 ∧ decodeTableWord 32 0x00000006 = some .writeChunk ∧
  decodeTableWord 32 0x00000007 = some (.reserved 0x000000 0x07) ∧
  decodeTableWord 32 0x00000100 = some (.reserved 0x000001 0x00) ∧
  decodeTableWord 32 0x00000101 = some (.reserved 0x000001 0x01) ∧
  decodeTableWord 32 0xFFFFFFFF = some (.reserved 0xFFFFFF 0xFF)

/-! ### The step -/

/-- When the engine is due the step is the completion of the command that was accepted; otherwise it is the host's turn,
with one step of LATENCY gone (00_scope.md R17, 46_commands.md R260). -/
def Obligations.StepRunsAcceptedCommand : Prop :=
  ∀ s : State,
    (s.status.busy = true → s.wait = 0 → s.inReset = false → step s = exec (decode s.cmdWord) s) ∧
    ((s.status.busy = false ∨ 0 < s.wait ∨ s.inReset = true) →
      step s = hostTurn Config.chip { s with wait := s.wait - 1 })

/-- A command whose word is placed for the next step is the command that step completes. -/
def Obligations.PlacedWordIsCompleted : Prop :=
  ∀ (s : State) (i : Instr), i.wellFormed = true →
    step (s.withFetchWord 32 (encode i).toNat) = exec i (s.withFetchWord 32 (encode i).toNat)

/-! ### Reset -/

/-- What reset leaves in the registers, the mode and the interrupt (10_state.md R42). -/
def Obligations.ResetRegisterValues : Prop :=
  readReg .cmd State.reset = 0 ∧ readReg .status State.reset = 0 ∧
  readReg .width State.reset = 0 ∧ readReg .height State.reset = 0 ∧ readReg .format State.reset = 0 ∧
  readReg .srcBase State.reset = 0 ∧ readReg .srcStride State.reset = 0 ∧ readReg .srcLen State.reset = 0 ∧
  readReg .dstBase State.reset = 0 ∧ readReg .dstCap State.reset = 0 ∧
  readReg .quality State.reset = 8 ∧ readReg .filter State.reset = 8 ∧ readReg .flags State.reset = 0 ∧
  readReg .chunkType State.reset = 0 ∧ readReg .result State.reset = 0 ∧ readReg .outLen State.reset = 0 ∧
  State.reset.irq = false

/-- The end of reset, from any state with reset asserted and no command busy (one was abandoned when reset was asserted):
every register at its reset value, the engine idle and the interrupt low (70_reset_and_hazards.md R330). That no byte of
memory changes at this edge is the model's choice (log 14: the abandoned destination is drawn when reset is asserted; log
5: reset itself leaves memory); R330 says so of the source memory only. -/
def Obligations.ResetEndRestoresRegisters : Prop :=
  ∀ (s : State) (rest : List HostOp), s.inReset = true → s.status.busy = false → s.host = .releaseReset :: rest →
    ∃ t, step s = .next t ∧ t.inReset = false ∧ (∀ r, readReg r t = readReg r State.reset) ∧
      t.status.busy = false ∧ t.irq = false ∧ SameMemory s t ∧ t.host = rest

/-- Reset abandons a busy command: the engine is idle, DONE does not become 1, and memory outside the command's
destination region, the source among it, is as it was (70_reset_and_hazards.md R330; reset as two edges is the model's
choice, log 14). -/
def Obligations.ResetAbandonsBusyCommand : Prop :=
  ∀ (s : State) (rest : List HostOp), s.Inv → s.inReset = false → s.status.busy = true → 0 < s.wait →
    s.host = .assertReset :: rest →
    ∃ t, step s = .next t ∧ t.inReset = true ∧ t.status.busy = false ∧ t.status.done = false ∧
      (∀ a, spansHold (writeRegion (decode s.cmdWord) s.cfg).toList a = false → t.mem.read a = s.mem.read a) ∧
      t.host = rest

/-! ### The invariant -/

/-- The state after reset meets the invariant. -/
def Obligations.ResetMeetsInvariant : Prop := State.reset.Inv

/-- Every step, the engine's or the host's, keeps the invariant: memory stays canonical, STATUS stays one of the values
10_state.md R22 allows, reset keeps the engine idle, an idle engine has nothing pending. -/
def Obligations.StepKeepsInvariant : Prop :=
  ∀ s t : State, s.Inv → step s = .next t → t.Inv

/-! ### The register window -/

/-- While BUSY = 1 a host write to any register changes STATUS.IGN alone (10_state.md R30); of the model's own fields,
LATENCY counts down and the access leaves the host's list (logs 1, 2). -/
def Obligations.BusyRegisterWriteIgnored : Prop :=
  ∀ (s : State) (r : Reg) (x : HostValue) (rest : List HostOp),
    s.status.busy = true → 0 < s.wait → s.inReset = false →
    s.host = .regWrite (Config.chip.regBase + r.offset) 4 x :: rest →
    step s = .next { s with status := { s.status with ign := true }, wait := s.wait - 1, host := rest }

/-- While idle a write, of a number or of what an earlier read put into a host variable, reads back with its reserved
bits 0, and no other register changes; CMD, STATUS, RESULT and OUT_LEN are not configuration registers (10_state.md R23,
R24, R25, R26, R27, R28, R31; 30_encoding.md R95; the variables are fields of the model's own, log 27). -/
def Obligations.RegisterWriteReadsBack : Prop :=
  ∀ (s : State) (r : Reg) (x : HostValue) (rest : List HostOp),
    s.status.busy = false → s.inReset = false → r ≠ .cmd → r ≠ .status →
    s.host = .regWrite (Config.chip.regBase + r.offset) 4 x :: rest →
    let v := hostValue x s.vars
    ∃ t, step s = .next t ∧ t.status = s.status ∧ SameMemory s t ∧ t.host = rest ∧
      (∀ r', r' ≠ r → readReg r' t = readReg r' s) ∧
      readReg r t =
        (match r with
         | .format => v &&& 0x000000FF
         | .filter => v &&& 0x0000000F
         | .flags => v &&& 0x00000003
         | .result => s.result
         | .outLen => s.outLen
         | _ => v)

/-- STATUS reads its fields at their places and the reserved bits [7:4] and [31:12] as 0, and a write to it while idle
clears the flags of its 1 bits in [3:1], ERRCODE with ERR; a 0 leaves its flag, and BUSY does not change (10_state.md R22,
R31). -/
def Obligations.StatusFieldsAndClearing : Prop :=
  (∀ s : State,
    (readReg .status s).getLsbD 0 = s.status.busy ∧ (readReg .status s).getLsbD 1 = s.status.done ∧
    (readReg .status s).getLsbD 2 = s.status.err ∧ (readReg .status s).getLsbD 3 = s.status.ign ∧
    (readReg .status s).extractLsb' 4 4 = 0 ∧ (readReg .status s).extractLsb' 8 4 = s.status.errCode ∧
    (readReg .status s).extractLsb' 12 20 = 0) ∧
  ∀ (s : State) (x : HostValue) (rest : List HostOp),
    s.status.busy = false → s.inReset = false →
    s.host = .regWrite (Config.chip.regBase + 0x04) 4 x :: rest →
    let v := hostValue x s.vars
    ∃ t, step s = .next t ∧
      t.status.busy = false ∧
      t.status.done = (s.status.done && !v.getLsbD 1) ∧
      t.status.err = (s.status.err && !v.getLsbD 2) ∧
      t.status.errCode = (if v.getLsbD 2 then 0 else s.status.errCode) ∧
      t.status.ign = (s.status.ign && !v.getLsbD 3) ∧
      t.cfg = s.cfg ∧ t.result = s.result ∧ t.outLen = s.outLen ∧ SameMemory s t

/-- Reading a register, busy or not, is allowed, gives the whole register, and changes nothing else; the configuration
registers read the values the command is using, which a host write while busy could not change
(70_reset_and_hazards.md R344, 10_state.md R29). The value goes into the host variable the read names, and into no other
(30_encoding.md R95); of the model's own fields, `rdata` takes the value too, LATENCY counts down and the access leaves the
host's list (logs 1, 2, 17, 27). -/
def Obligations.RegisterReadHasNoSideEffect : Prop :=
  ∀ (s : State) (r : Reg) (name : String) (rest : List HostOp),
    s.engineDue = false → s.inReset = false →
    s.host = .regRead (Config.chip.regBase + r.offset) 4 name :: rest →
    let v := readReg r s
    let vs := varSet s.vars name v
    step s = .next { s with rdata := v, vars := vs, wait := s.wait - 1, host := rest } ∧
      hostValue (.var name) vs = v ∧
      ∀ other, other ≠ name → hostValue (.var other) vs = hostValue (.var other) s.vars

/-- A register access that is narrower, wider, misaligned or outside 0x00..0x3C is not admitted, and one of 32 bits at a
multiple of 4 inside it is (20_memory.md R71); that an access names a bus address and a width is the model's choice
(log 22). -/
def Obligations.OnlyAlignedWordAccessAdmitted : Prop :=
  ∀ (s : State) (addr bytes : Nat) (x : HostValue) (name : String) (rest : List HostOp),
    s.engineDue = false → s.inReset = false →
    let ok := bytes = 4 ∧ Config.chip.regBase ≤ addr ∧ (addr - Config.chip.regBase) % 4 = 0 ∧
      addr - Config.chip.regBase < 0x40
    (s.host = .regWrite addr bytes x :: rest →
      (ok → ∃ t, step s = .next t) ∧ (¬ok → step s = .refused .accessNotAdmitted)) ∧
    (s.host = .regRead addr bytes name :: rest →
      (ok → ∃ t, step s = .next t) ∧ (¬ok → step s = .refused .accessNotAdmitted))

/-- No register access is admitted while reset is asserted (70_reset_and_hazards.md R330). -/
def Obligations.NoRegisterAccessDuringReset : Prop :=
  ∀ (s : State) (addr bytes : Nat) (x : HostValue) (name : String) (rest : List HostOp), s.inReset = true →
    (s.host = .regWrite addr bytes x :: rest ∨ s.host = .regRead addr bytes name :: rest ∨ s.host = .wait :: rest) →
    step s = .refused .accessDuringReset

/-- The acceptance of a command: any word written to CMD while idle is latched, BUSY 1, DONE, ERR and ERRCODE 0, and IGN,
RESULT, OUT_LEN, the configuration registers and memory unchanged (46_commands.md R260). -/
def Obligations.CommandWriteIsAccepted : Prop :=
  ∀ (s : State) (x : HostValue) (rest : List HostOp),
    s.status.busy = false → s.inReset = false →
    s.host = .regWrite (Config.chip.regBase + 0x00) 4 x :: rest →
    ∃ t, step s = .next t ∧ t.cmdWord = hostValue x s.vars ∧ readReg .cmd t = 0 ∧
      t.status.busy = true ∧ t.status.done = false ∧ t.status.err = false ∧ t.status.errCode = 0 ∧
      t.status.ign = s.status.ign ∧ t.result = s.result ∧ t.outLen = s.outLen ∧ t.cfg = s.cfg ∧
      SameMemory s t ∧ t.duty = Duty.kept ∧ t.host = rest

/-- IDLE becomes BUSY only by a CMD write, and BUSY becomes IDLE only by a completion or by reset (10_state.md R34,
70_reset_and_hazards.md R330). -/
def Obligations.ModeChangesOnlyByCommandOrReset : Prop :=
  ∀ s t : State, step s = .next t →
    (s.status.busy = false → t.status.busy = true →
      ∃ x rest, s.host = .regWrite (Config.chip.regBase + 0x00) 4 x :: rest ∧ t.cmdWord = hostValue x s.vars) ∧
    (s.status.busy = true → t.status.busy = false →
      (s.engineDue = true ∧ t.status.done = true) ∨ (∃ rest, s.host = .assertReset :: rest) ∨ s.inReset = true)

/-- An error stays recorded, with its code, until the host writes 1 to STATUS.ERR, the next command is accepted, or reset
ends (60_exceptions.md R305). -/
def Obligations.ErrorStaysUntilCleared : Prop :=
  ∀ s t : State, s.status.busy = false → s.status.err = true → step s = .next t →
    (t.status.err = true ∧ t.status.errCode = s.status.errCode) ∨
    (∃ x rest, s.host = .regWrite (Config.chip.regBase + 0x04) 4 x :: rest ∧ (hostValue x s.vars).getLsbD 2 = true) ∨
    (∃ x rest, s.host = .regWrite (Config.chip.regBase + 0x00) 4 x :: rest) ∨
    (∃ rest, s.host = .releaseReset :: rest)

/-- IRQ: high after every completion with IRQ_EN = 1 and never with IRQ_EN = 0; raised at once by setting IRQ_EN while
DONE = 1; lowered by clearing DONE, by the next acceptance, and by IRQ_EN = 0, which leaves DONE (60_exceptions.md R310). -/
def Obligations.InterruptFollowsDoneAndEnable : Prop :=
  (∀ (i : Instr) (s t : State), exec i s = .next t → t.irq = s.cfg.irqEn) ∧
  (∀ (s : State) (x : HostValue) (rest : List HostOp), s.status.busy = false → s.inReset = false →
    s.host = .regWrite (Config.chip.regBase + 0x30) 4 x :: rest →
    ∃ t, step s = .next t ∧ t.irq = (s.status.done && (hostValue x s.vars).getLsbD 1) ∧ t.status.done = s.status.done) ∧
  (∀ (s : State) (x : HostValue) (rest : List HostOp), s.status.busy = false → s.inReset = false →
    (hostValue x s.vars).getLsbD 1 = true →
    s.host = .regWrite (Config.chip.regBase + 0x04) 4 x :: rest → ∃ t, step s = .next t ∧ t.irq = false) ∧
  (∀ (s : State) (x : HostValue) (rest : List HostOp), s.status.busy = false → s.inReset = false →
    s.host = .regWrite (Config.chip.regBase + 0x00) 4 x :: rest → ∃ t, step s = .next t ∧ t.irq = false)

/-! ### The commands -/

/-- NOP completes: the flags, and RESULT, OUT_LEN and every byte of memory unchanged (46_commands.md R261); the platform
record is the model's own (log 13). -/
def Obligations.NopCompletes : Prop :=
  ∀ s : State, DutiesKept Config.chip .nop .nothing s →
    ∃ t, exec .nop s = .next t ∧ CompletionFrame s t ∧ t.status.err = false ∧ t.status.errCode = 0 ∧
      t.result = s.result ∧ t.outLen = s.outLen ∧ SameMemory s t ∧ t.platform = s.platform

/-- Every word with OPCODE 0x07..0xFF or RSV ≠ 0 is reserved, and a reserved word completes with error OPCODE, RESULT 0,
OUT_LEN 0 and no other effect, whatever its bits (46_commands.md R268). -/
def Obligations.ReservedWordCompletesWithOpcodeError : Prop :=
  (∀ w : Word, 7 ≤ (w.extractLsb' 0 8).toNat ∨ w.extractLsb' 8 24 ≠ 0 →
    decode w = .reserved (w.extractLsb' 8 24) (w.extractLsb' 0 8)) ∧
  ∀ (rsv : BitVec 24) (op : BitVec 8) (s : State), DutiesKept Config.chip (.reserved rsv op) (.error .opcode) s →
    ∃ t, exec (.reserved rsv op) s = .next t ∧ ErrorFrom s t .opcode ∧ SameMemory s t

/-- The word 0x00000004 is CRC32, and CRC32 completes with the CRC of the source byte range in RESULT, computed by the byte table, OUT_LEN 0, and no byte of
memory written, for every SRC_LEN (46_commands.md R265; 41_checksums.md R122, R123). -/
def Obligations.Crc32CommandResult : Prop :=
  decode 0x00000004 = .crc32 ∧
  ∀ s : State, DutiesKept Config.chip .crc32 (.ok [] (crc32ByTable (sourceBytes s.cfg s.mem))) s →
    ∃ t, exec .crc32 s = .next t ∧ SuccessFrom s t [] (crc32ByTable (sourceBytes s.cfg s.mem)) ∧ SameMemory s t

/-- The word 0x00000005 is ADLER32, and ADLER32 completes with the checksum of the source byte range in RESULT, in closed form, OUT_LEN 0, and no byte of
memory written, for every SRC_LEN (46_commands.md R266; 41_checksums.md R126). -/
def Obligations.Adler32CommandResult : Prop :=
  decode 0x00000005 = .adler32 ∧
  ∀ s : State, DutiesKept Config.chip .adler32 (.ok [] (adlerClosed (sourceBytes s.cfg s.mem))) s →
    ∃ t, exec .adler32 s = .next t ∧ SuccessFrom s t [] (adlerClosed (sourceBytes s.cfg s.mem)) ∧ SameMemory s t

/-- WRITE_CHUNK completes with the framed chunk at DST_BASE and its CRC in RESULT, for every payload of at most 2^31 − 1
bytes that fits, and changes no other byte (46_commands.md R267, 45_png_framer.md R241). -/
def Obligations.WriteChunkFramesPayload : Prop :=
  ∀ s : State, s.mem.wf = true → s.cfg.srcLen.toNat ≤ 2 ^ 31 - 1 → s.cfg.srcLen.toNat + 12 ≤ s.cfg.dstCap.toNat →
    let d := sourceBytes s.cfg s.mem
    let crc := crc32ByTable (be32 s.cfg.chunkType ++ d)
    let out := be32 s.cfg.srcLen ++ be32 s.cfg.chunkType ++ d ++ be32 crc
    DutiesKept Config.chip .writeChunk (.ok out crc) s →
    ∃ t, exec .writeChunk s = .next t ∧ SuccessFrom s t out crc

/-- ZLIB_COMPRESS completes with the zlib stream at DST_BASE, its block given as a packed bit stream, and the Adler32 of
the input in RESULT, and changes no other byte (46_commands.md R264, 44_huffman_bitwriter.md R224). -/
def Obligations.ZlibCompressWritesStream : Prop :=
  ∀ s : State, s.mem.wf = true → s.cfg.quality.toNat ≤ Config.chip.qmax → s.cfg.srcLen.toNat ≤ Config.chip.fpCap →
    let d := sourceBytes s.cfg s.mem
    let out := zlibByBits Config.chip d (max s.cfg.quality.toNat 5)
    out.length ≤ s.cfg.dstCap.toNat → DutiesKept Config.chip .zlibCompress (.ok out (adlerClosed d)) s →
    ∃ t, exec .zlibCompress s = .next t ∧ SuccessFrom s t out (adlerClosed d)

/-- FILTER_IMAGE completes with the filtered plane of the raster at DST_BASE and its Adler32 in RESULT, for every size that
fits, every FORMAT code (0 Gray8, 1 Bgr24, 2 Bgra32, 3 Rgb24; 1, 3, 4, 3 bytes a pixel) and every MODE (0 to 4 the filters
None, Sub, Up, Average, Paeth, 8 adaptive), whatever QUALITY is, and changes no other byte (46_commands.md R263; 10_state.md
R24, R25). -/
def Obligations.FilterImageWritesPlane : Prop :=
  ∀ (s : State) (f : PixelFormat) (mode : FilterMode), s.mem.wf = true →
    (s.cfg.format, f) ∈ formatCodes → (s.cfg.filter, mode) ∈ modeCodes → ¬badDimensions s.cfg →
    planeSize s.cfg ≤ s.cfg.dstCap.toNat →
    let out := rasterPlane s.cfg f mode s.mem
    DutiesKept Config.chip .filterImage (.ok out (adlerClosed out)) s →
    ∃ t, exec .filterImage s = .next t ∧ SuccessFrom s t out (adlerClosed out) ∧ out.length = planeSize s.cfg

/-- ENCODE_PNG completes, for every FORMAT code of `formatCodes`, every MODE of `modeCodes` and every size: where the plane
fits FP_CAP (an OPEN parameter) with the PNG
stream at DST_BASE and the Adler32 of the plane in RESULT, and no other byte changed, and where it does not with error
CAPACITY (46_commands.md R262, 45_png_framer.md R247). -/
def Obligations.EncodePngWritesStream : Prop :=
  ∀ (s : State) (f : PixelFormat) (mode : FilterMode), s.mem.wf = true →
    (s.cfg.format, f) ∈ formatCodes → (s.cfg.filter, mode) ∈ modeCodes → ¬badDimensions s.cfg →
    s.cfg.quality.toNat ≤ Config.chip.qmax →
    let plane := rasterPlane s.cfg f mode s.mem
    let out := pngByParts Config.chip s.cfg f plane
    out.length ≤ s.cfg.dstCap.toNat →
    DutiesKept Config.chip .encodePng
      (if planeSize s.cfg ≤ Config.chip.fpCap then .ok out (adlerClosed plane) else .error .capacity) s →
    ∃ t, exec .encodePng s = .next t ∧
      if planeSize s.cfg ≤ Config.chip.fpCap then SuccessFrom s t out (adlerClosed plane) else ErrorFrom s t .capacity

/-- The same for every value of the OPEN parameters: whatever QMAX, FP_CAP and HASH3 are, a raster that fits is encoded, for
every FORMAT code of `formatCodes` and every MODE of `modeCodes` (00_scope.md R8, 46_commands.md R262). -/
def Obligations.EncodePngUnderAnyParameters : Prop :=
  ∀ (p : Params) (s : State) (f : PixelFormat) (mode : FilterMode), s.mem.wf = true →
    (s.cfg.format, f) ∈ formatCodes → (s.cfg.filter, mode) ∈ modeCodes → ¬badDimensions s.cfg →
    p.maxDist ≤ 32768 → s.cfg.quality.toNat ≤ p.qmax → planeSize s.cfg ≤ p.fpCap →
    let plane := rasterPlane s.cfg f mode s.mem
    let out := pngByParts p s.cfg f plane
    out.length ≤ s.cfg.dstCap.toNat → DutiesKept p .encodePng (.ok out (adlerClosed plane)) s →
    ∃ t, complete p .encodePng (runEncodePng p s) s = .next t ∧ SuccessFrom s t out (adlerClosed plane)

/-! ### Errors -/

/-- A command reports the code of the first check it fails, in the order OPCODE, FORMAT, PARAM, CAPACITY, OVERFLOW, each
command with the checks of its row, and completes with that error (60_exceptions.md R301, R302); which bytes such a command
counts as reading is the model's choice (log 10). -/
def Obligations.ErrorsFollowPriority : Prop :=
  ∀ (s : State) (i : Instr) (code : ErrCode), DutiesKept Config.chip i (.error code) s →
    (match i with
     | .nop => False
     | .crc32 => False
     | .adler32 => False
     | .reserved _ _ => code = .opcode
     | .encodePng =>
       if 3 < s.cfg.format.toNat then code = .format
       else if badDimensions s.cfg ∨ Config.chip.qmax < s.cfg.quality.toNat ∨ badMode s.cfg then code = .param
       else if Config.chip.fpCap < planeSize s.cfg then code = .capacity
       else code = .overflow ∧ ∃ f mode, (s.cfg.format, f) ∈ formatCodes ∧ (s.cfg.filter, mode) ∈ modeCodes ∧
         s.cfg.dstCap.toNat <
           57 + (zlib Config.chip (rasterPlane s.cfg f mode s.mem) (max s.cfg.quality.toNat 5)).length
     | .filterImage =>
       if 3 < s.cfg.format.toNat then code = .format
       else if badDimensions s.cfg ∨ badMode s.cfg then code = .param
       else code = .overflow ∧ s.cfg.dstCap.toNat < planeSize s.cfg
     | .zlibCompress =>
       if Config.chip.qmax < s.cfg.quality.toNat then code = .param
       else if Config.chip.fpCap < s.cfg.srcLen.toNat then code = .capacity
       else code = .overflow ∧
         s.cfg.dstCap.toNat < (zlib Config.chip (sourceBytes s.cfg s.mem) (max s.cfg.quality.toNat 5)).length
     | .writeChunk =>
       if 2 ^ 31 - 1 < s.cfg.srcLen.toNat then code = .param
       else code = .overflow ∧ s.cfg.dstCap.toNat < s.cfg.srcLen.toNat + 12) →
    ∃ t, exec i s = .next t ∧ ErrorFrom s t code

/-- The engine never writes a byte outside the destination region, whatever the host does with the source, the destination
and the platform; a command without a destination region, by the model's choice NOP, CRC32, ADLER32 and the reserved words
(log 11), writes no byte (20_memory.md R66). -/
def Obligations.EngineWritesOnlyDestination : Prop :=
  ∀ (i : Instr) (s t : State),
    (∀ a ∈ s.duty.dstWritten, spansHold (writeRegion i s.cfg).toList a = true) → exec i s = .next t →
    ∀ a, spansHold (writeRegion i s.cfg).toList a = false → t.mem.read a = s.mem.read a

/-- On a success completion the destination bytes past OUT_LEN are as they were, and OUT_LEN is at most DST_CAP; on an
error other than OVERFLOW no byte is written; on OVERFLOW OUT_LEN is 0 (20_memory.md R66, R67). -/
def Obligations.DestinationTailUnchanged : Prop :=
  ∀ (i : Instr) (s t : State), exec i s = .next t →
    DutiesKept Config.chip i (runOf Config.chip i s).outcome s → i ≠ .nop →
    (t.status.err = false → t.outLen.toNat ≤ s.cfg.dstCap.toNat ∧
      ∀ k : Nat, t.outLen.toNat ≤ k → k < s.cfg.dstCap.toNat →
        t.mem.read (s.cfg.dstBase + BitVec.ofNat 32 k) = s.mem.read (s.cfg.dstBase + BitVec.ofNat 32 k)) ∧
    (t.status.err = true → t.outLen = 0 ∧ t.result = 0 ∧
      (t.status.errCode ≠ ErrCode.overflow.code → SameMemory s t))

/-- Determinism: two states with the same registers, whose memories agree on the bytes the command reads, complete a
command with the same RESULT, OUT_LEN, ERR and ERRCODE and, on success, the same output bytes, whatever else they hold
(00_scope.md R18, 20_memory.md R77). -/
def Obligations.CompletionDependsOnSourceOnly : Prop :=
  ∀ (i : Instr) (s₁ s₂ t₁ t₂ : State), s₁.mem.wf = true → s₂.mem.wf = true → s₁.cfg = s₂.cfg →
    s₁.result = s₂.result → s₁.outLen = s₂.outLen →
    (∀ a, spansHold (readSpans Config.chip i s₁.cfg) a = true → s₁.mem.read a = s₂.mem.read a) →
    DutiesKept Config.chip i (runOf Config.chip i s₁).outcome s₁ →
    DutiesKept Config.chip i (runOf Config.chip i s₂).outcome s₂ →
    exec i s₁ = .next t₁ → exec i s₂ = .next t₂ →
    t₁.result = t₂.result ∧ t₁.outLen = t₂.outLen ∧ t₁.status.err = t₂.status.err ∧
    t₁.status.errCode = t₂.status.errCode ∧
    (t₁.status.err = false → i ≠ .nop →
      t₁.mem.readBytes s₁.cfg.dstBase t₁.outLen.toNat = t₂.mem.readBytes s₂.cfg.dstBase t₂.outLen.toNat)

/-- No command reads internal state left by an earlier one: the completion is the same whatever the working state holds
(00_scope.md R19, 10_state.md R40). The two completions are compared whole, so the equality of what they draw (any value
after OVERFLOW, an overlap or a broken duty, and the internal state left behind) is the model's choice: both draw with one
counter and from a run that reads no working state (log 6, log 15). -/
def Obligations.WorkingStateIsNeverRead : Prop :=
  ∀ (i : Instr) (s : State) (w : Work), exec i { s with work := w } = exec i s

/-- Every command is completed: from any state with a busy command, reset not asserted, all memory ordinary and the host
silent, LATENCY steps and one more leave BUSY 0 and DONE 1 (00_scope.md R8, 70_reset_and_hazards.md R350). -/
def Obligations.BusyCommandCompletesInLatency : Prop :=
  ∀ s : State, s.status.busy = true → s.inReset = false → s.host = [] → s.platform.unserved = [] →
    ∃ t, Sys2Proof.core.run (s.wait + 1) s = .next t ∧ t.status.busy = false ∧ t.status.done = true

/-- WAIT ends: from any state whose host is at a WAIT, it is left once the busy command has completed, with BUSY = 0 read
in STATUS (30_encoding.md R95, R96). -/
def Obligations.WaitEndsAtCompletion : Prop :=
  ∀ (s : State) (rest : List HostOp), s.status.busy = true → s.inReset = false → s.host = .wait :: rest →
    s.platform.unserved = [] →
    ∃ t, Sys2Proof.core.run (s.wait + 2) s = .next t ∧ t.host = rest ∧ t.rdata.getLsbD 0 = false ∧
      t.status.busy = false ∧ t.status.done = true

/-! ### Memory of the host -/

/-- A host store writes its byte in system memory and changes no other byte and no register. Where PLATFORM_COHERENT = true
the store is not left on its way, so the memory port reads the byte there (20_memory.md R73); where it is false the store is
recorded as one the port need not see yet, which is the model's choice (log 13). While a command is busy the store is
recorded if it broke a duty of R75, in the model's own record (log 9). -/
def Obligations.HostStoreWritesItsByte : Prop :=
  ∀ (s : State) (a : Word) (b : Byte) (rest : List HostOp), s.mem.wf = true → s.engineDue = false →
    spansHold s.platform.unserved a = false → s.host = .memWrite a b :: rest →
    ∃ t, step s = .next t ∧ t.mem.wf = true ∧ t.mem.read a = b ∧ (∀ a', a' ≠ a → t.mem.read a' = s.mem.read a') ∧
      t.cfg = s.cfg ∧ t.status = s.status ∧ t.result = s.result ∧ t.outLen = s.outLen ∧ t.vars = s.vars ∧
      (Config.chip.coherent = true → t.platform = s.platform) ∧
      (Config.chip.coherent = false → ∀ a', a' ∈ t.platform.unflushed ↔ a' ∈ s.platform.unflushed ∨ a' = a) ∧
      (s.status.busy = false → t.duty = s.duty) ∧
      (s.status.busy = true →
        (t.duty.srcWritten = true ↔ s.duty.srcWritten = true ∨
          spansHold (readSpans Config.chip (decode s.cmdWord) s.cfg) a = true) ∧
        (∀ a', a' ∈ t.duty.dstWritten ↔ a' ∈ s.duty.dstWritten ∨
          (a' = a ∧ spansHold (writeRegion (decode s.cmdWord) s.cfg).toList a = true)))

/-! ### Checksum units -/

/-- The byte-table form of the CRC step, for every register value and every byte (41_checksums.md R123). -/
def Obligations.CrcStepEqualsTableForm : Prop :=
  (∀ (cr : Word) (b : Byte), crcStep cr b = (cr >>> 8) ^^^ crcTable ((cr ^^^ b.zeroExtend 32).setWidth 8)) ∧
  crcTable 1 = 0x77073096 ∧ crcTable 128 = 0xEDB88320 ∧ crcTable 255 = 0x2D02EF8D

/-- The Adler32 reduction schedule is not observable: blocks of 5552 bytes, a reduction after every byte and the closed
form agree on every sequence, and 5552 is the largest block whose sums stay below 2^32 (41_checksums.md R126). -/
def Obligations.AdlerReductionNotObservable : Prop :=
  (∀ d : List Byte, adlerSums d = adlerPerByte d ∧ adler32 d = adlerClosed d ∧
    (adlerSums d).s1 < 65521 ∧ (adlerSums d).s2 < 65521) ∧
  (∀ n, 255 * (n * (n + 1) / 2) + (n + 1) * 65520 < 2 ^ 32 ↔ n ≤ 5552)

/-! ### Filter bank -/

/-- The Paeth predictor picks the one of left, up, upper-left nearest to left + up − upper-left on exact integers, ties to
left, then up, then upper-left (42_filter_bank.md R147). -/
def Obligations.PaethPicksNearest : Prop :=
  ∀ a b c : Byte,
    let p : Int := (a.toNat : Int) + b.toNat - c.toNat
    let dist := fun x : Byte => (p - x.toNat).natAbs
    let x := paeth a b c
    (x = a ∨ x = b ∨ x = c) ∧ dist x ≤ dist a ∧ dist x ≤ dist b ∧ dist x ≤ dist c ∧
    (dist a ≤ dist b → dist a ≤ dist c → x = a) ∧
    (¬(dist a ≤ dist b ∧ dist a ≤ dist c) → dist b ≤ dist c → x = b)

/-- The five filters, byte by byte, on every row: each filtered byte is the byte less the filter's predictor of its
neighbours modulo 256, the Average sum formed without overflow (42_filter_bank.md R142 to R146, R148). -/
def Obligations.FilterBytesFollowRules : Prop :=
  ∀ (n : Nat) (prev : Option (List Byte)) (cur : List Byte) (k : Nat), k < cur.length →
    let x := cur.getD k 0
    let a := if n ≤ k then cur.getD (k - n) 0 else 0
    let b := match prev with | none => 0 | some row => row.getD k 0
    let c := match prev with | none => 0 | some row => if n ≤ k then row.getD (k - n) 0 else 0
    (filterRow .none n prev cur).getD k 0 = x ∧
    ((filterRow .sub n prev cur).getD k 0).toNat = (x.toNat + 256 - a.toNat) % 256 ∧
    ((filterRow .up n prev cur).getD k 0).toNat = (x.toNat + 256 - b.toNat) % 256 ∧
    ((filterRow .average n prev cur).getD k 0).toNat = (x.toNat + 256 - (a.toNat + b.toNat) / 2) % 256 ∧
    ((filterRow .paeth n prev cur).getD k 0).toNat = (x.toNat + 256 - (paeth a b c).toNat) % 256

/-- The row-0 policy: Up copies the row, Average halves the left neighbour alone, Paeth equals Sub; and the tag written is
the index selected (42_filter_bank.md R149). -/
def Obligations.RowZeroDegenerates : Prop :=
  ∀ (n : Nat) (cur : List Byte),
    filterRow .up n none cur = cur ∧ filterRow .paeth n none cur = filterRow .sub n none cur ∧
    (∀ k, k < cur.length → ((filterRow .average n none cur).getD k 0).toNat =
      ((cur.getD k 0).toNat + 256 - (if n ≤ k then (cur.getD (k - n) 0).toNat / 2 else 0)) % 256 ∧
      ((filterRow .paeth n none cur).getD k 0).toNat =
        ((cur.getD k 0).toNat + 256 - (if n ≤ k then (cur.getD (k - n) 0).toNat else 0)) % 256) ∧
    (∀ t, filteredPlane n (.forced t) [cur] = t.tag :: filterRow t n none cur)

/-- The cost of a row is the exact sum of the absolute values of its bytes as two's complement, at most 128 a byte
(42_filter_bank.md R150). -/
def Obligations.RowCostIsSignedSum : Prop :=
  (∀ row : List Byte, rowCost row = (row.map fun b => b.toInt.natAbs).sum ∧ rowCost row ≤ 128 * row.length) ∧
  rowCost [0xFF, 0x80, 0x7F] = 256

/-- Adaptive selection takes the least cost, and of equal costs the lowest index, and the bank appends the tag and the
candidate row of that filter; an all-zero row selects filter 0; on row 0 filters 2 and 4 are never selected
(42_filter_bank.md R151). -/
def Obligations.AdaptiveSelectsLeastCost : Prop :=
  (∀ c : FilterType → Nat,
    let t := selectAdaptive (c .none) (c .sub) (c .up) (c .average) (c .paeth)
    (∀ u, c t ≤ c u) ∧ (∀ u, c u = c t → t.tag.toNat ≤ u.tag.toNat)) ∧
  (∀ (n : Nat) (fb : FilterBank) (row : List Byte),
    let candidate := fun u => filterRow u n (if fb.y = 0 then none else some fb.cur) row
    ∃ t, (filterBankRow n .adaptive fb row).2 = t.tag :: candidate t ∧
      (∀ u, rowCost (candidate t) ≤ rowCost (candidate u)) ∧
      (∀ u, rowCost (candidate u) = rowCost (candidate t) → t.tag.toNat ≤ u.tag.toNat)) ∧
  (∀ (n : Nat) (cur : List Byte),
    let t := selectAdaptive (rowCost (filterRow .none n none cur)) (rowCost (filterRow .sub n none cur))
      (rowCost (filterRow .up n none cur)) (rowCost (filterRow .average n none cur))
      (rowCost (filterRow .paeth n none cur))
    t ≠ .up ∧ t ≠ .paeth ∧ ((∀ b ∈ cur, b = 0) → t = .none))

/-- The filtered plane is reversible: for every raster of rows of one length, every format and every mode, unfiltering it
gives the effective rows back; its length is H × (RL + 1) whatever the mode and the pixels; and an all-zero raster has
all-zero rows, with tag 0 under adaptive selection and the forced tag otherwise (42_filter_bank.md R154, R155). -/
def Obligations.FilterPlaneIsReversible : Prop :=
  ∀ (f : PixelFormat) (mode : FilterMode) (len : Nat) (rows : List (List Byte)), (∀ r ∈ rows, r.length = len) →
    unfilterPlane f.channels len rows.length none (filteredPlane f.channels mode rows) = rows ∧
    (filteredPlane f.channels mode rows).length = rows.length * (len + 1) ∧
    ((∀ r ∈ rows, ∀ b ∈ r, b = 0) →
      filteredPlane f.channels mode rows =
        rows.flatMap fun r => (match mode with | .forced t => t.tag | .adaptive => 0) :: r)

/-- The effective raster: H rows of RL bytes, row y from source row y or H − 1 − y, with the first and third sample of
each pixel of Bgr24 and Bgra32 exchanged (20_memory.md R63; 42_filter_bank.md R140, R141). -/
def Obligations.EffectiveRasterFollowsRegisters : Prop :=
  ∀ (c : Cfg) (f : PixelFormat) (m : Memory) (y j k : Nat), y < c.height.toNat → j < c.width.toNat → k < f.channels →
    (effectiveRows c f m).length = c.height.toNat ∧
    ((effectiveRows c f m).getD y []).length = c.width.toNat * f.channels ∧
    ((effectiveRows c f m).getD y []).getD (j * f.channels + k) 0 =
      m.read (c.srcBase
        + BitVec.ofNat 32 ((if c.flip then c.height.toNat - 1 - y else y) * c.srcStride.toNat)
        + BitVec.ofNat 32 (j * f.channels + (if (f = .bgr24 ∨ f = .bgra32) ∧ k < 3 then 2 - k else k)))

/-! ### Match finder -/

/-- The match length is the longest common run from the two positions within the cap, and no index is read at or past the
end of the input (43_lz77_match_finder.md R176). -/
def Obligations.MatchLengthIsLongestRun : Prop :=
  ∀ (d : List Byte) (e j cap : Nat), e < j → j + cap ≤ d.length →
    let m := matchLength d e j cap
    m ≤ min 258 cap ∧ (∀ k, k < m → d[e + k]? = d[j + k]? ∧ j + k < d.length) ∧
    (m < min 258 cap → d[e + m]? ≠ d[j + m]?)

/-- The search finds an admissible entry with a match of 3 or more exactly when there is one, the longest, and of equal
lengths the most recent, whichever way the bucket is scanned (43_lz77_match_finder.md R177, R178). -/
def Obligations.SearchFindsLongestMostRecent : Prop :=
  ∀ (p : Params) (d : List Byte) (bs : List (Nat × List Nat)) (i : Nat),
    let len := fun e => matchLength d e i (d.length - i)
    (search p d bs i = none ↔ ∀ e ∈ candidates p d bs i, len e < 3) ∧
    (∀ c, search p d bs i = some c →
      c.pos ∈ candidates p d bs i ∧ c.len = len c.pos ∧ 3 ≤ c.len ∧
      ∀ e ∈ candidates p d bs i, len e < c.len ∨ (len e = c.len ∧ e ≤ c.pos)) ∧
    (candidates p d bs i).reverse.foldl (better d i) none = search p d bs i

/-- The bucket invariants hold at every point of a command: entries rise, hash to their bucket, lie before the position,
and are at most 2q; a bucket that is trimmed holds q + 1 entries right after (43_lz77_match_finder.md R180, R181). -/
def Obligations.BucketInvariantsHold : Prop :=
  (∀ (p : Params) (d : List Byte) (q n : Nat), 1 ≤ q →
    BucketsOk p d q (findLoop p d q n Work.fresh.finder).1) ∧
  (∀ (q i : Nat) (entries : List Nat), entries.length = 2 * q → (pushTrimmed q entries i).length = q + 1)

/-- The match finder's output is bounded and reconstructs its input: every match has 3 ≤ len ≤ 258 and
1 ≤ dist ≤ MAX_DIST, the symbols expand to the input, their sizes sum to its length, EOB stands once, at the end, and
nothing but the input, q, MAX_DIST and HASH3 decides them (43_lz77_match_finder.md R189). -/
def Obligations.MatchFinderReconstructsInput : Prop :=
  ∀ (p : Params) (d : List Byte) (q : Nat),
    (∀ len dist, Symbol.copy len dist ∈ (lz77 p d q).2 → 3 ≤ len ∧ len ≤ 258 ∧ 1 ≤ dist ∧ dist ≤ p.maxDist) ∧
    expand [] (lz77 p d q).2 = d ∧ ((lz77 p d q).2.map Symbol.size).sum = d.length ∧
    (∃ syms, (lz77 p d q).2 = syms ++ [.eob] ∧ Symbol.eob ∉ syms) ∧
    (∀ p' : Params, p'.maxDist = p.maxDist → p'.hash3 = p.hash3 → (lz77 p' d q).2 = (lz77 p d q).2)

/-- If no bucket reaches 2q entries, the output does not depend on HASH3: two machines that differ in the hash alone
produce the same symbols (43_lz77_match_finder.md R190). -/
def Obligations.OutputIndependentOfHash : Prop :=
  ∀ (p₁ p₂ : Params) (d : List Byte) (q : Nat), p₁.maxDist = p₂.maxDist → NeverFull p₁ d q → NeverFull p₂ d q →
    (lz77 p₁ d q).2 = (lz77 p₂ d q).2

/-! ### Huffman writer -/

/-- The accumulator emits the packing of the stream, for every sequence of admitted puts: the bytes emitted, followed by
the CNT pending bits of ACC, are the stream; CNT ≤ 7, ACC < 2^CNT, K counts the bytes (44_huffman_bitwriter.md R211). -/
def Obligations.AccumulatorEmitsBitStream : Prop :=
  ∀ us : List Put, (∀ u ∈ us, u.Admitted) →
    let r := putAll Work.fresh.bits us
    bytesBits r.2 ++ lowBits r.1.acc.toNat r.1.cnt = streamBits us ∧
    r.1.cnt ≤ 7 ∧ r.1.acc.toNat < 2 ^ r.1.cnt ∧ r.1.k = r.2.length

/-- The block of every admitted symbol sequence is the packed stream 1, 1, 0, then each symbol's codes most significant
bit first and extra bits least significant bit first, then zero bits to the byte boundary (44_huffman_bitwriter.md R212,
R213, R218, R219). -/
def Obligations.BlockIsPackedSymbolStream : Prop :=
  ∀ syms : List Symbol, (∀ s ∈ syms, s.Admitted) → (deflateBlock syms).2 = blockByBits syms

/-- The symbol bits are uniquely decodable: no symbol's bits begin another's (44_huffman_bitwriter.md R214 to R217). -/
def Obligations.SymbolBitsArePrefixFree : Prop :=
  ∀ s s' : Symbol, s.Admitted → s'.Admitted → symbolBits s <+: symbolBits s' → s = s'

/-- The length and distance tables cover 3..258 and 1..32768: base and extra value give the length or distance back, the
extra value fits its bits, length 258 is symbol 285 and no other is, and symbols 286, 287 and distance codes 30, 31 are
never used (44_huffman_bitwriter.md R216, R217, R221). -/
def Obligations.LengthAndDistanceTablesCover : Prop :=
  (∀ len, 3 ≤ len → len ≤ 258 →
    ∃ base, lengthTable[(lengthCode len).index]? = some (base, (lengthCode len).extraBits) ∧
      base + (lengthCode len).extra = len ∧ (lengthCode len).extra < 2 ^ (lengthCode len).extraBits ∧
      (lengthCode len).index ≤ 28 ∧ ((lengthCode len).index = 28 ↔ len = 258)) ∧
  (∀ dist, 1 ≤ dist → dist ≤ 32768 →
    ∃ base, distanceTable[(distanceCode dist).index]? = some (base, (distanceCode dist).extraBits) ∧
      base + (distanceCode dist).extra = dist ∧ (distanceCode dist).extra < 2 ^ (distanceCode dist).extraBits ∧
      (distanceCode dist).index ≤ 29)

/-- The size bound: a literal costs at most 9 bits, a match of length 3 at most 25, any match at most 31, so symbols cost at
most 9 bits an input byte, len(deflate(D, q)) ≤ ceil((3 + 9N + 7) / 8) and the zlib stream at most 6 bytes more, for every
MAX_DIST the distance table covers (44_huffman_bitwriter.md R222). -/
def Obligations.CompressedSizeBound : Prop :=
  (∀ b, (symbolBits (.lit b)).length ≤ 9) ∧
  (∀ len dist, 3 ≤ len → len ≤ 258 → 1 ≤ dist → dist ≤ 32768 →
    (symbolBits (.copy len dist)).length ≤ (if len = 3 then 25 else 31) ∧
    (symbolBits (.copy len dist)).length ≤ 9 * len) ∧
  ∀ (p : Params) (d : List Byte) (q : Nat), p.maxDist ≤ 32768 →
    (deflateBlock (lz77 p d q).2).2.length ≤ (3 + 9 * d.length + 7 + 7) / 8 ∧
    (zlib p d q).length ≤ (3 + 9 * d.length + 7 + 7) / 8 + 6

/-! ### Framer -/

/-- A chunk is its big-endian payload length, its type, its payload and the big-endian CRC of type and payload, 12 bytes
more than the payload (45_png_framer.md R241). -/
def Obligations.ChunkLayout : Prop :=
  ∀ (type payload : List Byte), type.length = 4 → payload.length ≤ 2 ^ 31 - 1 →
    let c := chunk type payload
    c.length = payload.length + 12 ∧
    (c.take 4).foldl (fun v b => v * 256 + b.toNat) 0 = payload.length ∧
    (c.drop 4).take 4 = type ∧ (c.drop 8).take payload.length = payload ∧
    ((c.drop (payload.length + 8)).foldl (fun v b => v * 256 + b.toNat) 0) = (crc32 (type ++ payload)).toNat

/-- The length bounds: with a plane of L ≤ FP_CAP ≤ 2^30 bytes the IDAT payload is at most ceil((10 + 9L) / 8) + 6 and
below 2^31 − 1, the PNG stream is
57 + len(Z) bytes and below 2^32 (45_png_framer.md R247, R248). -/
def Obligations.PngLengthBounds : Prop :=
  Config.chip.fpCap ≤ 2 ^ 30 ∧
  ∀ (w h : Word) (f : PixelFormat) (plane : List Byte) (q : Nat), plane.length ≤ Config.chip.fpCap →
    (zlib Config.chip plane q).length ≤ (10 + 9 * plane.length + 7) / 8 + 6 ∧
    (10 + 9 * plane.length + 7) / 8 + 6 < 2 ^ 31 - 1 ∧
    (pngStream Config.chip w h f plane q).length = 57 + (zlib Config.chip plane q).length ∧
    (pngStream Config.chip w h f plane q).length < 2 ^ 32

/-! ### Loads of the host -/

/-- What a host load returns, what maintenance does, and that a load after completion sees the output.
A load of a byte that is not in the destination region of a busy command returns the byte memory holds, where
PLATFORM_COHERENT = true or the byte is not stale; every other load returns some byte and draws it (20_memory.md R75; that a
stale byte loads as any value is the model's choice, log 13; `rdata` and the draw counter are its own fields, logs 6, 17).
Maintenance leaves nothing unflushed and nothing stale, changes no byte and no register, and counts a store that reaches
the port while a command is busy as made then (R73, R74; the model's one operation for it, log 13).
A load that follows a STATUS read returning DONE = 1 returns the command's output byte: at once where PLATFORM_COHERENT =
true, and after maintenance on every platform (R74). -/
def Obligations.HostLoadSeesCompletion : Prop :=
  (∀ (s : State) (a : Word) (rest : List HostOp), s.engineDue = false → spansHold s.platform.unserved a = false →
    s.host = .memRead a :: rest →
    let busyRegion := s.status.busy = true ∧ spansHold (writeRegion (decode s.cmdWord) s.cfg).toList a = true
    let staleByte := Config.chip.coherent = false ∧ spansHold s.platform.stale a = true
    (¬busyRegion ∧ ¬staleByte →
      step s = .next { s with rdata := (s.mem.read a).zeroExtend 32, wait := s.wait - 1, host := rest }) ∧
    (busyRegion ∨ staleByte → ∃ b : Byte,
      step s = .next { s with rdata := b.zeroExtend 32, draws := s.draws + 1, wait := s.wait - 1, host := rest })) ∧
  (∀ (s : State) (rest : List HostOp), s.engineDue = false → s.host = .maintain :: rest →
    ∃ t, step s = .next t ∧ t.platform = { s.platform with unflushed := [], stale := [] } ∧ t.mem = s.mem ∧
      t.cfg = s.cfg ∧ t.status = s.status ∧ t.result = s.result ∧ t.outLen = s.outLen ∧ t.host = rest ∧
      (s.status.busy = false → t.duty = s.duty) ∧
      (s.status.busy = true →
        (t.duty.srcWritten = true ↔ s.duty.srcWritten = true ∨
          ∃ a ∈ s.platform.unflushed, spansHold (readSpans Config.chip (decode s.cmdWord) s.cfg) a = true) ∧
        (∀ a, a ∈ t.duty.dstWritten ↔ a ∈ s.duty.dstWritten ∨
          (a ∈ s.platform.unflushed ∧ spansHold (writeRegion (decode s.cmdWord) s.cfg).toList a = true)))) ∧
  (∀ (s : State) (out : List Byte) (res : Word) (k : Nat) (name : String) (rest : List HostOp),
    s.engineDue = true → s.mem.wf = true → (runOf Config.chip (decode s.cmdWord) s).outcome = .ok out res →
    DutiesKept Config.chip (decode s.cmdWord) (.ok out res) s → k < out.length →
    let a := s.cfg.dstBase + BitVec.ofNat 32 k
    spansHold s.platform.unserved a = false →
    let seen := fun t : State => (varGet t.vars name).getLsbD 1 = true ∧ t.host = rest ∧
      t.rdata = (out.getD k 0).zeroExtend 32
    (Config.chip.coherent = true → s.host = stmtRd Config.chip .status name :: .memRead a :: rest →
      ∃ t, Sys2Proof.core.run 3 s = .next t ∧ seen t) ∧
    (s.host = stmtRd Config.chip .status name :: .maintain :: .memRead a :: rest →
      ∃ t, Sys2Proof.core.run 4 s = .next t ∧ seen t))
end

