-- ==== Sys2Proof/Laws/State.lean ====
section
/-! SUPPORT. One lemma per field per update of the state, true by rfl, so that no proof unfolds a record update. -/

namespace Sys2Proof.Machine

/-! ### STATUS -/

@[simp] theorem accepted_busy (st : Status) : st.accepted.busy = true := rfl
@[simp] theorem accepted_done (st : Status) : st.accepted.done = false := rfl
@[simp] theorem accepted_err (st : Status) : st.accepted.err = false := rfl
@[simp] theorem accepted_ign (st : Status) : st.accepted.ign = st.ign := rfl
@[simp] theorem accepted_errCode (st : Status) : st.accepted.errCode = 0 := rfl
@[simp] theorem completed_busy (st : Status) (e : Option ErrCode) : (st.completed e).busy = false := by cases e <;> rfl
@[simp] theorem completed_done (st : Status) (e : Option ErrCode) : (st.completed e).done = true := by cases e <;> rfl
@[simp] theorem completed_err (st : Status) (e : Option ErrCode) : (st.completed e).err = e.isSome := by cases e <;> rfl
@[simp] theorem completed_ign (st : Status) (e : Option ErrCode) : (st.completed e).ign = st.ign := by cases e <;> rfl
@[simp] theorem completed_errCode_none (st : Status) : (st.completed none).errCode = 0 := rfl
@[simp] theorem completed_errCode_some (st : Status) (c : ErrCode) : (st.completed (some c)).errCode = c.code := rfl
@[simp] theorem clearOnes_busy (st : Status) (v : Word) : (st.clearOnes v).busy = st.busy := rfl
@[simp] theorem clearOnes_done (st : Status) (v : Word) : (st.clearOnes v).done = (st.done && !v.getLsbD 1) := rfl
@[simp] theorem clearOnes_err (st : Status) (v : Word) : (st.clearOnes v).err = (st.err && !v.getLsbD 2) := rfl
@[simp] theorem clearOnes_ign (st : Status) (v : Word) : (st.clearOnes v).ign = (st.ign && !v.getLsbD 3) := rfl
@[simp] theorem clearOnes_errCode (st : Status) (v : Word) :
    (st.clearOnes v).errCode = if v.getLsbD 2 then 0 else st.errCode := rfl
@[simp] theorem abandoned_busy (st : Status) : st.abandoned.busy = false := rfl
@[simp] theorem abandoned_done (st : Status) : st.abandoned.done = st.done := rfl
@[simp] theorem abandoned_err (st : Status) : st.abandoned.err = st.err := rfl
@[simp] theorem abandoned_ign (st : Status) : st.abandoned.ign = st.ign := rfl
@[simp] theorem abandoned_errCode (st : Status) : st.abandoned.errCode = st.errCode := rfl

/-- Every error has a code from 1 to 5 (60_exceptions.md R300). -/
theorem errCode_code_range (c : ErrCode) : 1 ≤ c.code.toNat ∧ c.code.toNat ≤ 5 := by cases c <;> decide

/-- Two errors with the same code are the same. -/
theorem errCode_code_injective {c c' : ErrCode} (h : c.code = c'.code) : c = c' := by
  cases c <;> cases c' <;> first | rfl | exact absurd h (by decide)

/-! ### accept -/

@[simp] theorem accept_cfg (p : Params) (w : Word) (s : State) : (accept p w s).cfg = s.cfg := rfl
@[simp] theorem accept_status (p : Params) (w : Word) (s : State) : (accept p w s).status = s.status.accepted := rfl
@[simp] theorem accept_result (p : Params) (w : Word) (s : State) : (accept p w s).result = s.result := rfl
@[simp] theorem accept_outLen (p : Params) (w : Word) (s : State) : (accept p w s).outLen = s.outLen := rfl
@[simp] theorem accept_cmdWord (p : Params) (w : Word) (s : State) : (accept p w s).cmdWord = w := rfl
@[simp] theorem accept_work (p : Params) (w : Word) (s : State) : (accept p w s).work = s.work := rfl
@[simp] theorem accept_mem (p : Params) (w : Word) (s : State) : (accept p w s).mem = s.mem := rfl
@[simp] theorem accept_wait (p : Params) (w : Word) (s : State) : (accept p w s).wait = p.latency s.draws := rfl
@[simp] theorem accept_duty (p : Params) (w : Word) (s : State) : (accept p w s).duty = Duty.kept := rfl
@[simp] theorem accept_platform (p : Params) (w : Word) (s : State) : (accept p w s).platform = s.platform := rfl
@[simp] theorem accept_inReset (p : Params) (w : Word) (s : State) : (accept p w s).inReset = s.inReset := rfl
@[simp] theorem accept_host (p : Params) (w : Word) (s : State) : (accept p w s).host = s.host := rfl
@[simp] theorem accept_rdata (p : Params) (w : Word) (s : State) : (accept p w s).rdata = s.rdata := rfl
@[simp] theorem accept_vars (p : Params) (w : Word) (s : State) : (accept p w s).vars = s.vars := rfl
@[simp] theorem accept_draws (p : Params) (w : Word) (s : State) : (accept p w s).draws = s.draws + 1 := rfl

/-! ### successCompletion -/

@[simp] theorem successCompletion_cfg (out : List Byte) (res : Word) (s : State) :
    (successCompletion out res s).cfg = s.cfg := rfl
@[simp] theorem successCompletion_status (out : List Byte) (res : Word) (s : State) :
    (successCompletion out res s).status = s.status.completed none := rfl
@[simp] theorem successCompletion_result (out : List Byte) (res : Word) (s : State) :
    (successCompletion out res s).result = res := rfl
@[simp] theorem successCompletion_outLen (out : List Byte) (res : Word) (s : State) :
    (successCompletion out res s).outLen = BitVec.ofNat 32 out.length := rfl
@[simp] theorem successCompletion_cmdWord (out : List Byte) (res : Word) (s : State) :
    (successCompletion out res s).cmdWord = s.cmdWord := rfl
@[simp] theorem successCompletion_work (out : List Byte) (res : Word) (s : State) :
    (successCompletion out res s).work = s.work := rfl
@[simp] theorem successCompletion_mem (out : List Byte) (res : Word) (s : State) :
    (successCompletion out res s).mem = s.mem.writeBytes s.cfg.dstBase out := rfl
@[simp] theorem successCompletion_wait (out : List Byte) (res : Word) (s : State) :
    (successCompletion out res s).wait = s.wait := rfl
@[simp] theorem successCompletion_duty (out : List Byte) (res : Word) (s : State) :
    (successCompletion out res s).duty = s.duty := rfl
@[simp] theorem successCompletion_platform (out : List Byte) (res : Word) (s : State) :
    (successCompletion out res s).platform = s.platform := rfl
@[simp] theorem successCompletion_inReset (out : List Byte) (res : Word) (s : State) :
    (successCompletion out res s).inReset = s.inReset := rfl
@[simp] theorem successCompletion_host (out : List Byte) (res : Word) (s : State) :
    (successCompletion out res s).host = s.host := rfl
@[simp] theorem successCompletion_rdata (out : List Byte) (res : Word) (s : State) :
    (successCompletion out res s).rdata = s.rdata := rfl
@[simp] theorem successCompletion_vars (out : List Byte) (res : Word) (s : State) :
    (successCompletion out res s).vars = s.vars := rfl
@[simp] theorem successCompletion_draws (out : List Byte) (res : Word) (s : State) :
    (successCompletion out res s).draws = s.draws := rfl

/-! ### errorCompletion -/

@[simp] theorem errorCompletion_cfg (code : ErrCode) (dst : Option Span) (s : State) :
    (errorCompletion code dst s).cfg = s.cfg := rfl
@[simp] theorem errorCompletion_status (code : ErrCode) (dst : Option Span) (s : State) :
    (errorCompletion code dst s).status = s.status.completed (some code) := rfl
@[simp] theorem errorCompletion_result (code : ErrCode) (dst : Option Span) (s : State) :
    (errorCompletion code dst s).result = 0 := rfl
@[simp] theorem errorCompletion_outLen (code : ErrCode) (dst : Option Span) (s : State) :
    (errorCompletion code dst s).outLen = 0 := rfl
@[simp] theorem errorCompletion_cmdWord (code : ErrCode) (dst : Option Span) (s : State) :
    (errorCompletion code dst s).cmdWord = s.cmdWord := rfl
@[simp] theorem errorCompletion_work (code : ErrCode) (dst : Option Span) (s : State) :
    (errorCompletion code dst s).work = s.work := rfl
@[simp] theorem errorCompletion_mem (code : ErrCode) (dst : Option Span) (s : State) :
    (errorCompletion code dst s).mem = if code = .overflow then s.mem.scrambleRegion s.draws dst else s.mem := rfl
@[simp] theorem errorCompletion_wait (code : ErrCode) (dst : Option Span) (s : State) :
    (errorCompletion code dst s).wait = s.wait := rfl
@[simp] theorem errorCompletion_duty (code : ErrCode) (dst : Option Span) (s : State) :
    (errorCompletion code dst s).duty = s.duty := rfl
@[simp] theorem errorCompletion_platform (code : ErrCode) (dst : Option Span) (s : State) :
    (errorCompletion code dst s).platform = s.platform := rfl
@[simp] theorem errorCompletion_inReset (code : ErrCode) (dst : Option Span) (s : State) :
    (errorCompletion code dst s).inReset = s.inReset := rfl
@[simp] theorem errorCompletion_host (code : ErrCode) (dst : Option Span) (s : State) :
    (errorCompletion code dst s).host = s.host := rfl
@[simp] theorem errorCompletion_rdata (code : ErrCode) (dst : Option Span) (s : State) :
    (errorCompletion code dst s).rdata = s.rdata := rfl
@[simp] theorem errorCompletion_vars (code : ErrCode) (dst : Option Span) (s : State) :
    (errorCompletion code dst s).vars = s.vars := rfl
@[simp] theorem errorCompletion_draws (code : ErrCode) (dst : Option Span) (s : State) :
    (errorCompletion code dst s).draws = s.draws := rfl

/-! ### plainCompletion -/

@[simp] theorem plainCompletion_cfg (s : State) : (plainCompletion s).cfg = s.cfg := rfl
@[simp] theorem plainCompletion_status (s : State) : (plainCompletion s).status = s.status.completed none := rfl
@[simp] theorem plainCompletion_result (s : State) : (plainCompletion s).result = s.result := rfl
@[simp] theorem plainCompletion_outLen (s : State) : (plainCompletion s).outLen = s.outLen := rfl
@[simp] theorem plainCompletion_cmdWord (s : State) : (plainCompletion s).cmdWord = s.cmdWord := rfl
@[simp] theorem plainCompletion_work (s : State) : (plainCompletion s).work = s.work := rfl
@[simp] theorem plainCompletion_mem (s : State) : (plainCompletion s).mem = s.mem := rfl
@[simp] theorem plainCompletion_wait (s : State) : (plainCompletion s).wait = s.wait := rfl
@[simp] theorem plainCompletion_duty (s : State) : (plainCompletion s).duty = s.duty := rfl
@[simp] theorem plainCompletion_platform (s : State) : (plainCompletion s).platform = s.platform := rfl
@[simp] theorem plainCompletion_inReset (s : State) : (plainCompletion s).inReset = s.inReset := rfl
@[simp] theorem plainCompletion_host (s : State) : (plainCompletion s).host = s.host := rfl
@[simp] theorem plainCompletion_rdata (s : State) : (plainCompletion s).rdata = s.rdata := rfl
@[simp] theorem plainCompletion_vars (s : State) : (plainCompletion s).vars = s.vars := rfl
@[simp] theorem plainCompletion_draws (s : State) : (plainCompletion s).draws = s.draws := rfl

/-! ### freeCompletion -/

@[simp] theorem freeCompletion_cfg (dst : Option Span) (s : State) : (freeCompletion dst s).cfg = s.cfg := rfl
@[simp] theorem freeCompletion_status (dst : Option Span) (s : State) :
    (freeCompletion dst s).status = s.status.completed (Config.freeOutcome s.draws) := rfl
@[simp] theorem freeCompletion_result (dst : Option Span) (s : State) :
    (freeCompletion dst s).result = Config.freeWord s.draws 0 := rfl
@[simp] theorem freeCompletion_outLen (dst : Option Span) (s : State) :
    (freeCompletion dst s).outLen = Config.freeWord s.draws 1 := rfl
@[simp] theorem freeCompletion_cmdWord (dst : Option Span) (s : State) :
    (freeCompletion dst s).cmdWord = s.cmdWord := rfl
@[simp] theorem freeCompletion_work (dst : Option Span) (s : State) : (freeCompletion dst s).work = s.work := rfl
@[simp] theorem freeCompletion_mem (dst : Option Span) (s : State) :
    (freeCompletion dst s).mem = s.mem.scrambleRegion s.draws dst := rfl
@[simp] theorem freeCompletion_wait (dst : Option Span) (s : State) : (freeCompletion dst s).wait = s.wait := rfl
@[simp] theorem freeCompletion_duty (dst : Option Span) (s : State) : (freeCompletion dst s).duty = s.duty := rfl
@[simp] theorem freeCompletion_platform (dst : Option Span) (s : State) :
    (freeCompletion dst s).platform = s.platform := rfl
@[simp] theorem freeCompletion_inReset (dst : Option Span) (s : State) :
    (freeCompletion dst s).inReset = s.inReset := rfl
@[simp] theorem freeCompletion_host (dst : Option Span) (s : State) : (freeCompletion dst s).host = s.host := rfl
@[simp] theorem freeCompletion_rdata (dst : Option Span) (s : State) : (freeCompletion dst s).rdata = s.rdata := rfl
@[simp] theorem freeCompletion_vars (dst : Option Span) (s : State) : (freeCompletion dst s).vars = s.vars := rfl
@[simp] theorem freeCompletion_draws (dst : Option Span) (s : State) : (freeCompletion dst s).draws = s.draws := rfl

/-! ### overlapCompletion -/

@[simp] theorem overlapCompletion_cfg (o : RunOutcome) (dst : Option Span) (s : State) :
    (overlapCompletion o dst s).cfg = s.cfg := rfl
@[simp] theorem overlapCompletion_status (o : RunOutcome) (dst : Option Span) (s : State) :
    (overlapCompletion o dst s).status = s.status.completed o.error? := rfl
@[simp] theorem overlapCompletion_result (o : RunOutcome) (dst : Option Span) (s : State) :
    (overlapCompletion o dst s).result = Config.freeWord s.draws 0 := rfl
@[simp] theorem overlapCompletion_outLen (o : RunOutcome) (dst : Option Span) (s : State) :
    (overlapCompletion o dst s).outLen = Config.freeWord s.draws 1 := rfl
@[simp] theorem overlapCompletion_cmdWord (o : RunOutcome) (dst : Option Span) (s : State) :
    (overlapCompletion o dst s).cmdWord = s.cmdWord := rfl
@[simp] theorem overlapCompletion_work (o : RunOutcome) (dst : Option Span) (s : State) :
    (overlapCompletion o dst s).work = s.work := rfl
@[simp] theorem overlapCompletion_mem (o : RunOutcome) (dst : Option Span) (s : State) :
    (overlapCompletion o dst s).mem = s.mem.scrambleRegion s.draws dst := rfl
@[simp] theorem overlapCompletion_wait (o : RunOutcome) (dst : Option Span) (s : State) :
    (overlapCompletion o dst s).wait = s.wait := rfl
@[simp] theorem overlapCompletion_duty (o : RunOutcome) (dst : Option Span) (s : State) :
    (overlapCompletion o dst s).duty = s.duty := rfl
@[simp] theorem overlapCompletion_platform (o : RunOutcome) (dst : Option Span) (s : State) :
    (overlapCompletion o dst s).platform = s.platform := rfl
@[simp] theorem overlapCompletion_inReset (o : RunOutcome) (dst : Option Span) (s : State) :
    (overlapCompletion o dst s).inReset = s.inReset := rfl
@[simp] theorem overlapCompletion_host (o : RunOutcome) (dst : Option Span) (s : State) :
    (overlapCompletion o dst s).host = s.host := rfl
@[simp] theorem overlapCompletion_rdata (o : RunOutcome) (dst : Option Span) (s : State) :
    (overlapCompletion o dst s).rdata = s.rdata := rfl
@[simp] theorem overlapCompletion_vars (o : RunOutcome) (dst : Option Span) (s : State) :
    (overlapCompletion o dst s).vars = s.vars := rfl
@[simp] theorem overlapCompletion_draws (o : RunOutcome) (dst : Option Span) (s : State) :
    (overlapCompletion o dst s).draws = s.draws := rfl

/-! ### retire -/

@[simp] theorem retire_cfg (p : Params) (written : List Span) (w : Work) (s : State) :
    (retire p written w s).cfg = s.cfg := rfl
@[simp] theorem retire_status (p : Params) (written : List Span) (w : Work) (s : State) :
    (retire p written w s).status = s.status := rfl
@[simp] theorem retire_result (p : Params) (written : List Span) (w : Work) (s : State) :
    (retire p written w s).result = s.result := rfl
@[simp] theorem retire_outLen (p : Params) (written : List Span) (w : Work) (s : State) :
    (retire p written w s).outLen = s.outLen := rfl
@[simp] theorem retire_cmdWord (p : Params) (written : List Span) (w : Work) (s : State) :
    (retire p written w s).cmdWord = s.cmdWord := rfl
@[simp] theorem retire_work (p : Params) (written : List Span) (w : Work) (s : State) :
    (retire p written w s).work = Config.residue s.draws w := rfl
@[simp] theorem retire_mem (p : Params) (written : List Span) (w : Work) (s : State) :
    (retire p written w s).mem = s.mem.scrambleAt s.draws touchedFrom
      (s.duty.dstWritten ++ s.platform.unflushed.filter (spansHold written)) := rfl
@[simp] theorem retire_wait (p : Params) (written : List Span) (w : Work) (s : State) :
    (retire p written w s).wait = 0 := rfl
@[simp] theorem retire_duty (p : Params) (written : List Span) (w : Work) (s : State) :
    (retire p written w s).duty = Duty.kept := rfl
@[simp] theorem retire_platform (p : Params) (written : List Span) (w : Work) (s : State) :
    (retire p written w s).platform = if p.coherent then s.platform else { s.platform with stale := written ++ s.platform.stale } := rfl
@[simp] theorem retire_inReset (p : Params) (written : List Span) (w : Work) (s : State) :
    (retire p written w s).inReset = s.inReset := rfl
@[simp] theorem retire_host (p : Params) (written : List Span) (w : Work) (s : State) :
    (retire p written w s).host = s.host := rfl
@[simp] theorem retire_rdata (p : Params) (written : List Span) (w : Work) (s : State) :
    (retire p written w s).rdata = s.rdata := rfl
@[simp] theorem retire_vars (p : Params) (written : List Span) (w : Work) (s : State) :
    (retire p written w s).vars = s.vars := rfl
@[simp] theorem retire_draws (p : Params) (written : List Span) (w : Work) (s : State) :
    (retire p written w s).draws = s.draws + 1 := rfl

/-! ### assertReset -/

@[simp] theorem assertReset_cfg (p : Params) (dst : Option Span) (s : State) :
    (assertReset p dst s).cfg = s.cfg := rfl
@[simp] theorem assertReset_status (p : Params) (dst : Option Span) (s : State) :
    (assertReset p dst s).status = s.status.abandoned := rfl
@[simp] theorem assertReset_result (p : Params) (dst : Option Span) (s : State) :
    (assertReset p dst s).result = s.result := rfl
@[simp] theorem assertReset_outLen (p : Params) (dst : Option Span) (s : State) :
    (assertReset p dst s).outLen = s.outLen := rfl
@[simp] theorem assertReset_cmdWord (p : Params) (dst : Option Span) (s : State) :
    (assertReset p dst s).cmdWord = s.cmdWord := rfl
@[simp] theorem assertReset_work (p : Params) (dst : Option Span) (s : State) :
    (assertReset p dst s).work = s.work := rfl
@[simp] theorem assertReset_mem (p : Params) (dst : Option Span) (s : State) :
    (assertReset p dst s).mem = if s.status.busy then s.mem.scrambleRegion s.draws dst else s.mem := rfl
@[simp] theorem assertReset_wait (p : Params) (dst : Option Span) (s : State) : (assertReset p dst s).wait = 0 := rfl
@[simp] theorem assertReset_duty (p : Params) (dst : Option Span) (s : State) :
    (assertReset p dst s).duty = Duty.kept := rfl
@[simp] theorem assertReset_platform (p : Params) (dst : Option Span) (s : State) :
    (assertReset p dst s).platform = if p.coherent || !s.status.busy then s.platform
      else { s.platform with stale := dst.toList ++ s.platform.stale } := rfl
@[simp] theorem assertReset_inReset (p : Params) (dst : Option Span) (s : State) :
    (assertReset p dst s).inReset = true := rfl
@[simp] theorem assertReset_host (p : Params) (dst : Option Span) (s : State) :
    (assertReset p dst s).host = s.host := rfl
@[simp] theorem assertReset_rdata (p : Params) (dst : Option Span) (s : State) :
    (assertReset p dst s).rdata = s.rdata := rfl
@[simp] theorem assertReset_vars (p : Params) (dst : Option Span) (s : State) :
    (assertReset p dst s).vars = s.vars := rfl
@[simp] theorem assertReset_draws (p : Params) (dst : Option Span) (s : State) :
    (assertReset p dst s).draws = s.draws + 1 := rfl

/-! ### releaseReset -/

@[simp] theorem releaseReset_cfg (s : State) : (releaseReset s).cfg = Cfg.reset := rfl
@[simp] theorem releaseReset_status (s : State) : (releaseReset s).status = Status.reset := rfl
@[simp] theorem releaseReset_result (s : State) : (releaseReset s).result = 0 := rfl
@[simp] theorem releaseReset_outLen (s : State) : (releaseReset s).outLen = 0 := rfl
@[simp] theorem releaseReset_cmdWord (s : State) : (releaseReset s).cmdWord = Config.freeWord s.draws 0 := rfl
@[simp] theorem releaseReset_work (s : State) : (releaseReset s).work = Config.residue s.draws s.work := rfl
@[simp] theorem releaseReset_mem (s : State) : (releaseReset s).mem = s.mem := rfl
@[simp] theorem releaseReset_wait (s : State) : (releaseReset s).wait = 0 := rfl
@[simp] theorem releaseReset_duty (s : State) : (releaseReset s).duty = Duty.kept := rfl
@[simp] theorem releaseReset_platform (s : State) : (releaseReset s).platform = s.platform := rfl
@[simp] theorem releaseReset_inReset (s : State) : (releaseReset s).inReset = false := rfl
@[simp] theorem releaseReset_host (s : State) : (releaseReset s).host = s.host := rfl
@[simp] theorem releaseReset_rdata (s : State) : (releaseReset s).rdata = s.rdata := rfl
@[simp] theorem releaseReset_vars (s : State) : (releaseReset s).vars = s.vars := rfl
@[simp] theorem releaseReset_draws (s : State) : (releaseReset s).draws = s.draws + 1 := rfl

/-! ### clearError -/

@[simp] theorem clearError_cfg (s : State) : (clearError s).cfg = s.cfg := rfl
@[simp] theorem clearError_status (s : State) : (clearError s).status = s.status.clearOnes 0x4 := rfl
@[simp] theorem clearError_result (s : State) : (clearError s).result = s.result := rfl
@[simp] theorem clearError_outLen (s : State) : (clearError s).outLen = s.outLen := rfl
@[simp] theorem clearError_cmdWord (s : State) : (clearError s).cmdWord = s.cmdWord := rfl
@[simp] theorem clearError_work (s : State) : (clearError s).work = s.work := rfl
@[simp] theorem clearError_mem (s : State) : (clearError s).mem = s.mem := rfl
@[simp] theorem clearError_wait (s : State) : (clearError s).wait = s.wait := rfl
@[simp] theorem clearError_duty (s : State) : (clearError s).duty = s.duty := rfl
@[simp] theorem clearError_platform (s : State) : (clearError s).platform = s.platform := rfl
@[simp] theorem clearError_inReset (s : State) : (clearError s).inReset = s.inReset := rfl
@[simp] theorem clearError_host (s : State) : (clearError s).host = s.host := rfl
@[simp] theorem clearError_rdata (s : State) : (clearError s).rdata = s.rdata := rfl
@[simp] theorem clearError_vars (s : State) : (clearError s).vars = s.vars := rfl
@[simp] theorem clearError_draws (s : State) : (clearError s).draws = s.draws := rfl

/-! ### readInto -/

@[simp] theorem readInto_cfg (name : String) (v : Word) (s : State) : (readInto name v s).cfg = s.cfg := rfl
@[simp] theorem readInto_status (name : String) (v : Word) (s : State) : (readInto name v s).status = s.status := rfl
@[simp] theorem readInto_result (name : String) (v : Word) (s : State) : (readInto name v s).result = s.result := rfl
@[simp] theorem readInto_outLen (name : String) (v : Word) (s : State) : (readInto name v s).outLen = s.outLen := rfl
@[simp] theorem readInto_cmdWord (name : String) (v : Word) (s : State) : (readInto name v s).cmdWord = s.cmdWord := rfl
@[simp] theorem readInto_work (name : String) (v : Word) (s : State) : (readInto name v s).work = s.work := rfl
@[simp] theorem readInto_mem (name : String) (v : Word) (s : State) : (readInto name v s).mem = s.mem := rfl
@[simp] theorem readInto_wait (name : String) (v : Word) (s : State) : (readInto name v s).wait = s.wait := rfl
@[simp] theorem readInto_duty (name : String) (v : Word) (s : State) : (readInto name v s).duty = s.duty := rfl
@[simp] theorem readInto_platform (name : String) (v : Word) (s : State) : (readInto name v s).platform = s.platform := rfl
@[simp] theorem readInto_inReset (name : String) (v : Word) (s : State) : (readInto name v s).inReset = s.inReset := rfl
@[simp] theorem readInto_host (name : String) (v : Word) (s : State) : (readInto name v s).host = s.host := rfl
@[simp] theorem readInto_draws (name : String) (v : Word) (s : State) : (readInto name v s).draws = s.draws := rfl
@[simp] theorem readInto_rdata (name : String) (v : Word) (s : State) : (readInto name v s).rdata = v := rfl
@[simp] theorem readInto_vars (name : String) (v : Word) (s : State) :
    (readInto name v s).vars = varSet s.vars name v := rfl

/-! ### tick -/

@[simp] theorem tick_cfg (s : State) : (tick s).cfg = s.cfg := rfl
@[simp] theorem tick_status (s : State) : (tick s).status = s.status := rfl
@[simp] theorem tick_result (s : State) : (tick s).result = s.result := rfl
@[simp] theorem tick_outLen (s : State) : (tick s).outLen = s.outLen := rfl
@[simp] theorem tick_cmdWord (s : State) : (tick s).cmdWord = s.cmdWord := rfl
@[simp] theorem tick_work (s : State) : (tick s).work = s.work := rfl
@[simp] theorem tick_mem (s : State) : (tick s).mem = s.mem := rfl
@[simp] theorem tick_wait (s : State) : (tick s).wait = s.wait - 1 := rfl
@[simp] theorem tick_duty (s : State) : (tick s).duty = s.duty := rfl
@[simp] theorem tick_platform (s : State) : (tick s).platform = s.platform := rfl
@[simp] theorem tick_inReset (s : State) : (tick s).inReset = s.inReset := rfl
@[simp] theorem tick_host (s : State) : (tick s).host = s.host := rfl
@[simp] theorem tick_rdata (s : State) : (tick s).rdata = s.rdata := rfl
@[simp] theorem tick_vars (s : State) : (tick s).vars = s.vars := rfl
@[simp] theorem tick_draws (s : State) : (tick s).draws = s.draws := rfl

/-! ### withFetchWord -/

@[simp] theorem withFetchWord_cfg (s : State) (nbits w : Nat) : (s.withFetchWord nbits w).cfg = s.cfg := rfl
@[simp] theorem withFetchWord_status (s : State) (nbits w : Nat) :
    (s.withFetchWord nbits w).status = s.status.accepted := rfl
@[simp] theorem withFetchWord_result (s : State) (nbits w : Nat) : (s.withFetchWord nbits w).result = s.result := rfl
@[simp] theorem withFetchWord_outLen (s : State) (nbits w : Nat) : (s.withFetchWord nbits w).outLen = s.outLen := rfl
@[simp] theorem withFetchWord_cmdWord (s : State) (nbits w : Nat) :
    (s.withFetchWord nbits w).cmdWord = tableWord nbits w := rfl
@[simp] theorem withFetchWord_work (s : State) (nbits w : Nat) : (s.withFetchWord nbits w).work = s.work := rfl
@[simp] theorem withFetchWord_mem (s : State) (nbits w : Nat) : (s.withFetchWord nbits w).mem = s.mem := rfl
@[simp] theorem withFetchWord_wait (s : State) (nbits w : Nat) : (s.withFetchWord nbits w).wait = 0 := rfl
@[simp] theorem withFetchWord_duty (s : State) (nbits w : Nat) : (s.withFetchWord nbits w).duty = s.duty := rfl
@[simp] theorem withFetchWord_platform (s : State) (nbits w : Nat) :
    (s.withFetchWord nbits w).platform = s.platform := rfl
@[simp] theorem withFetchWord_inReset (s : State) (nbits w : Nat) : (s.withFetchWord nbits w).inReset = false := rfl
@[simp] theorem withFetchWord_host (s : State) (nbits w : Nat) : (s.withFetchWord nbits w).host = s.host := rfl
@[simp] theorem withFetchWord_rdata (s : State) (nbits w : Nat) : (s.withFetchWord nbits w).rdata = s.rdata := rfl
@[simp] theorem withFetchWord_vars (s : State) (nbits w : Nat) : (s.withFetchWord nbits w).vars = s.vars := rfl
@[simp] theorem withFetchWord_draws (s : State) (nbits w : Nat) : (s.withFetchWord nbits w).draws = s.draws := rfl

end Sys2Proof.Machine
end

