-- ==== Sys2Proof/Laws/Memory.lean ====
section
/-! SUPPORT. The laws of memory: a read after a write, and the canonical form, for every memory operation. -/

namespace Sys2Proof.Machine

/-- A write leaves every other address alone. -/
theorem read_write_other (m : Memory) {a a' : Word} (b : Byte) (h : a' ≠ a) :
    (m.write a b).read a' = m.read a' := by
  have hne : a.toNat ≠ a'.toNat := fun e => h (BitVec.eq_of_toNat_eq e.symm)
  induction m with
  | nil => simp only [Memory.write]; split <;> simp [Memory.read, hne]
  | cons c m ih =>
    obtain ⟨k, v⟩ := c
    simp only [Memory.write]
    split
    · simp only [Memory.read, ih]
    · rename_i hk
      by_cases hka : k = a.toNat
      · have : k ≠ a'.toNat := by omega
        simp only [hka, if_true]
        split <;> simp [Memory.read, hne]
      · simp only [hka, if_false]
        split <;> simp [Memory.read, hne]

/-- Above `lo` nothing below it is listed. -/
theorem read_of_wfFrom {m : Memory} {lo : Nat} (h : m.wfFrom lo = true) {a : Word} (ha : a.toNat < lo) :
    m.read a = blankByte := by
  induction m generalizing lo with
  | nil => rfl
  | cons c m ih =>
    obtain ⟨k, v⟩ := c
    simp only [Memory.wfFrom, Bool.and_eq_true, decide_eq_true_eq] at h
    have : k ≠ a.toNat := by omega
    simp only [Memory.read, this, if_false]
    exact ih h.2 (by omega)

theorem wfFrom_mono {m : Memory} {lo lo' : Nat} (hle : lo' ≤ lo) (h : m.wfFrom lo = true) : m.wfFrom lo' = true := by
  cases m with
  | nil => rfl
  | cons c m =>
    simp only [Memory.wfFrom, Bool.and_eq_true, decide_eq_true_eq] at h ⊢
    exact ⟨⟨by omega, h.1.2⟩, h.2⟩

/-- A read after a write to the same address gives the byte written, in a canonical memory. -/
theorem read_write_self_from {m : Memory} {lo : Nat} (h : m.wfFrom lo = true) (a : Word) (b : Byte) :
    (m.write a b).read a = b := by
  induction m generalizing lo with
  | nil => simp only [Memory.write]; split <;> simp_all [Memory.read]
  | cons c m ih =>
    obtain ⟨k, v⟩ := c
    simp only [Memory.wfFrom, Bool.and_eq_true, decide_eq_true_eq] at h
    simp only [Memory.write]
    split
    · rename_i hk
      have : k ≠ a.toNat := by omega
      simp only [Memory.read, this, if_false]
      exact ih h.2
    · rename_i hk
      by_cases hka : k = a.toNat
      · simp only [hka, if_true]
        split
        · rename_i hb
          rw [hb]
          exact read_of_wfFrom h.2 (by omega)
        · simp [Memory.read]
      · simp only [hka, if_false]
        split
        · rename_i hb
          simp only [Memory.read, hka, if_false, hb]
          exact read_of_wfFrom h.2 (by omega)
        · simp [Memory.read]

theorem read_write_self {m : Memory} (h : m.wf = true) (a : Word) (b : Byte) : (m.write a b).read a = b :=
  read_write_self_from h a b

/-- A write keeps the canonical form. -/
theorem wfFrom_write {m : Memory} {lo : Nat} (h : m.wfFrom lo = true) (a : Word) (b : Byte) (ha : lo ≤ a.toNat) :
    (m.write a b).wfFrom lo = true := by
  have hlt := a.isLt
  induction m generalizing lo with
  | nil =>
    simp only [Memory.write]
    split
    · rfl
    · rename_i hb
      simp only [Memory.wfFrom, Bool.and_true, decide_eq_true_eq]
      exact ⟨ha, hlt, hb⟩
  | cons c m ih =>
    obtain ⟨k, v⟩ := c
    simp only [Memory.wfFrom, Bool.and_eq_true, decide_eq_true_eq] at h
    simp only [Memory.write]
    split
    · rename_i hk
      simp only [Memory.wfFrom, Bool.and_eq_true, decide_eq_true_eq]
      exact ⟨h.1, ih h.2 (by omega)⟩
    · rename_i hk
      by_cases hka : k = a.toNat
      · simp only [hka, if_true]
        have h2 := h.2
        rw [hka] at h2
        split
        · exact wfFrom_mono (by omega) h2
        · rename_i hb
          simp only [Memory.wfFrom, Bool.and_eq_true, decide_eq_true_eq]
          exact ⟨⟨ha, hlt, hb⟩, h2⟩
      · simp only [hka, if_false]
        split
        · simp only [Memory.wfFrom, Bool.and_eq_true, decide_eq_true_eq]
          exact h
        · rename_i hb
          simp only [Memory.wfFrom, Bool.and_eq_true, decide_eq_true_eq]
          exact ⟨⟨ha, hlt, hb⟩, ⟨by omega, h.1.2⟩, h.2⟩

theorem wf_write {m : Memory} (h : m.wf = true) (a : Word) (b : Byte) : (m.write a b).wf = true :=
  wfFrom_write h a b (Nat.zero_le _)

theorem wf_writeBytes {m : Memory} (h : m.wf = true) (a : Word) (bs : List Byte) : (m.writeBytes a bs).wf = true := by
  induction bs generalizing m a with
  | nil => exact h
  | cons b bs ih => exact ih (wf_write h a b) (a + 1)

theorem wf_scramble {m : Memory} (h : m.wf = true) (d k : Nat) (a : Word) (n : Nat) : (m.scramble d k a n).wf = true := by
  induction n generalizing m k a with
  | zero => exact h
  | succ n ih => exact ih (wf_write h a _) (k + 1) (a + 1)

theorem wf_scrambleAt {m : Memory} (h : m.wf = true) (d k : Nat) (as : List Word) : (m.scrambleAt d k as).wf = true := by
  induction as generalizing m k with
  | nil => exact h
  | cons a as ih => exact ih (wf_write h a _) (k + 1)

theorem wf_scrambleRegion {m : Memory} (h : m.wf = true) (d : Nat) (dst : Option Span) :
    (m.scrambleRegion d dst).wf = true := by
  cases dst with
  | none => exact h
  | some r => exact wf_scramble h d 0 r.base r.len

/-- An address `n` or more past `a` is not `a`, and is `n − 1` or more past `a + 1`. -/
theorem past_succ {x a : Word} {n : Nat} (h : n + 1 ≤ (x - a).toNat) : x ≠ a ∧ n ≤ (x - (a + 1)).toNat := by
  refine ⟨fun e => ?_, by bv_omega⟩
  subst e
  simp at h

/-- Writing bytes leaves every address outside them alone. -/
theorem read_writeBytes_outside (m : Memory) (a x : Word) (bs : List Byte) (h : bs.length ≤ (x - a).toNat) :
    (m.writeBytes a bs).read x = m.read x := by
  induction bs generalizing m a with
  | nil => rfl
  | cons b bs ih =>
    obtain ⟨hne, hle⟩ := past_succ (by simpa using h)
    simp only [Memory.writeBytes]
    rw [ih _ _ hle, read_write_other _ _ hne]

/-- Scrambling leaves every address outside the scrambled ones alone. -/
theorem read_scramble_outside (m : Memory) (d k : Nat) (a x : Word) (n : Nat) (h : n ≤ (x - a).toNat) :
    (m.scramble d k a n).read x = m.read x := by
  induction n generalizing m k a with
  | zero => rfl
  | succ n ih =>
    obtain ⟨hne, hle⟩ := past_succ h
    simp only [Memory.scramble]
    rw [ih _ _ _ hle, read_write_other _ _ hne]

theorem read_scrambleAt_outside (m : Memory) (d k : Nat) (as : List Word) (x : Word) (h : x ∉ as) :
    (m.scrambleAt d k as).read x = m.read x := by
  induction as generalizing m k with
  | nil => rfl
  | cons a as ih =>
    simp only [List.mem_cons, not_or] at h
    simp only [Memory.scrambleAt]
    rw [ih _ _ h.2, read_write_other _ _ h.1]

theorem read_scrambleRegion_outside (m : Memory) (d : Nat) (dst : Option Span) (x : Word)
    (h : spansHold dst.toList x = false) : (m.scrambleRegion d dst).read x = m.read x := by
  cases dst with
  | none => rfl
  | some r =>
    refine read_scramble_outside m d 0 r.base x r.len ?_
    simpa [spansHold, Span.holds] using h

@[simp] theorem readBytes_length (m : Memory) (a : Word) (n : Nat) : (m.readBytes a n).length = n := by
  induction n generalizing a with
  | zero => rfl
  | succ n ih => simp [Memory.readBytes, ih]

/-- One address further, then `k`, is `k + 1` further. -/
theorem succ_offset (a : Word) (k : Nat) : a + 1 + BitVec.ofNat 32 k = a + BitVec.ofNat 32 (k + 1) := by
  rw [BitVec.add_assoc, BitVec.add_comm 1]
  congr 1
  apply BitVec.eq_of_toNat_eq
  simp

/-- Byte `k` of a range read. -/
theorem readBytes_getD (m : Memory) (a : Word) {n k : Nat} (h : k < n) :
    (m.readBytes a n).getD k 0 = m.read (a + BitVec.ofNat 32 k) := by
  induction n generalizing a k with
  | zero => omega
  | succ n ih =>
    cases k with
    | zero => simp [Memory.readBytes]
    | succ k =>
      simp only [Memory.readBytes, List.getD_cons_succ]
      rw [ih (a + 1) (by omega), succ_offset]

/-- Two memories that agree on a range read the same bytes there. -/
theorem readBytes_congr {m m' : Memory} {a : Word} {n : Nat}
    (h : ∀ k, k < n → m.read (a + BitVec.ofNat 32 k) = m'.read (a + BitVec.ofNat 32 k)) :
    m.readBytes a n = m'.readBytes a n := by
  induction n generalizing a with
  | zero => rfl
  | succ n ih =>
    simp only [Memory.readBytes]
    congr 1
    · simpa using h 0 (by omega)
    · apply ih
      intro k hk
      rw [succ_offset]
      exact h (k + 1) (by omega)

/-- Reading back the bytes written, where they do not reach round to their own first address. -/
theorem readBytes_writeBytes_self {m : Memory} (h : m.wf = true) (a : Word) (bs : List Byte)
    (hl : bs.length < 2 ^ 32) : (m.writeBytes a bs).readBytes a bs.length = bs := by
  induction bs generalizing m a with
  | nil => rfl
  | cons b bs ih =>
    simp only [List.length_cons] at hl
    simp only [Memory.writeBytes, List.length_cons, Memory.readBytes]
    congr 1
    · rw [read_writeBytes_outside _ _ _ _ (by bv_omega), read_write_self h]
    · exact ih (wf_write h a b) (a + 1) (by omega)

end Sys2Proof.Machine
end

