-- ==== Sys2Proof/Laws/Spans.lean ====
section
/-! SUPPORT. The laws of spans: when an address lies in one, and when two share an address. -/

namespace Sys2Proof.Machine

@[simp] theorem spansHold_nil (a : Word) : spansHold [] a = false := rfl
@[simp] theorem spansHold_cons (p : Span) (ps : List Span) (a : Word) :
    spansHold (p :: ps) a = (p.holds a || spansHold ps a) := rfl
@[simp] theorem spansMeet_nil_left (rs : List Span) : spansMeet [] rs = false := rfl
@[simp] theorem spansMeet_nil_right (ps : List Span) : spansMeet ps [] = false := by
  induction ps with
  | nil => rfl
  | cons p ps ih => simp [spansMeet]

/-- A span holds an address exactly when the address is less than its length past its base. -/
theorem holds_iff (p : Span) (a : Word) : p.holds a = true ↔ (a - p.base).toNat < p.len := by simp [Span.holds]

/-- Outside a span. -/
theorem holds_false_iff (p : Span) (a : Word) : p.holds a = false ↔ p.len ≤ (a - p.base).toNat := by
  simp [Span.holds]

/-- Every byte of a span is held by it, also one past the end of the address space. -/
theorem holds_offset (p : Span) {k : Nat} (h : k < p.len) : p.holds (p.base + BitVec.ofNat 32 k) = true := by
  rw [holds_iff, BitVec.add_comm, BitVec.add_sub_cancel, BitVec.toNat_ofNat]
  exact Nat.lt_of_le_of_lt (Nat.mod_le _ _) h

/-- Two spans meet exactly when some address lies in both. -/
theorem meets_iff (p r : Span) : p.meets r = true ↔ ∃ a, p.holds a = true ∧ r.holds a = true := by
  have key : p.meets r = true ↔
      (0 < r.len ∧ (r.base - p.base).toNat < p.len) ∨ (0 < p.len ∧ (p.base - r.base).toNat < r.len) := by
    simp [Span.meets, Span.holds]
  rw [key]
  constructor
  · rintro (⟨h0, h⟩ | ⟨h0, h⟩)
    · exact ⟨r.base, (holds_iff p r.base).2 h, by simp [holds_iff, h0]⟩
    · exact ⟨p.base, by simp [holds_iff, h0], (holds_iff r p.base).2 h⟩
  · rintro ⟨a, hp, hr⟩
    rw [holds_iff] at hp hr
    by_cases hle : (r.base - p.base).toNat ≤ (a - p.base).toNat
    · exact .inl ⟨by omega, by omega⟩
    · right
      refine ⟨by omega, ?_⟩
      have : (p.base - r.base).toNat ≤ (a - r.base).toNat := by bv_omega
      omega

/-- Two lists of spans meet exactly when some address lies in both. -/
theorem spansMeet_iff (ps rs : List Span) :
    spansMeet ps rs = true ↔ ∃ a, spansHold ps a = true ∧ spansHold rs a = true := by
  simp only [spansMeet, spansHold, List.any_eq_true, meets_iff]
  constructor
  · rintro ⟨p, hp, r, hr, a, ha, hb⟩
    exact ⟨a, ⟨p, hp, ha⟩, ⟨r, hr, hb⟩⟩
  · rintro ⟨a, ⟨p, hp, ha⟩, ⟨r, hr, hb⟩⟩
    exact ⟨p, hp, r, hr, a, ha, hb⟩

/-- Lists that do not meet: an address of the one lies outside the other. -/
theorem spansMeet_false {ps rs : List Span} (h : spansMeet ps rs = false) {a : Word} (ha : spansHold ps a = true) :
    spansHold rs a = false := by
  cases hr : spansHold rs a with
  | false => rfl
  | true => rw [(spansMeet_iff ps rs).2 ⟨a, ha, hr⟩] at h; cases h

end Sys2Proof.Machine
end

