-- ==== Sys2Proof/Laws/Completion.lean ====
section
/-! SUPPORT. Everything a completion can do: the one shape every meaning ends in, when it stops, what it leaves alone,
and what it is when the duties are kept. -/

namespace Sys2Proof.Machine

/-- Every meaning is the completion of the command's run (46_commands.md R260). -/
theorem exec_eq_complete (i : Instr) (s : State) :
    exec i s = complete Config.chip i (runOf Config.chip i s) s := by
  cases i <;> rfl

/-- A completion answers a next state or, for a memory port that cannot be served, the one fault. -/
theorem complete_cases (p : Params) (i : Instr) (r : Run) (s : State) :
    complete p i r s = .next (retire p (mayWrite p i r.outcome s) r.work (completed p i r.outcome s)) ∨
    (touchesUnserved p i r.outcome s = true ∧ complete p i r s = .fault .memoryPortStuck) := by
  unfold complete
  cases h : touchesUnserved p i r.outcome s with
  | false => simp
  | true => cases Config.portStuck s.draws <;> simp

/-- A completion that touches only ordinary memory answers a next state. -/
theorem complete_served {p : Params} {i : Instr} {r : Run} {s : State} (h : touchesUnserved p i r.outcome s = false) :
    complete p i r s = .next (retire p (mayWrite p i r.outcome s) r.work (completed p i r.outcome s)) := by
  simp [complete, h]

/-- The next state of a completion. -/
theorem complete_next {p : Params} {i : Instr} {r : Run} {s t : State} (h : complete p i r s = .next t) :
    t = retire p (mayWrite p i r.outcome s) r.work (completed p i r.outcome s) := by
  rcases complete_cases p i r s with h' | ⟨-, h'⟩ <;> rw [h'] at h <;> cases h
  rfl

/-- Where all memory is ordinary nothing is unserved. -/
theorem touchesUnserved_plain {p : Params} {i : Instr} {o : RunOutcome} {s : State} (h : s.platform.unserved = []) :
    touchesUnserved p i o s = false := by
  simp [touchesUnserved, h]

/-! ### What every completion leaves alone -/

/-- The four shapes a completion has before it is retired. -/
theorem completed_cases (p : Params) (i : Instr) (o : RunOutcome) (s : State) :
    completed p i o s = freeCompletion (writeRegion i s.cfg) s ∨
    completed p i o s = overlapCompletion o (writeRegion i s.cfg) s ∨
    completed p i o s = cleanCompletion o (writeRegion i s.cfg) s := by
  unfold completed
  split
  · exact .inl rfl
  · split
    · exact .inr (.inl rfl)
    · exact .inr (.inr rfl)

/-- The three shapes of a clean completion. -/
theorem cleanCompletion_cases (o : RunOutcome) (dst : Option Span) (s : State) :
    (o = .nothing ∧ cleanCompletion o dst s = plainCompletion s) ∨
    (∃ out res, o = .ok out res ∧ cleanCompletion o dst s = successCompletion out res s) ∨
    (∃ c, o = .error c ∧ cleanCompletion o dst s = errorCompletion c dst s) := by
  cases o with
  | nothing => exact .inl ⟨rfl, rfl⟩
  | ok out res => exact .inr (.inl ⟨out, res, rfl, rfl⟩)
  | error c => exact .inr (.inr ⟨c, rfl, rfl⟩)

@[simp] theorem completed_cfg (p : Params) (i : Instr) (o : RunOutcome) (s : State) :
    (completed p i o s).cfg = s.cfg := by
  unfold completed; split <;> [rfl; split <;> [rfl; cases o <;> rfl]]
@[simp] theorem completed_cmdWord (p : Params) (i : Instr) (o : RunOutcome) (s : State) :
    (completed p i o s).cmdWord = s.cmdWord := by
  unfold completed; split <;> [rfl; split <;> [rfl; cases o <;> rfl]]
@[simp] theorem completed_duty (p : Params) (i : Instr) (o : RunOutcome) (s : State) :
    (completed p i o s).duty = s.duty := by
  unfold completed; split <;> [rfl; split <;> [rfl; cases o <;> rfl]]
@[simp] theorem completed_platform (p : Params) (i : Instr) (o : RunOutcome) (s : State) :
    (completed p i o s).platform = s.platform := by
  unfold completed; split <;> [rfl; split <;> [rfl; cases o <;> rfl]]
@[simp] theorem completed_inReset (p : Params) (i : Instr) (o : RunOutcome) (s : State) :
    (completed p i o s).inReset = s.inReset := by
  unfold completed; split <;> [rfl; split <;> [rfl; cases o <;> rfl]]
@[simp] theorem completed_host (p : Params) (i : Instr) (o : RunOutcome) (s : State) :
    (completed p i o s).host = s.host := by
  unfold completed; split <;> [rfl; split <;> [rfl; cases o <;> rfl]]
@[simp] theorem completed_rdata (p : Params) (i : Instr) (o : RunOutcome) (s : State) :
    (completed p i o s).rdata = s.rdata := by
  unfold completed; split <;> [rfl; split <;> [rfl; cases o <;> rfl]]
@[simp] theorem completed_vars (p : Params) (i : Instr) (o : RunOutcome) (s : State) :
    (completed p i o s).vars = s.vars := by
  unfold completed; split <;> [rfl; split <;> [rfl; cases o <;> rfl]]
@[simp] theorem completed_draws (p : Params) (i : Instr) (o : RunOutcome) (s : State) :
    (completed p i o s).draws = s.draws := by
  unfold completed; split <;> [rfl; split <;> [rfl; cases o <;> rfl]]

/-- Every completion writes STATUS by Status.completed with some error outcome (10_state.md R41). -/
theorem completed_status (p : Params) (i : Instr) (o : RunOutcome) (s : State) :
    ∃ e, (completed p i o s).status = s.status.completed e := by
  rcases completed_cases p i o s with h | h | h <;> rw [h]
  · exact ⟨_, rfl⟩
  · exact ⟨_, rfl⟩
  · rcases cleanCompletion_cases o (writeRegion i s.cfg) s with ⟨-, h⟩ | ⟨_, _, -, h⟩ | ⟨c, -, h⟩ <;> rw [h]
    · exact ⟨none, rfl⟩
    · exact ⟨none, rfl⟩
    · exact ⟨some c, rfl⟩

/-- The frame of every completion (10_state.md R41). -/
theorem complete_frame {p : Params} {i : Instr} {r : Run} {s t : State} (h : complete p i r s = .next t) :
    CompletionFrame s t := by
  obtain ⟨e, he⟩ := completed_status p i r.outcome s
  cases complete_next h
  constructor <;> first | (simp [he]; done) | (simp only [retire_platform, completed_platform]; split <;> rfl)

/-- A completion keeps memory in canonical form. -/
theorem complete_wf {p : Params} {i : Instr} {r : Run} {s t : State} (h : complete p i r s = .next t)
    (hm : s.mem.wf = true) : t.mem.wf = true := by
  cases complete_next h
  simp only [retire_mem]
  apply wf_scrambleAt
  rcases completed_cases p i r.outcome s with h | h | h <;> rw [h]
  · exact wf_scrambleRegion hm _ _
  · exact wf_scrambleRegion hm _ _
  · rcases cleanCompletion_cases r.outcome (writeRegion i s.cfg) s with ⟨-, h⟩ | ⟨_, _, -, h⟩ | ⟨c, -, h⟩ <;> rw [h]
    · exact hm
    · exact wf_writeBytes hm _ _
    · simp only [errorCompletion_mem]
      split
      · exact wf_scrambleRegion hm _ _
      · exact hm

/-! ### When the duties are kept -/

/-- With the duties kept a completion is the clean one. -/
theorem completed_clean {p : Params} {i : Instr} {o : RunOutcome} {s : State} (h : DutiesKept p i o s) :
    completed p i o s = cleanCompletion o (writeRegion i s.cfg) s := by
  simp [completed, h.served, h.undisturbed, h.disjoint]

/-- With the duties kept the bytes a completion may have written are those of its run (20_memory.md R66, R67). -/
theorem mayWrite_clean {p : Params} {i : Instr} {o : RunOutcome} {s : State} (h : DutiesKept p i o s) :
    mayWrite p i o s = writtenSpans i s.cfg o := by
  simp [mayWrite, resultsFree, h.served, h.undisturbed, h.disjoint]

/-- With the duties kept no byte is touched but by the completion itself. -/
theorem retire_mem_clean {p : Params} {i : Instr} {o : RunOutcome} {s u : State} (w : Work) (h : DutiesKept p i o s)
    (hd : u.duty = s.duty) (hp : u.platform = s.platform) :
    (retire p (writtenSpans i s.cfg o) w u).mem = u.mem := by
  have hf : s.platform.unflushed.filter (spansHold (writtenSpans i s.cfg o)) = [] :=
    List.filter_eq_nil_iff.2 fun a ha => by simp [h.flushed a ha]
  simp [hd, hp, h.untouched, hf, Memory.scrambleAt]

/-- A success writes no byte outside the output (20_memory.md R66, R67). -/
theorem writtenSpans_ok_outside (i : Instr) (c : Cfg) (out : List Byte) (res : Word) (a : Word)
    (h : out.length ≤ (a - c.dstBase).toNat) : spansHold (writtenSpans i c (.ok out res)) a = false := by
  have hr : writeRegion i c = none ∨ writeRegion i c = some ⟨c.dstBase, c.dstCap.toNat⟩ := by
    cases i <;> simp [writeRegion]
  rcases hr with hr | hr
  · simp [writtenSpans, hr]
  · simpa only [writtenSpans, hr, Option.toList, List.map_cons, List.map_nil, spansHold_cons, spansHold_nil, Bool.or_false,
      holds_false_iff] using h

/-- A byte that was not written is no staler after the completion than before (20_memory.md R74; log 13). -/
theorem spansHold_stale_outside {p : Params} {written : List Span} {w : Work} {s : State} {a : Word}
    (h : spansHold written a = false) :
    spansHold (retire p written w s).platform.stale a = spansHold s.platform.stale a := by
  rw [retire_platform]
  split
  · rfl
  · simp only [spansHold, List.any_append] at h ⊢
    simp [h]

/-- With the duties kept a command completes with its clean completion. -/
theorem complete_clean {p : Params} {i : Instr} {r : Run} {s : State} (h : DutiesKept p i r.outcome s) :
    complete p i r s =
      .next (retire p (writtenSpans i s.cfg r.outcome) r.work (cleanCompletion r.outcome (writeRegion i s.cfg) s)) := by
  rw [complete_served h.served, completed_clean h, mayWrite_clean h]

/-- A success completion, with the duties kept (46_commands.md R260). -/
theorem complete_success {p : Params} {i : Instr} {r : Run} {s : State} {out : List Byte} {res : Word}
    (ho : r.outcome = .ok out res) (h : DutiesKept p i (.ok out res) s) (hm : s.mem.wf = true)
    (hl : out.length < 2 ^ 32) : ∃ t, complete p i r s = .next t ∧ SuccessFrom s t out res := by
  have h' : DutiesKept p i r.outcome s := ho ▸ h
  have hc := complete_clean h'
  rw [ho] at hc
  have hmem := retire_mem_clean (u := successCompletion out res s) r.work h rfl rfl
  have hstale := writtenSpans_ok_outside i s.cfg out res
  refine ⟨_, hc, complete_frame hc, ?_, ?_, ?_, ?_, ?_, ?_, ?_⟩
  · simp [cleanCompletion]
  · simp [cleanCompletion]
  · simp [cleanCompletion]
  · simp [cleanCompletion]
  · simp only [cleanCompletion, hmem]
    exact readBytes_writeBytes_self hm _ _ hl
  · intro a ha
    simp only [cleanCompletion, hmem]
    exact read_writeBytes_outside _ _ _ _ ha
  · exact fun a ha => spansHold_stale_outside (hstale a ha)

/-- A completion that writes no byte, with the duties kept: the same for every memory. -/
theorem complete_success_empty {p : Params} {i : Instr} {r : Run} {s : State} {res : Word}
    (ho : r.outcome = .ok [] res) (h : DutiesKept p i (.ok [] res) s) :
    ∃ t, complete p i r s = .next t ∧ SuccessFrom s t [] res ∧ SameMemory s t := by
  have h' : DutiesKept p i r.outcome s := ho ▸ h
  have hc := complete_clean h'
  rw [ho] at hc
  have hmem := retire_mem_clean (u := successCompletion [] res s) r.work h rfl rfl
  have hstale := writtenSpans_ok_outside i s.cfg [] res
  refine ⟨_, hc, ⟨complete_frame hc, ?_, ?_, ?_, ?_, ?_, ?_, ?_⟩, ?_⟩
  · simp [cleanCompletion]
  · simp [cleanCompletion]
  · simp [cleanCompletion]
  · simp [cleanCompletion]
  · rfl
  · intro a _; simp only [cleanCompletion, hmem]; rfl
  · exact fun a ha => spansHold_stale_outside (hstale a ha)
  · intro a; simp only [cleanCompletion, hmem]; rfl

/-- An error completion, with the duties kept, of a command whose destination region is the one of its registers or that
has none (60_exceptions.md R301). -/
theorem complete_error {p : Params} {i : Instr} {r : Run} {s : State} {c : ErrCode}
    (ho : r.outcome = .error c) (h : DutiesKept p i (.error c) s) :
    ∃ t, complete p i r s = .next t ∧ ErrorFrom s t c := by
  have h' : DutiesKept p i r.outcome s := ho ▸ h
  have hc := complete_clean h'
  rw [ho] at hc
  have hmem := retire_mem_clean (u := errorCompletion c (writeRegion i s.cfg) s) r.work h rfl rfl
  have hr : writeRegion i s.cfg = none ∨ writeRegion i s.cfg = some ⟨s.cfg.dstBase, s.cfg.dstCap.toNat⟩ := by
    cases i <;> simp [writeRegion]
  refine ⟨_, hc, complete_frame hc, ?_, ?_, ?_, ?_, ?_, ?_, ?_⟩
  · simp [cleanCompletion]
  · simp [cleanCompletion]
  · simp [cleanCompletion]
  · simp [cleanCompletion]
  · intro hne a
    simp only [cleanCompletion, hmem, errorCompletion_mem, hne, if_false]
  · intro hne
    simp only [retire_platform, writtenSpans, hne, if_false, List.nil_append]
    split <;> rfl
  · intro a ha
    simp only [cleanCompletion, hmem, errorCompletion_mem]
    split
    · apply read_scrambleRegion_outside
      rcases hr with hr | hr <;> rw [hr]
      · rfl
      · simpa only [Option.toList, spansHold_cons, spansHold_nil, Bool.or_false, holds_false_iff] using ha
    · rfl

end Sys2Proof.Machine
end

