-- ==== Sys2Proof/Laws/HostSide.lean ====
section
/-! SUPPORT. Everything a host access and a step can do. -/

namespace Sys2Proof.Machine

/-! ### The register window -/

/-- The offsets of the registers are the multiples of 4 below 0x40 (10_state.md R20, R21). -/
theorem offset_range (r : Reg) : r.offset % 4 = 0 ∧ r.offset < 0x40 := by cases r <;> decide

@[simp] theorem atOffset_offset (r : Reg) : Reg.atOffset r.offset = some r := by cases r <;> rfl

/-- A register stands at its own offset only. -/
theorem atOffset_eq_some {off : Nat} {r : Reg} (h : Reg.atOffset off = some r) : r.offset = off := by
  have := List.find?_some h
  simpa using this

/-- A multiple of 4 below 0x40 is the offset of a register. -/
theorem atOffset_of_aligned {off : Nat} (h4 : off % 4 = 0) (hlt : off < 0x40) : ∃ r, Reg.atOffset off = some r := by
  have h : ∀ off, off < 0x40 → off % 4 = 0 → (Reg.atOffset off).isSome = true := by decide
  exact Option.isSome_iff_exists.1 (h off hlt h4)

/-- The host's access to a register by its own address is admitted outside reset (20_memory.md R71). -/
theorem accessedReg_reg {p : Params} {s : State} (h : s.inReset = false) (r : Reg) :
    accessedReg p s (p.regBase + r.offset) 4 = .ok r := by
  simp [accessedReg, h]

/-- What an admitted access is: 32 bits wide, at a register's address, outside reset. -/
theorem accessedReg_ok {p : Params} {s : State} {addr bytes : Nat} {r : Reg} (h : accessedReg p s addr bytes = .ok r) :
    s.inReset = false ∧ bytes = 4 ∧ addr = p.regBase + r.offset := by
  unfold accessedReg at h
  split at h
  · cases h
  · rename_i hr
    split at h
    · rename_i hb
      split at h
      · rename_i r' ho
        cases h
        have := atOffset_eq_some ho
        exact ⟨by simpa using hr, hb.1, by omega⟩
      · cases h
    · cases h

/-- An access during reset is refused (70_reset_and_hazards.md R330). -/
theorem accessedReg_inReset {p : Params} {s : State} (h : s.inReset = true) (addr bytes : Nat) :
    accessedReg p s addr bytes = .error .accessDuringReset := by
  simp [accessedReg, h]

/-- Outside reset an access is admitted exactly when it is an aligned 32-bit one inside the window (20_memory.md R71). -/
theorem accessedReg_iff {p : Params} {s : State} {addr bytes : Nat} (h : s.inReset = false) :
    ((bytes = 4 ∧ p.regBase ≤ addr ∧ (addr - p.regBase) % 4 = 0 ∧ addr - p.regBase < 0x40) ∧
      ∃ r, accessedReg p s addr bytes = .ok r) ∨
    (¬(bytes = 4 ∧ p.regBase ≤ addr ∧ (addr - p.regBase) % 4 = 0 ∧ addr - p.regBase < 0x40) ∧
      accessedReg p s addr bytes = .error .accessNotAdmitted) := by
  by_cases hok : bytes = 4 ∧ p.regBase ≤ addr ∧ (addr - p.regBase) % 4 = 0 ∧ addr - p.regBase < 0x40
  · obtain ⟨r, hr⟩ := atOffset_of_aligned hok.2.2.1 hok.2.2.2
    exact .inl ⟨hok, r, by simp [accessedReg, h, hok.1, hok.2.1, hr]⟩
  · refine .inr ⟨hok, ?_⟩
    unfold accessedReg
    simp only [h, Bool.false_eq_true, if_false]
    split
    · rename_i hb
      split
      · rename_i r hr
        have ho := atOffset_eq_some hr
        have := offset_range r
        exact absurd ⟨hb.1, hb.2, by omega, by omega⟩ hok
      · rfl
    · rfl

/-- A write to a configuration register changes no other one. -/
theorem readReg_write_other (c : Cfg) (s : State) {r r' : Reg} (v : Word) (h : r' ≠ r) :
    readReg r' { s with cfg := c.write r v } = readReg r' { s with cfg := c } := by
  cases r <;> cases r' <;> first | rfl | exact absurd rfl h

/-- A register write while busy sets IGN and does nothing else (10_state.md R30). -/
theorem writeReg_busy {s : State} (h : s.status.busy = true) (p : Params) (r : Reg) (v : Word) :
    writeReg p r v s = { s with status := s.status.ignored } := by
  simp [writeReg, h]

/-- A register write while idle: acceptance, the flags, or the configuration (46_commands.md R260, 10_state.md R31). -/
theorem writeReg_idle {s : State} (h : s.status.busy = false) (p : Params) (r : Reg) (v : Word) :
    writeReg p r v s =
      if r = .cmd then accept p v s
      else if r = .status then { s with status := s.status.clearOnes v }
      else { s with cfg := s.cfg.write r v } := by
  cases r <;> simp [writeReg, h]

/-! ### The host's own memory accesses -/

/-- Noting a touched byte changes the duty record alone. -/
theorem noteTouched_eq (p : Params) (a : Word) (s : State) :
    ∃ d, noteTouched p a s = { s with duty := d } ∧ (s.status.busy = false → d = s.duty) := by
  unfold noteTouched
  split
  · rename_i h; exact ⟨_, rfl, by simp [h]⟩
  · exact ⟨s.duty, rfl, fun _ => rfl⟩

/-- What noting a touched byte records while a command is busy (20_memory.md R75; log 9). -/
theorem noteTouched_busy (p : Params) (a : Word) {s : State} (hb : s.status.busy = true) :
    ((noteTouched p a s).duty.srcWritten = true ↔
      s.duty.srcWritten = true ∨ spansHold (readSpans p (decode s.cmdWord) s.cfg) a = true) ∧
    ∀ x, x ∈ (noteTouched p a s).duty.dstWritten ↔
      x ∈ s.duty.dstWritten ∨ (x = a ∧ spansHold (writeRegion (decode s.cmdWord) s.cfg).toList a = true) := by
  simp only [noteTouched, hb, if_true, Bool.or_eq_true, true_and]
  intro x
  split
  · rename_i h
    simp only [Bool.and_eq_true] at h
    simp [h.1, or_comm]
  · rename_i h
    constructor
    · exact .inl
    · rintro (hx | ⟨rfl, hx⟩)
      · exact hx
      · simpa [hx] using h

/-- A recorded destination byte lies in the destination region of the busy command. -/
theorem noteTouched_inside {p : Params} {a x : Word} {s : State} (h : x ∈ (noteTouched p a s).duty.dstWritten) :
    x ∈ s.duty.dstWritten ∨ spansHold (writeRegion (decode s.cmdWord) s.cfg).toList x = true := by
  unfold noteTouched at h
  split at h
  · simp only at h
    split at h
    · rename_i hc
      rcases List.mem_cons.1 h with rfl | hx
      · exact .inr (Bool.and_eq_true_iff.1 hc).1
      · exact .inl hx
    · exact .inl h
  · exact .inl h

/-- A host store writes its byte and changes, beside memory, the duty record and the platform alone. -/
theorem hostStore_eq (p : Params) (a : Word) (b : Byte) (s : State) :
    ∃ d u, hostStore p a b s =
      { s with mem := s.mem.write a b, duty := d, platform := { s.platform with unflushed := u } } ∧
      (s.status.busy = false → d = s.duty) ∧ (p.coherent = true → u = s.platform.unflushed) ∧
      (∀ x ∈ u, x ∈ s.platform.unflushed ∨ x = a) := by
  obtain ⟨d, hd, hk⟩ := noteTouched_eq p a { s with mem := s.mem.write a b }
  unfold hostStore
  simp only [hd]
  split
  · exact ⟨d, s.platform.unflushed, rfl, hk, fun _ => rfl, fun _ h => .inl h⟩
  · rename_i hc
    refine ⟨d, a :: s.platform.unflushed, rfl, hk, fun h => absurd h ?_, ?_⟩
    · simp only [Bool.or_eq_true, not_or] at hc; exact hc.1
    · intro x hx; rcases List.mem_cons.1 hx with h | h
      · exact .inr h
      · exact .inl h

/-- Maintenance changes the duty record and empties what is unflushed and stale. -/
theorem maintain_eq (p : Params) (s : State) :
    ∃ d, maintain p s =
      { s with duty := d, platform := { s.platform with unflushed := [], stale := [] } } ∧
      (s.status.busy = false → d = s.duty) := by
  have h : ∀ (as : List Word) (u : State), ∃ d, as.foldl (fun t a => noteTouched p a t) u = { u with duty := d } ∧
      (u.status.busy = false → d = u.duty) := by
    intro as
    induction as with
    | nil => exact fun u => ⟨u.duty, rfl, fun _ => rfl⟩
    | cons a as ih =>
      intro u
      obtain ⟨d, hd, hk⟩ := noteTouched_eq p a u
      obtain ⟨d', hd', hk'⟩ := ih { u with duty := d }
      refine ⟨d', by rw [List.foldl_cons, hd, hd'], fun h => (hk' h).trans (hk h)⟩
  obtain ⟨d, hd, hk⟩ := h s.platform.unflushed s
  exact ⟨d, by simp only [maintain, hd], hk⟩

/-- What maintenance records while a command is busy: every store it makes visible counts as made then (20_memory.md R73,
R75; log 13). -/
theorem maintain_busy (p : Params) {s : State} (hb : s.status.busy = true) :
    ((maintain p s).duty.srcWritten = true ↔ s.duty.srcWritten = true ∨
      ∃ a ∈ s.platform.unflushed, spansHold (readSpans p (decode s.cmdWord) s.cfg) a = true) ∧
    ∀ x, x ∈ (maintain p s).duty.dstWritten ↔ x ∈ s.duty.dstWritten ∨
      (x ∈ s.platform.unflushed ∧ spansHold (writeRegion (decode s.cmdWord) s.cfg).toList x = true) := by
  have h : ∀ (as : List Word) (u : State), u.status.busy = true →
      ((as.foldl (fun t a => noteTouched p a t) u).duty.srcWritten = true ↔ u.duty.srcWritten = true ∨
        ∃ a ∈ as, spansHold (readSpans p (decode u.cmdWord) u.cfg) a = true) ∧
      ∀ x, x ∈ (as.foldl (fun t a => noteTouched p a t) u).duty.dstWritten ↔ x ∈ u.duty.dstWritten ∨
        (x ∈ as ∧ spansHold (writeRegion (decode u.cmdWord) u.cfg).toList x = true) := by
    intro as
    induction as with
    | nil => intro u _; simp
    | cons a as ih =>
      intro u hu
      obtain ⟨h1, h2⟩ := noteTouched_busy p a hu
      obtain ⟨d, hd, -⟩ := noteTouched_eq p a u
      have ih' := ih (noteTouched p a u) (by rw [hd]; exact hu)
      rw [hd] at ih' h1 h2
      simp only [List.foldl_cons, hd]
      refine ⟨ih'.1.trans ?_, fun x => (ih'.2 x).trans ?_⟩
      · rw [h1]; simp [or_assoc]
      · rw [h2, or_assoc, List.mem_cons, or_and_right]
        exact or_congr_right (or_congr_left (and_congr_right fun hx => by rw [hx]))
  exact h s.platform.unflushed s hb

/-! ### Host variables -/

/-- A variable holds what it was assigned last. -/
@[simp] theorem varGet_varSet_self (vs : Vars) (name : String) (v : Word) : varGet (varSet vs name v) name = v := by
  induction vs with
  | nil => simp [varSet, varGet]
  | cons x vs ih =>
    simp only [varSet]
    split
    · simp [varGet]
    · rename_i h
      simp [varGet, h, ih]

/-- An assignment leaves the other variables alone. -/
theorem varGet_varSet_other (vs : Vars) {name name' : String} (v : Word) (h : name' ≠ name) :
    varGet (varSet vs name v) name' = varGet vs name' := by
  induction vs with
  | nil => simp [varSet, varGet, Ne.symm h]
  | cons x vs ih =>
    simp only [varSet]
    split
    · rename_i hx
      simp [varGet, Ne.symm h, hx]
    · simp [varGet, ih]

/-! ### The step -/

/-- When the engine is due the step completes the accepted command (46_commands.md R260). -/
theorem step_due {s : State} (h : s.engineDue = true) : step s = exec (decode s.cmdWord) s := by simp [step, h]

/-- Otherwise it is the host's turn, one step of LATENCY gone. -/
theorem step_not_due {s : State} (h : s.engineDue = false) : step s = hostTurn Config.chip (tick s) := by
  simp [step, h]

theorem engineDue_iff (s : State) :
    s.engineDue = true ↔ s.status.busy = true ∧ s.wait = 0 ∧ s.inReset = false := by
  simp [State.engineDue, and_assoc]

theorem engineDue_false_of_idle {s : State} (h : s.status.busy = false) : s.engineDue = false := by
  simp [State.engineDue, h]

theorem engineDue_false_of_wait {s : State} (h : 0 < s.wait) : s.engineDue = false := by
  have : s.wait ≠ 0 := by omega
  simp [State.engineDue, this]

theorem engineDue_false_of_inReset {s : State} (h : s.inReset = true) : s.engineDue = false := by
  simp [State.engineDue, h]

/-- The host's turn with an access to make. -/
theorem step_host {s : State} {op : HostOp} {rest : List HostOp} (h : s.engineDue = false) (hh : s.host = op :: rest) :
    step s = hostStep Config.chip op { s with wait := s.wait - 1, host := rest } := by
  rw [step_not_due h]
  simp [hostTurn, hh, tick]

/-- The host's turn with nothing to do. -/
theorem step_silent {s : State} (h : s.engineDue = false) (hh : s.host = []) : step s = .next (tick s) := by
  rw [step_not_due h]
  simp [hostTurn, hh]

/-- Everything a step that answers a next state can have been: a completion, silence, or one host access. -/
theorem step_cases {s t : State} (h : step s = .next t) :
    (s.engineDue = true ∧ exec (decode s.cmdWord) s = .next t) ∨
    (s.engineDue = false ∧ s.host = [] ∧ t = tick s) ∨
    (s.engineDue = false ∧ ∃ op rest, s.host = op :: rest ∧
      hostStep Config.chip op { s with wait := s.wait - 1, host := rest } = .next t) := by
  cases hd : s.engineDue with
  | true => exact .inl ⟨rfl, by rwa [step_due hd] at h⟩
  | false =>
    cases hh : s.host with
    | nil => rw [step_silent hd hh] at h; exact .inr (.inl ⟨rfl, rfl, by cases h; rfl⟩)
    | cons op rest => rw [step_host hd hh] at h; exact .inr (.inr ⟨rfl, op, rest, rfl, h⟩)

/-- Everything a host access that answers a next state can have been. -/
theorem hostStep_cases {p : Params} {op : HostOp} {s t : State} (h : hostStep p op s = .next t) :
    (∃ r x, op = .regWrite (p.regBase + r.offset) 4 x ∧ s.inReset = false ∧ t = writeReg p r (hostValue x s.vars) s) ∨
    (∃ r name, op = .regRead (p.regBase + r.offset) 4 name ∧ s.inReset = false ∧ t = readInto name (readReg r s) s) ∨
    (op = .wait ∧ s.inReset = false ∧
      t = { readInto "s" (readReg .status s) s with host := if s.status.busy then .wait :: s.host else s.host }) ∨
    (∃ a b, op = .memWrite a b ∧ spansHold s.platform.unserved a = false ∧ t = hostStore p a b s) ∨
    (∃ a, op = .memRead a ∧ spansHold s.platform.unserved a = false ∧ t = hostLoad p a s) ∨
    (op = .maintain ∧ t = maintain p s) ∨
    (op = .assertReset ∧ s.inReset = true ∧ t = s) ∨
    (op = .assertReset ∧ s.inReset = false ∧ t = assertReset p (writeRegion (decode s.cmdWord) s.cfg) s) ∨
    (op = .releaseReset ∧ s.inReset = true ∧ t = releaseReset s) ∨
    (op = .releaseReset ∧ s.inReset = false ∧ t = s) := by
  cases op with
  | regWrite addr bytes x =>
    simp only [hostStep] at h
    split at h
    · rename_i r hr
      obtain ⟨h1, rfl, rfl⟩ := accessedReg_ok hr
      cases h
      exact .inl ⟨r, x, rfl, h1, rfl⟩
    · cases h
  | regRead addr bytes name =>
    simp only [hostStep] at h
    split at h
    · rename_i r hr
      obtain ⟨h1, rfl, rfl⟩ := accessedReg_ok hr
      cases h
      exact .inr (.inl ⟨r, name, rfl, h1, rfl⟩)
    · cases h
  | wait =>
    simp only [hostStep] at h
    split at h
    · cases h
    · rename_i hr
      cases h
      exact .inr (.inr (.inl ⟨rfl, by simpa using hr, rfl⟩))
  | memWrite a b =>
    simp only [hostStep] at h
    split at h
    · cases h
    · rename_i hr
      cases h
      exact .inr (.inr (.inr (.inl ⟨a, b, rfl, by simpa using hr, rfl⟩)))
  | memRead a =>
    simp only [hostStep] at h
    split at h
    · cases h
    · rename_i hr
      cases h
      exact .inr (.inr (.inr (.inr (.inl ⟨a, rfl, by simpa using hr, rfl⟩))))
  | maintain =>
    cases h
    exact .inr (.inr (.inr (.inr (.inr (.inl ⟨rfl, rfl⟩)))))
  | assertReset =>
    simp only [hostStep] at h
    split at h <;> rename_i hr <;> cases h
    · exact .inr (.inr (.inr (.inr (.inr (.inr (.inl ⟨rfl, hr, rfl⟩))))))
    · exact .inr (.inr (.inr (.inr (.inr (.inr (.inr (.inl ⟨rfl, by simpa using hr, rfl⟩)))))))
  | releaseReset =>
    simp only [hostStep] at h
    split at h <;> rename_i hr <;> cases h
    · exact .inr (.inr (.inr (.inr (.inr (.inr (.inr (.inr (.inl ⟨rfl, hr, rfl⟩))))))))
    · exact .inr (.inr (.inr (.inr (.inr (.inr (.inr (.inr (.inr ⟨rfl, by simpa using hr, rfl⟩))))))))

end Sys2Proof.Machine
end

