-- ==== Sys2Proof/Laws/PerInstr.lean ====
section
/-! SUPPORT. Statements for all instructions, made per instruction. -/

namespace Sys2Proof.Laws

/-- The fields of a command's word: RSV = 0 and OPCODE that of 30_encoding.md R92 for a command, the two fields it holds
for a reserved word. -/
def FieldsOfWord.Statement (i : Instr) : Prop :=
  rsvField (encode i) = (match i with | .reserved rsv _ => rsv | _ => 0) ∧
  opcodeField (encode i) =
    (match i with
     | .nop => 0x00
     | .encodePng => 0x01
     | .filterImage => 0x02
     | .zlibCompress => 0x03
     | .crc32 => 0x04
     | .adler32 => 0x05
     | .writeChunk => 0x06
     | .reserved _ opcode => opcode)

theorem FieldsOfWord.nop : FieldsOfWord.Statement .nop := ⟨by decide, by decide⟩
theorem FieldsOfWord.encodePng : FieldsOfWord.Statement .encodePng := ⟨by decide, by decide⟩
theorem FieldsOfWord.filterImage : FieldsOfWord.Statement .filterImage := ⟨by decide, by decide⟩
theorem FieldsOfWord.zlibCompress : FieldsOfWord.Statement .zlibCompress := ⟨by decide, by decide⟩
theorem FieldsOfWord.crc32 : FieldsOfWord.Statement .crc32 := ⟨by decide, by decide⟩
theorem FieldsOfWord.adler32 : FieldsOfWord.Statement .adler32 := ⟨by decide, by decide⟩
theorem FieldsOfWord.writeChunk : FieldsOfWord.Statement .writeChunk := ⟨by decide, by decide⟩
theorem FieldsOfWord.reserved (rsv : BitVec 24) (opcode : BitVec 8) : FieldsOfWord.Statement (.reserved rsv opcode) := by
  refine ⟨?_, ?_⟩
  · ext j hj
    simp only [encode, rsvField, BitVec.getElem_extractLsb', BitVec.getLsbD_append]
    simp [hj]
  · ext j hj
    simp only [encode, opcodeField, BitVec.getElem_extractLsb', BitVec.getLsbD_append]
    simp [hj]

end Sys2Proof.Laws
end

