-- ==== Sys2Proof/Laws/Units.lean ====
section
/-! SUPPORT. The small laws of the units: lengths, what a check list answers, and what a run's outcome is. -/

namespace Sys2Proof.Machine

/-! ### Bytes and bits -/

@[simp] theorem be32_length (v : Word) : (be32 v).length = 4 := rfl
@[simp] theorem lowBits_length (v n : Nat) : (lowBits v n).length = n := by
  induction n generalizing v with
  | zero => rfl
  | succ n ih => simp [lowBits, ih]
@[simp] theorem chunkTypeBytes_length (c : Cfg) : (chunkTypeBytes c).length = 4 := rfl
@[simp] theorem sourceBytes_length (c : Cfg) (m : Memory) : (sourceBytes c m).length = c.srcLen.toNat := by
  simp [sourceBytes]

/-! ### Checks -/

@[simp] theorem firstFailure_nil : firstFailure [] = none := rfl
@[simp] theorem firstFailure_cons (b : Bool) (e : ErrCode) (rest : List (Bool × ErrCode)) :
    firstFailure ((b, e) :: rest) = if b then some e else firstFailure rest := by
  cases b <;> simp [firstFailure]

/-- No check fails exactly when each of them passes. -/
theorem firstFailure_none_iff (cs : List (Bool × ErrCode)) : firstFailure cs = none ↔ ∀ c ∈ cs, c.1 = false := by
  simp [firstFailure, Prod.forall]

/-- A run whose output fits is the success it gives (20_memory.md R66). -/
theorem fittingRun_ok {c : Cfg} {out : List Byte} (h : out.length ≤ c.dstCap.toNat) (res : Word) (w : Work) :
    (fittingRun c out res w).outcome = .ok out res := by
  simp [fittingRun, Nat.not_lt.2 h]

/-- A run whose output does not fit is OVERFLOW (20_memory.md R66). -/
theorem fittingRun_overflow {c : Cfg} {out : List Byte} (h : c.dstCap.toNat < out.length) (res : Word) (w : Work) :
    (fittingRun c out res w).outcome = .error .overflow := by
  simp [fittingRun, h]

/-! ### Filter bank -/

@[simp] theorem filterRow_length (t : FilterType) (n : Nat) (prev : Option (List Byte)) (cur : List Byte) :
    (filterRow t n prev cur).length = cur.length := by simp [filterRow]

/-- Byte `k` of a candidate row. -/
theorem filterRow_getD (t : FilterType) (n : Nat) (prev : Option (List Byte)) (cur : List Byte) {k : Nat}
    (h : k < cur.length) :
    (filterRow t n prev cur).getD k 0 =
      cur.getD k 0 - predictor t (leftOf n cur k) (upOf prev k) (upperLeftOf n prev k) := by
  simp [filterRow, List.getD_eq_getElem?_getD, h]

@[simp] theorem reorderBgr_length : ∀ row : List Byte, (reorderBgr row).length = row.length
  | [] => rfl
  | [_] => rfl
  | [_, _] => rfl
  | _ :: _ :: _ :: rest => by simp [reorderBgr, reorderBgr_length rest]
@[simp] theorem reorderBgra_length : ∀ row : List Byte, (reorderBgra row).length = row.length
  | [] => rfl
  | [_] => rfl
  | [_, _] => rfl
  | [_, _, _] => rfl
  | _ :: _ :: _ :: _ :: rest => by simp [reorderBgra, reorderBgra_length rest]
@[simp] theorem reorder_length (f : PixelFormat) (row : List Byte) : (reorder f row).length = row.length := by
  cases f <;> simp [reorder]
@[simp] theorem effectiveRow_length (c : Cfg) (f : PixelFormat) (m : Memory) (y : Nat) :
    (effectiveRow c f m y).length = rowLength c f := by simp [effectiveRow, sourceRow]
@[simp] theorem effectiveRows_length (c : Cfg) (f : PixelFormat) (m : Memory) :
    (effectiveRows c f m).length = c.height.toNat := by simp [effectiveRows]

/-- Every effective row has the row length. -/
theorem length_of_mem_effectiveRows {c : Cfg} {f : PixelFormat} {m : Memory} {r : List Byte}
    (h : r ∈ effectiveRows c f m) : r.length = rowLength c f := by
  obtain ⟨y, -, rfl⟩ := List.mem_map.1 h
  simp

/-- One row through the bank: the filter `t` it selects, the tag and row it appends, and what the next row sees as its
previous one, the row itself (42_filter_bank.md R151 to R153). -/
theorem filterBankRow_eq (n : Nat) (mode : FilterMode) (fb : FilterBank) (row : List Byte) :
    let prev := if fb.y = 0 then none else some fb.cur
    let cost := fun u => rowCost (filterRow u n prev row)
    let t := match mode with
      | .forced t => t
      | .adaptive => selectAdaptive (cost .none) (cost .sub) (cost .up) (cost .average) (cost .paeth)
    (filterBankRow n mode fb row).2 = t.tag :: filterRow t n prev row ∧
    (filterBankRow n mode fb row).1.cur = row ∧ (filterBankRow n mode fb row).1.y = fb.y + 1 := by
  cases mode with
  | forced t => cases t <;> exact ⟨rfl, rfl, rfl⟩
  | adaptive =>
    refine ⟨?_, rfl, rfl⟩
    simp only [filterBankRow, FilterBank.compute, FilterBank.fetch]
    cases selectAdaptive _ _ _ _ _ <;> rfl

/-- A plane has one tag byte and one row for each row (42_filter_bank.md R154). -/
theorem filterBankRows_length (n : Nat) (mode : FilterMode) (fb : FilterBank) (rows : List (List Byte)) :
    (filterBankRows n mode fb rows).2.length = (rows.map fun r => r.length + 1).sum := by
  induction rows generalizing fb with
  | nil => rfl
  | cons row rows ih =>
    have h := (filterBankRow_eq n mode fb row).1
    simp only [filterBankRows, List.length_append, ih, List.map_cons, List.sum_cons]
    rw [h]
    simp

/-- The plane of the raster the registers describe has the length L (42_filter_bank.md R154). -/
theorem rasterPlane_length (c : Cfg) (f : PixelFormat) (mode : FilterMode) (m : Memory) :
    (rasterPlane c f mode m).length = planeLength c f := by
  have h : (effectiveRows c f m).map (fun r => r.length + 1) = List.replicate c.height.toNat (rowLength c f + 1) := by
    simp [effectiveRows, List.map_map, Function.comp_def, List.map_const']
  simp [rasterPlane, filteredPlane, filterBankRows_length, h, planeLength]

/-! ### Match finder -/

@[simp] theorem bucketGet_nil (k : Nat) : bucketGet [] k = [] := rfl

/-- A bucket holds what was last put into it. -/
theorem bucketGet_bucketSet_self (bs : List (Nat × List Nat)) (k : Nat) (es : List Nat) :
    bucketGet (bucketSet bs k es) k = es := by
  induction bs with
  | nil => simp [bucketSet, bucketGet]
  | cons b bs ih =>
    obtain ⟨j, old⟩ := b
    simp only [bucketSet]
    split
    · have : j ≠ k := by omega
      simp [bucketGet, this, ih]
    · split <;> simp [bucketGet]

theorem bucketGet_bucketSet_other (bs : List (Nat × List Nat)) {k k' : Nat} (es : List Nat) (h : k' ≠ k) :
    bucketGet (bucketSet bs k es) k' = bucketGet bs k' := by
  induction bs with
  | nil => simp [bucketSet, bucketGet, Ne.symm h]
  | cons b bs ih =>
    obtain ⟨j, old⟩ := b
    simp only [bucketSet]
    split
    · simp [bucketGet, ih]
    · split
      · rename_i hj
        subst hj
        simp [bucketGet, Ne.symm h]
      · simp [bucketGet, Ne.symm h]

/-- The match length lies between where it starts and its cap (43_lz77_match_finder.md R176). -/
theorem matchFrom_le (d : List Byte) (e j fuel m : Nat) : m ≤ matchFrom d e j fuel m ∧ matchFrom d e j fuel m ≤ m + fuel := by
  induction fuel generalizing m with
  | zero => simp [matchFrom]
  | succ fuel ih =>
    simp only [matchFrom]
    split
    · have := ih (m + 1); omega
    · omega

/-! ### Framer -/

/-- A chunk is 12 bytes more than its type less 4 and its payload (45_png_framer.md R241). -/
theorem chunk_length (type payload : List Byte) : (chunk type payload).length = type.length + payload.length + 8 := by
  simp [chunk]; omega

/-- The PNG stream is 57 bytes more than its zlib stream (45_png_framer.md R247). -/
theorem pngContainer_length (w h : Word) (f : PixelFormat) (z : List Byte) :
    (pngContainer w h f z).length = 57 + z.length := by
  simp [pngContainer, chunk_length, pngSignature, typeIhdr, typeIdat, typeIend, ihdr]; omega

end Sys2Proof.Machine
end

