-- ==== Sys2Proof/Tests/Slice0.lean ====
section
/-! SUPPORT. The model's own tests, with expected values from spec/95_test_vectors.md, and for every statement with
hypotheses a state and operands that meet them. -/

namespace Sys2Proof.Tests

open Sys2Proof.Machine

-- One theorem at a time: evaluated side by side the tests need more memory than one check has.
set_option Elab.async false

/-! ### Helpers -/

/-- Parameters a realisation may have: QMAX 100, FP_CAP 10^6, the default hash, LATENCY 0. -/
def testParams : Params := ⟨100, 1000000, 32768, hash3Default, 0x40000000, true, fun _ => 0⟩

/-- A memory that holds `bs` from `a` on. -/
def memoryAt (a : Word) (bs : List Byte) : Memory := Memory.writeBytes [] a bs

/-- A state in which the command of the word `w` has just been accepted. -/
def busy (w : Word) (c : Cfg) (m : Memory) : State :=
  { State.reset with cfg := c, mem := m, cmdWord := w, status := Status.reset.accepted }

/-- A state whose host is about to make one access. -/
def hosting (s : State) (op : HostOp) : State := { s with host := [op] }

/-- What a test looks at after a step: STATUS, RESULT, OUT_LEN and `n` bytes of memory from `a` on. -/
def seen (a : Word) (n : Nat) (o : Host.Outcome State Fault Refusal) : Option (Word × Word × Word × List Byte) :=
  match o with
  | .next t => some (t.status.word, t.result, t.outLen, t.mem.readBytes a n)
  | .fault _ => none
  | .refused _ => none

/-- A register after a step. -/
def seenReg (r : Reg) (o : Host.Outcome State Fault Refusal) : Option Word :=
  match o with
  | .next t => some (readReg r t)
  | .fault _ => none
  | .refused _ => none

/-- The interrupt output after a step. -/
def seenIrq (o : Host.Outcome State Fault Refusal) : Option Bool :=
  match o with
  | .next t => some t.irq
  | .fault _ => none
  | .refused _ => none

/-- The configuration of a byte-range command: source at 0x1000, destination at 0x2000. -/
def rangeCfg (len cap : Word) : Cfg := { Cfg.reset with srcBase := 0x1000, srcLen := len, dstBase := 0x2000, dstCap := cap }

/-- The configuration of a raster command. -/
def rasterCfg (w h : Word) (fmt : BitVec 8) (stride : Word) (mode : BitVec 4) (cap : Word) : Cfg :=
  { Cfg.reset with width := w, height := h, format := fmt, srcBase := 0x1000, srcStride := stride, filter := mode
                   dstBase := 0x2000, dstCap := cap }

/-! ### WellFormed refuses every ill-formed term -/

theorem test_ill_formed_reserved_nop : (Instr.reserved 0 0).wellFormed = false := by decide
theorem test_ill_formed_reserved_write_chunk : (Instr.reserved 0 6).wellFormed = false := by decide
theorem test_well_formed_reserved_first : (Instr.reserved 0 7).wellFormed = true := by decide
theorem test_well_formed_reserved_rsv : (Instr.reserved 1 1).wellFormed = true := by decide

/-! ### Decoding, from the words of 30_encoding.md R90 and R92 written out bit by bit -/

theorem test_decode_nop : decode 0b00000000000000000000000000000000 = .nop := by decide
theorem test_decode_encode_png : decode 0b00000000000000000000000000000001 = .encodePng := by decide
theorem test_decode_filter_image : decode 0b00000000000000000000000000000010 = .filterImage := by decide
theorem test_decode_zlib_compress : decode 0b00000000000000000000000000000011 = .zlibCompress := by decide
theorem test_decode_crc32 : decode 0b00000000000000000000000000000100 = .crc32 := by decide
theorem test_decode_adler32 : decode 0b00000000000000000000000000000101 = .adler32 := by decide
theorem test_decode_write_chunk : decode 0b00000000000000000000000000000110 = .writeChunk := by decide
/-- OPCODE 0x01 with RSV bit 8 set (46_commands.md R268). -/
theorem test_decode_reserved_rsv : decode 0b00000000000000000000000100000001 = .reserved 1 1 := by decide
theorem test_decode_reserved_opcode : decode 0b00000000000000000000000011111111 = .reserved 0 0xFF := by decide
theorem test_decode_longer_rejected : decodeBits 33 0 = .error (.longerThanOneWord 33) := by rfl

/-! ### The commands (95_test_vectors.md, V-CMD) -/

/-- V-CMD-2: STATUS 0x306 before. -/
theorem test_nop_clears_error :
    seen 0 0 (step { busy 0 Cfg.reset [] with status := (Status.mk false true true false 3).accepted, result := 7, outLen := 9 })
      = some (0x00000002, 7, 9, []) := by decide
/-- V-CMD-30: a success completion and its acceptance leave IGN. -/
theorem test_nop_keeps_ign :
    seen 0 0 (step { busy 0 Cfg.reset [] with status := (Status.mk false false false true 0).accepted })
      = some (0x0000000A, 0, 0, []) := by decide
/-- V-CMD-3. -/
theorem test_reserved_opcode :
    seen 0 0 (step { busy 0xFF Cfg.reset [] with result := 7, outLen := 9 }) = some (0x00000106, 0, 0, []) := by decide
/-- V-CMD-4: it is not ENCODE_PNG. -/
theorem test_reserved_rsv :
    seen 0x1000 2 (step (busy 0x101 (rasterCfg 1 1 0 1 0 99) (memoryAt 0x1000 [1, 2]))) = some (0x00000106, 0, 0, [1, 2]) := by
  decide
/-- V-CMD-21. -/
theorem test_crc32_check_value :
    seen 0x1000 1 (step (busy 4 (rangeCfg 9 0) (memoryAt 0x1000 [0x31, 0x32, 0x33, 0x34, 0x35, 0x36, 0x37, 0x38, 0x39])))
      = some (0x00000002, 0xCBF43926, 0, [0x31]) := by decide +kernel
/-- V-CMD-20. -/
theorem test_crc32_empty : seen 0 0 (step (busy 4 Cfg.reset [])) = some (0x00000002, 0, 0, []) := by decide +kernel
/-- V-CMD-22, its source wrapped round the end of the address space (20_memory.md R61). -/
theorem test_adler32_wrapped_source :
    seen 0 0 (step (busy 5 { Cfg.reset with srcBase := 0xFFFFFFFE, srcLen := 9 }
      (memoryAt 0xFFFFFFFE [0x31, 0x32, 0x33, 0x34, 0x35, 0x36, 0x37, 0x38, 0x39]))) = some (0x00000002, 0x091E01DE, 0, []) := by
  decide +kernel
/-- V-CMD-23, and the byte after the region (20_memory.md R67). -/
theorem test_write_chunk_text :
    seen 0x2000 16 (step (busy 6 { rangeCfg 3 15 with chunkType := 0x74455874 } (memoryAt 0x1000 [0x61, 0x62, 0x63])))
      = some (0x00000002, 0xFC859B88, 15,
          [0, 0, 0, 3, 0x74, 0x45, 0x58, 0x74, 0x61, 0x62, 0x63, 0xFC, 0x85, 0x9B, 0x88, 0]) := by decide +kernel
/-- V-CMD-25: PARAM wins over OVERFLOW. -/
theorem test_write_chunk_param :
    seen 0 0 (step (busy 6 (rangeCfg 0x80000000 0) [])) = some (0x00000306, 0, 0, []) := by decide +kernel
/-- V-CMD-19: QUALITY 0 is raised to 5. -/
theorem test_zlib_low_quality :
    (let s := busy 3 { rangeCfg 9 12 with quality := 0 } (memoryAt 0x1000 [0x61, 0x62, 0x63, 0x61, 0x62, 0x63, 0x61, 0x62, 0x63])
     seen 0x2000 12 (complete testParams .zlibCompress (runZlibCompress testParams s) s)) =
      some (0x00000002, 0x113D0373, 12, [0x78, 0x5E, 0x4B, 0x4C, 0x4A, 0x86, 0x20, 0x00, 0x11, 0x3D, 0x03, 0x73]) := by
  decide +kernel
/-- V-CMD-16. -/
theorem test_zlib_overflow :
    (let s := busy 3 (rangeCfg 0 7) []
     seen 0 0 (complete testParams .zlibCompress (runZlibCompress testParams s) s)) = some (0x00000506, 0, 0, []) := by
  decide +kernel
/-- V-CMD-15: QUALITY is not read; the plane of V-FLT-9, adaptive. -/
theorem test_filter_image_rgb :
    seen 0x2000 15 (step (busy 2 { rasterCfg 2 2 3 6 8 14 with quality := 0xFFFFFFFF }
      (memoryAt 0x1000 [0x0A, 0x14, 0x1E, 0x28, 0x32, 0x3C, 0x0B, 0x16, 0x21, 0x2C, 0x37, 0x42])))
      = some (0x00000002, 0x064800AF, 14,
          [0x01, 0x0A, 0x14, 0x1E, 0x1E, 0x1E, 0x1E, 0x02, 0x01, 0x02, 0x03, 0x04, 0x05, 0x06, 0x00]) := by decide +kernel
/-- V-FLT-12: Bgra32, FLIP, adaptive. -/
theorem test_filter_image_bgra_flip :
    seen 0x2000 10 (step (busy 2 { rasterCfg 1 2 2 4 8 10 with flip := true } (memoryAt 0x1000 [3, 2, 1, 4, 7, 6, 5, 8])))
      = some (0x00000002, 0x07D0021C, 10, [0x00, 0x05, 0x06, 0x07, 0x08, 0x03, 0xFF, 0xFF, 0x00, 0x00]) := by decide +kernel
/-- V-FLT-9: each forced MODE. -/
theorem test_filter_image_forced_modes :
    [1, 2, 3, 4].map (fun mode => seen 0x2000 14 (step (busy 2 (rasterCfg 2 2 3 6 mode 14)
      (memoryAt 0x1000 [0x0A, 0x14, 0x1E, 0x28, 0x32, 0x3C, 0x0B, 0x16, 0x21, 0x2C, 0x37, 0x42])))) =
    [some (0x00000002, 0x0803013E, 14,
       [0x01, 0x0A, 0x14, 0x1E, 0x1E, 0x1E, 0x1E, 0x01, 0x0B, 0x16, 0x21, 0x21, 0x21, 0x21]),
     some (0x00000002, 0x085E00EC, 14,
       [0x02, 0x0A, 0x14, 0x1E, 0x28, 0x32, 0x3C, 0x02, 0x01, 0x02, 0x03, 0x04, 0x05, 0x06]),
     some (0x00000002, 0x08520119, 14,
       [0x03, 0x0A, 0x14, 0x1E, 0x23, 0x28, 0x2D, 0x03, 0x06, 0x0C, 0x12, 0x13, 0x13, 0x14]),
     some (0x00000002, 0x068000B4, 14,
       [0x04, 0x0A, 0x14, 0x1E, 0x1E, 0x1E, 0x1E, 0x04, 0x01, 0x02, 0x03, 0x04, 0x05, 0x06])] := by decide +kernel
/-- V-FLT-13: Bgr24. -/
theorem test_filter_image_bgr :
    (step (busy 2 (rasterCfg 1 1 1 3 8 4) (memoryAt 0x1000 [0x30, 0x20, 0x10])) |> seen 0x2000 4).map (fun v => v.2.2)
      = some (4, [0x00, 0x10, 0x20, 0x30]) := by decide +kernel
/-- V-CMD-13 with the strided raster of program P2: the stream V-PNG-5. -/
theorem test_encode_png_gray :
    (let s := busy 1 (rasterCfg 2 2 0 4 0 71) (memoryAt 0x1000 [0x00, 0xFF, 0xEE, 0xEE, 0xFF, 0x00, 0xEE, 0xEE])
     seen 0x2000 71 (complete testParams .encodePng (runEncodePng testParams s) s)) =
      some (0x00000002, 0x060001FF, 71,
        [0x89, 0x50, 0x4E, 0x47, 0x0D, 0x0A, 0x1A, 0x0A,
         0x00, 0x00, 0x00, 0x0D, 0x49, 0x48, 0x44, 0x52, 0x00, 0x00, 0x00, 0x02, 0x00, 0x00, 0x00, 0x02,
         0x08, 0x00, 0x00, 0x00, 0x00, 0x57, 0xDD, 0x52, 0xF8,
         0x00, 0x00, 0x00, 0x0E, 0x49, 0x44, 0x41, 0x54, 0x78, 0x5E, 0x63, 0x60, 0xF8, 0xCF, 0xF0, 0x9F,
         0x01, 0x00, 0x06, 0x00, 0x01, 0xFF, 0xF2, 0x4A, 0xFD, 0x6D,
         0x00, 0x00, 0x00, 0x00, 0x49, 0x45, 0x4E, 0x44, 0xAE, 0x42, 0x60, 0x82]) := by decide +kernel
/-- V-CMD-7: FORMAT wins over PARAM and OVERFLOW. -/
theorem test_encode_png_format_first :
    seen 0 0 (step (busy 1 (rasterCfg 0 1 7 1 0 0) [])) = some (0x00000206, 0, 0, []) := by decide +kernel
/-- V-CMD-9: CAPACITY under every FP_CAP. -/
theorem test_encode_png_capacity :
    (runEncodePng testParams (busy 1 (rasterCfg 1 0x7FFFFFFF 0 1 0 0) [])).outcome = .error .capacity := by decide +kernel

/-! ### The units -/

/-- V-HASH-3, V-HASH-5. -/
theorem test_hash : hash3Default 0x61 0x62 0x63 = 14211 ∧ hash3Default 0xFF 0xFF 0xFF = 7102 := by decide
/-- V-LZ-7: the lazy rejection at i = 11. -/
theorem test_lazy_rejection :
    ((lz77 testParams [0x61, 0x62, 0x63, 0x58, 0x62, 0x63, 0x64, 0x65, 0x66, 0x67, 0x59, 0x61, 0x62, 0x63, 0x64, 0x65, 0x66, 0x67] 8).2.drop 11)
      = [.lit 0x61, .copy 6 8, .eob] := by decide +kernel
/-- The bucket of 43_lz77_match_finder.md R180's example. -/
theorem test_trim : pushTrimmed 5 [0, 8, 12, 16, 20, 24, 28, 32, 36, 40] 44 = [24, 28, 32, 36, 40, 44] := by decide
/-- V-FLT-8. -/
theorem test_paeth_ties :
    paeth 10 20 15 = 15 ∧ paeth 50 50 100 = 50 ∧ paeth 255 0 255 = 0 ∧ paeth 5 9 3 = 9 ∧ paeth 1 2 3 = 1 := by decide
/-- V-HUF-5, V-HUF-7, V-HUF-8, and the five-bit distance codes of 44_huffman_bitwriter.md R215. -/
theorem test_fixed_codes :
    huff 255 = ⟨0x1FF, 9⟩ ∧ huff 279 = ⟨0x74, 7⟩ ∧ huff 280 = ⟨0x03, 8⟩ ∧ distPut 3 = ⟨24, 5⟩ ∧ distPut 29 = ⟨23, 5⟩ := by
  decide
/-- V-HUF-10, V-HUF-11. -/
theorem test_tables :
    lengthCode 257 = ⟨27, 5, 30⟩ ∧ lengthCode 258 = ⟨28, 0, 0⟩ ∧ distanceCode 32768 = ⟨29, 13, 8191⟩ ∧
    distanceCode 24576 = ⟨28, 13, 8191⟩ := by decide

/-! ### The register window (V-CMD-27 to V-CMD-38) -/

/-- V-CMD-27, V-CMD-28: 1 to bit 1 clears DONE; 1 to bit 2 clears ERR and ERRCODE. -/
theorem test_status_write_one_to_clear :
    seenReg .status (hostStep testParams (stmtWr testParams .status (.word 0x2)) { State.reset with status := ⟨false, true, true, true, 3⟩ })
      = some 0x0000030C ∧
    seenReg .status (hostStep testParams (stmtWr testParams .status (.word 0x4)) { State.reset with status := ⟨false, false, true, true, 3⟩ })
      = some 0x00000008 := by decide
/-- V-CMD-31, V-CMD-32, V-CMD-33: reserved bits read 0. -/
theorem test_reserved_bits :
    seenReg .format (hostStep testParams (stmtWr testParams .format (.word 0x1FF)) State.reset) = some 0xFF ∧
    seenReg .filter (hostStep testParams (stmtWr testParams .filter (.word 0x18)) State.reset) = some 0x8 ∧
    seenReg .flags (hostStep testParams (stmtWr testParams .flags (.word 0xFFFFFFFF)) State.reset) = some 0x3 := by decide
/-- V-CMD-34: RESULT ignores a host write, and IGN stays. -/
theorem test_result_read_only :
    hostStep testParams (stmtWr testParams .result (.word 5)) State.reset = .next State.reset := by rfl
/-- V-CMD-38: a write while busy sets IGN alone. -/
theorem test_busy_write :
    hostStep testParams (stmtWr testParams .srcLen (.word 0)) (busy 5 (rangeCfg 9 0) [])
      = .next { busy 5 (rangeCfg 9 0) [] with status := ⟨true, false, false, true, 0⟩ } := by rfl
/-- V-CMD-37: IRQ_EN set while DONE = 1 raises IRQ at once. -/
theorem test_irq_enable :
    seenIrq (hostStep testParams (stmtWr testParams .flags (.word 0x2)) { State.reset with status := ⟨false, true, false, false, 0⟩ })
      = some true := by decide
/-- 20_memory.md R71: a narrow access and one past the window are not admitted. -/
theorem test_access_not_admitted :
    hostStep testParams (.regRead 0x40000004 2 "x") State.reset = .refused .accessNotAdmitted ∧
    hostStep testParams (.regRead 0x40000040 4 "x") State.reset = .refused .accessNotAdmitted := ⟨rfl, rfl⟩

/-! ### Host variables, loads and maintenance -/

/-- A host variable after a step. -/
def seenVar (name : String) (o : Host.Outcome State Fault Refusal) : Option Word :=
  match o with
  | .next t => some (varGet t.vars name)
  | .fault _ => none
  | .refused _ => none

/-- `RD OUT_LEN -> z` of program P4. -/
theorem test_read_into_variable :
    seenVar "z" (hostStep testParams (stmtRd testParams .outLen "z") { State.reset with outLen := 14, vars := [("c", 1)] })
      = some 14 := by decide
/-- `WR SRC_LEN, z` of program P4. -/
theorem test_write_variable :
    seenReg .srcLen (hostStep testParams (stmtWr testParams .srcLen (.var "z")) { State.reset with vars := [("c", 1), ("z", 14)] })
      = some 14 := by decide
/-- 30_encoding.md R95: WAIT reads STATUS into `s`. -/
theorem test_wait_reads_s :
    seenVar "s" (hostStep testParams stmtWait { State.reset with status := ⟨false, true, true, false, 2⟩ }) = some 0x00000206 := by
  decide

/-- A platform whose host caches the memory port does not see. -/
def incoherent : Params := { testParams with coherent := false }

/-- What the platform has on its way, what is stale, and one byte of memory, after a step. -/
def seenPlatform (a : Word) (o : Host.Outcome State Fault Refusal) : Option (List Word × List Span × Byte) :=
  match o with
  | .next t => some (t.platform.unflushed, t.platform.stale, t.mem.read a)
  | .fault _ => none
  | .refused _ => none

/-- WRITE_CHUNK of no payload, the host having stored 5 at the byte `a`. -/
def stored (a len : Word) : State :=
  { busy 6 (rangeCfg len 16) (memoryAt a [5]) with platform := ⟨[], [a], []⟩ }

/-- 60_exceptions.md R303, 20_memory.md R67: error PARAM leaves a byte the host stored to the region, and makes none stale. -/
theorem test_param_error_leaves_store :
    seenPlatform 0x2000 (complete incoherent .writeChunk (runWriteChunk (stored 0x2000 0x80000000)) (stored 0x2000 0x80000000))
      = some ([0x2000], [], 5) := by decide +kernel
/-- 20_memory.md R67: on success a byte past len(OUT) = 12 is left, and no byte past them is stale. -/
theorem test_tail_leaves_store :
    seenPlatform 0x200C (complete incoherent .writeChunk (runWriteChunk (stored 0x200C 0)) (stored 0x200C 0))
      = some ([0x200C], [⟨0x2000, 12⟩], 5) := by decide +kernel

/-! ### The words of the opcode table run as the next step -/

theorem test_placed_words_run :
    [0, 1, 2, 3, 4, 5, 6, 7].map (fun w => (seen 0 0 (step (State.reset.withFetchWord 32 w))).isSome)
      = List.replicate 8 true := by decide +kernel

/-! ### Witnesses: for every statement with hypotheses a state and operands that meet them -/

/-- EncodedCommandDecodesBack, PlacedWordIsCompleted: at the first reserved opcode and at the first RSV. -/
theorem witness_well_formed :
    (Instr.reserved 0 7).wellFormed = true ∧ (Instr.reserved 1 0).wellFormed = true ∧ Instr.writeChunk.wellFormed = true := by
  decide

/-- A busy command, its LATENCY not yet passed, IGN set, the host having written one destination byte. -/
def busyTouched : State :=
  { busy 6 (rangeCfg 3 15) (memoryAt 0x1000 [0x61, 0x62, 0x63]) with
    status := ⟨true, false, false, true, 0⟩, wait := 3, duty := ⟨false, [0x200E]⟩ }

theorem status_inv_accepted (ign : Bool) : (Status.mk true false false ign 0).Inv :=
  ⟨fun _ => rfl, fun _ => rfl, by simp, by simp⟩

/-- The invariant holds in a state that is not the reset state: busy, a destination byte touched. -/
theorem witness_inv_busy : busyTouched.Inv where
  memWf := by decide +kernel
  status := status_inv_accepted true
  resetIdle := by intro h; cases h
  idleClear := by intro h; cases h
  touchedInside := by
    intro a ha
    cases List.mem_singleton.1 ha
    decide +kernel
  coherentClear := fun _ => ⟨rfl, rfl⟩

/-- The same state asked to run with an access of the host to come. -/
theorem inv_hosting {s : State} (h : s.Inv) (op : HostOp) : (hosting s op).Inv :=
  ⟨h.memWf, h.status, h.resetIdle, h.idleClear, h.touchedInside, h.coherentClear⟩

/-- A completion due in a state that meets the invariant. -/
def busyDue : State := { busyTouched with wait := 0 }

theorem inv_busyDue : busyDue.Inv where
  memWf := witness_inv_busy.memWf
  status := status_inv_accepted true
  resetIdle := by intro h; cases h
  idleClear := by intro h; cases h
  touchedInside := witness_inv_busy.touchedInside
  coherentClear := fun _ => ⟨rfl, rfl⟩

/-- Every command completes from a state whose memory is all ordinary. -/
theorem exec_next_of_plain (i : Instr) {s : State} (h : s.platform.unserved = []) : ∃ t, exec i s = .next t := by
  rw [exec_eq_complete]
  exact ⟨_, complete_served (touchesUnserved_plain h)⟩

/-- StepKeepsInvariant: the engine's completion, a host access, and the end of reset. -/
theorem witness_StepKeepsInvariant :
    (busyDue.Inv ∧ ∃ t, step busyDue = .next t) ∧
    ((hosting busyTouched (.memWrite 0x2000 9)).Inv ∧ ∃ t, step (hosting busyTouched (.memWrite 0x2000 9)) = .next t) := by
  refine ⟨⟨inv_busyDue, ?_⟩, inv_hosting witness_inv_busy _, ?_⟩
  · rw [step_due (by rfl)]; exact exec_next_of_plain _ rfl
  · rw [step_host (by rfl) (by rfl)]; exact ⟨_, rfl⟩

/-- StepRunsAcceptedCommand: both clauses, the second for each of its three reasons. -/
theorem witness_StepRunsAcceptedCommand :
    (busyDue.status.busy = true ∧ busyDue.wait = 0 ∧ busyDue.inReset = false) ∧
    State.reset.status.busy = false ∧ 0 < busyTouched.wait ∧ { State.reset with inReset := true }.inReset = true := by decide

/-- ResetEndRestoresRegisters. -/
theorem witness_ResetEndRestoresRegisters :
    ∃ s : State, s.inReset = true ∧ s.status.busy = false ∧ s.host = [.releaseReset] ∧ readReg .srcLen s ≠ 0 :=
  ⟨{ hosting State.reset .releaseReset with inReset := true, cfg := rangeCfg 9 0 }, by decide⟩

/-- ResetAbandonsBusyCommand. -/
theorem witness_ResetAbandonsBusyCommand :
    ∃ s : State, s.Inv ∧ s.inReset = false ∧ s.status.busy = true ∧ 0 < s.wait ∧ s.host = [.assertReset] :=
  ⟨hosting busyTouched .assertReset, inv_hosting witness_inv_busy _, by decide⟩

/-- BusyRegisterWriteIgnored: at the first and the last register of the window. -/
theorem witness_BusyRegisterWriteIgnored (r : Reg) :
    ∃ s : State, s.status.busy = true ∧ 0 < s.wait ∧ s.inReset = false ∧
      s.host = [.regWrite (Config.chip.regBase + r.offset) 4 (.word 0xFFFFFFFF)] :=
  ⟨hosting busyTouched (.regWrite (Config.chip.regBase + r.offset) 4 (.word 0xFFFFFFFF)), rfl, Nat.zero_lt_succ 2, rfl, rfl⟩

/-- RegisterWriteReadsBack: for every register the statement covers, RESULT and OUT_LEN among them. -/
theorem witness_RegisterWriteReadsBack (r : Reg) :
    ∃ s : State, s.status.busy = false ∧ s.inReset = false ∧
      s.host = [.regWrite (Config.chip.regBase + r.offset) 4 (.word 0xFFFFFFFF)] :=
  ⟨hosting State.reset (.regWrite (Config.chip.regBase + r.offset) 4 (.word 0xFFFFFFFF)), rfl, rfl, rfl⟩
theorem witness_RegisterWriteReadsBack_registers : Reg.flags ≠ .cmd ∧ Reg.outLen ≠ .status ∧ Reg.result ≠ .cmd := by decide

/-- StatusFieldsAndClearing, ErrorStaysUntilCleared, InterruptFollowsDoneAndEnable: an idle CORE with an error recorded. -/
def failed : State := { State.reset with status := ⟨false, true, true, true, 3⟩ }

theorem witness_StatusFieldsAndClearing :
    failed.status.busy = false ∧ failed.inReset = false ∧ ∃ s : State, s.status = failed.status ∧ s.inReset = false ∧
      s.host = [.regWrite (Config.chip.regBase + 0x04) 4 (.word 0xE)] :=
  ⟨rfl, rfl, hosting failed (.regWrite (Config.chip.regBase + 0x04) 4 (.word 0xE)), rfl, rfl, rfl⟩

/-- RegisterReadHasNoSideEffect: while busy and while idle. -/
theorem witness_RegisterReadHasNoSideEffect (r : Reg) :
    (∃ s : State, s.engineDue = false ∧ s.inReset = false ∧ s.status.busy = true ∧
      s.host = [.regRead (Config.chip.regBase + r.offset) 4 "x"]) ∧
    (∃ s : State, s.engineDue = false ∧ s.inReset = false ∧ s.status.busy = false ∧
      s.host = [.regRead (Config.chip.regBase + r.offset) 4 "x"]) :=
  ⟨⟨hosting busyTouched (.regRead (Config.chip.regBase + r.offset) 4 "x"), rfl, rfl, rfl, rfl⟩,
   ⟨hosting State.reset (.regRead (Config.chip.regBase + r.offset) 4 "x"), rfl, rfl, rfl, rfl⟩⟩

/-- OnlyAlignedWordAccessAdmitted: the last offset inside the window is admitted; one past it, one not a multiple of 4 and a
narrow one are not. -/
theorem witness_OnlyAlignedWordAccessAdmitted :
    State.reset.engineDue = false ∧ State.reset.inReset = false ∧
    (let ok := fun addr bytes => bytes = 4 ∧ Config.chip.regBase ≤ addr ∧ (addr - Config.chip.regBase) % 4 = 0 ∧
      addr - Config.chip.regBase < 0x40
     ok (Config.chip.regBase + 0x3C) 4 ∧ ¬ok (Config.chip.regBase + 0x40) 4 ∧ ¬ok (Config.chip.regBase + 0x3E) 4 ∧
     ¬ok (Config.chip.regBase + 0x3C) 2) := by
  refine ⟨rfl, rfl, ?_, ?_, ?_, ?_⟩ <;> simp

/-- NoRegisterAccessDuringReset: each of the three accesses. -/
theorem witness_NoRegisterAccessDuringReset (op : HostOp) :
    ∃ s : State, s.inReset = true ∧ s.host = [op] := ⟨{ hosting State.reset op with inReset := true }, rfl, rfl⟩

/-- CommandWriteIsAccepted, ModeChangesOnlyByCommandOrReset (IDLE to BUSY), ErrorStaysUntilCleared: any word, written to
CMD after an error. -/
def commanding (w : Word) : State := hosting failed (.regWrite (Config.chip.regBase + 0x00) 4 (.word w))

theorem witness_CommandWriteIsAccepted (w : Word) :
    (commanding w).status.busy = false ∧ (commanding w).inReset = false ∧
    (commanding w).host = [.regWrite (Config.chip.regBase + 0x00) 4 (.word w)] := ⟨rfl, rfl, rfl⟩

/-- The step of that state is an acceptance. -/
theorem commanding_accepts (w : Word) :
    ∃ t, step (commanding w) = .next t ∧ t.status.busy = true := by
  have h : accessedReg Config.chip { commanding w with wait := 0, host := [] } (Config.chip.regBase + 0x00) 4 = .ok .cmd :=
    accessedReg_reg (r := .cmd) rfl
  rw [step_host (s := commanding w) (rest := []) (by rfl) rfl]
  refine ⟨accept Config.chip w { commanding w with wait := 0, host := [] }, ?_, rfl⟩
  simp only [hostStep]
  rw [show (commanding w).wait - 1 = 0 from rfl, h]
  rfl

/-- ModeChangesOnlyByCommandOrReset: a step from IDLE to BUSY, one from BUSY to IDLE by a completion, one by reset. -/
theorem witness_ModeChangesOnlyByCommandOrReset :
    (∃ s t, step s = .next t ∧ s.status.busy = false ∧ t.status.busy = true) ∧
    (∃ s t, step s = .next t ∧ s.engineDue = true ∧ s.status.busy = true ∧ t.status.busy = false) ∧
    (∃ s t, step s = .next t ∧ s.host = [.assertReset] ∧ s.status.busy = true ∧ t.status.busy = false) := by
  refine ⟨?_, ?_, ?_⟩
  · obtain ⟨t, ht, hb⟩ := commanding_accepts 4
    exact ⟨_, t, ht, rfl, hb⟩
  · obtain ⟨t, ht⟩ := exec_next_of_plain .writeChunk (s := busyDue) rfl
    refine ⟨busyDue, t, by rw [step_due (by rfl)]; exact ht, rfl, rfl, ?_⟩
    rw [exec_eq_complete] at ht
    exact (complete_frame ht).idle
  · have h := step_host (s := hosting busyTouched .assertReset) (op := .assertReset) (rest := []) rfl rfl
    exact ⟨hosting busyTouched .assertReset, _, h, rfl, rfl, rfl⟩

/-- ErrorStaysUntilCleared: a step that keeps the error, and one (an acceptance) that clears it. -/
theorem witness_ErrorStaysUntilCleared :
    (∃ t, failed.status.busy = false ∧ failed.status.err = true ∧ step failed = .next t ∧ t.status.err = true) ∧
    ((commanding 4).status.busy = false ∧ (commanding 4).status.err = true ∧ ∃ t, step (commanding 4) = .next t) := by
  refine ⟨⟨tick failed, rfl, rfl, step_silent rfl rfl, rfl⟩, rfl, rfl, ?_⟩
  obtain ⟨t, ht, -⟩ := commanding_accepts 4
  exact ⟨t, ht⟩

/-- InterruptFollowsDoneAndEnable: a completion with IRQ_EN = 1, and the three register writes. -/
theorem witness_InterruptFollowsDoneAndEnable :
    (∃ s t, exec .nop s = .next t ∧ s.cfg.irqEn = true) ∧
    (∃ s : State, s.status.busy = false ∧ s.inReset = false ∧ s.status.done = true ∧
      s.host = [.regWrite (Config.chip.regBase + 0x30) 4 (.word 2)]) ∧
    (∃ s : State, s.status.busy = false ∧ s.inReset = false ∧ s.status.done = true ∧
      s.host = [.regWrite (Config.chip.regBase + 0x04) 4 (.word 2)] ∧ (hostValue (.word 2) s.vars).getLsbD 1 = true) ∧
    (∃ s : State, s.status.busy = false ∧ s.inReset = false ∧ s.host = [.regWrite (Config.chip.regBase + 0x00) 4 (.word 0)]) := by
  refine ⟨?_, ?_, ?_, commanding 0, rfl, rfl, rfl⟩
  · obtain ⟨t, ht⟩ := exec_next_of_plain .nop (s := busy 0 { Cfg.reset with irqEn := true } []) rfl
    exact ⟨_, t, ht, rfl⟩
  · exact ⟨hosting failed (.regWrite (Config.chip.regBase + 0x30) 4 (.word 2)), rfl, rfl, rfl, rfl⟩
  · exact ⟨hosting failed (.regWrite (Config.chip.regBase + 0x04) 4 (.word 2)), rfl, rfl, rfl, rfl, by decide⟩

/-! #### Completions: states that keep every duty -/

/-- A freshly accepted command on a plain platform keeps every duty if its source and destination do not overlap. -/
theorem duties_kept {p : Params} {i : Instr} {w : Word} {c : Cfg} {m : Memory}
    (h : sourceOverlaps p i (busy w c m) = false) (o : RunOutcome) : DutiesKept p i o (busy w c m) where
  served := touchesUnserved_plain rfl
  undisturbed := rfl
  untouched := rfl
  flushed := by intro a ha; cases ha
  disjoint := h

/-- A command without a destination region cannot overlap it. -/
theorem no_overlap {p : Params} {i : Instr} {s : State} (h : writeRegion i s.cfg = none) : sourceOverlaps p i s = false := by
  simp [sourceOverlaps, h]

/-- A destination region of no bytes overlaps nothing. -/
theorem no_overlap_empty {p : Params} {i : Instr} {s : State} (h : s.cfg.dstCap = 0) : sourceOverlaps p i s = false := by
  rw [← Bool.not_eq_true, sourceOverlaps, spansMeet_iff]
  rintro ⟨a, -, ha⟩
  cases i <;> simp [writeRegion, h, Span.holds] at ha

/-- NopCompletes, ReservedWordCompletesWithOpcodeError, Crc32CommandResult, Adler32CommandResult: also with SRC_LEN 0. -/
theorem witness_no_region (o : RunOutcome) (len : Word) :
    DutiesKept Config.chip .nop o (busy 0 (rangeCfg len 0) []) ∧
    DutiesKept Config.chip (.reserved 0 7) o (busy 7 (rangeCfg len 0) []) ∧
    DutiesKept Config.chip (.reserved 0xFFFFFF 0) o (busy 0xFFFFFF00 (rangeCfg len 0) []) ∧
    DutiesKept Config.chip .crc32 o (busy 4 (rangeCfg len 0) []) ∧
    DutiesKept Config.chip .adler32 o (busy 5 (rangeCfg len 0) []) :=
  ⟨duties_kept (no_overlap rfl) o, duties_kept (no_overlap rfl) o, duties_kept (no_overlap rfl) o,
   duties_kept (no_overlap rfl) o, duties_kept (no_overlap rfl) o⟩

/-- The state of V-CMD-23: DST_CAP is exactly the chunk's length. -/
def chunkState (cap : Word) : State := busy 6 { rangeCfg 3 cap with chunkType := 0x74455874 } (memoryAt 0x1000 [0x61, 0x62, 0x63])

/-- WriteChunkFramesPayload: a payload whose chunk fits exactly. -/
theorem witness_WriteChunkFramesPayload (o : RunOutcome) :
    (chunkState 15).mem.wf = true ∧ (chunkState 15).cfg.srcLen.toNat ≤ 2 ^ 31 - 1 ∧
    (chunkState 15).cfg.srcLen.toNat + 12 ≤ (chunkState 15).cfg.dstCap.toNat ∧
    DutiesKept Config.chip .writeChunk o (chunkState 15) := by
  refine ⟨by decide +kernel, by decide, by decide, duties_kept ?_ o⟩
  decide +kernel

/-- A compressor input of one byte, which every FP_CAP admits. -/
def zlibState : State := busy 3 (rangeCfg 1 9) (memoryAt 0x1000 [0x61])

theorem zlib_no_overlap (p : Params) (c : Cfg) (m : Memory)
    (h : (byteRangeSpan c).meets ⟨c.dstBase, c.dstCap.toNat⟩ = false) : sourceOverlaps p .zlibCompress (busy 3 c m) = false := by
  show spansMeet (if (firstFailure (zlibChecks p c)).isSome = true then [] else [byteRangeSpan c])
    [⟨c.dstBase, c.dstCap.toNat⟩] = false
  by_cases hb : (firstFailure (zlibChecks p c)).isSome = true
  · rw [if_pos hb]; rfl
  · rw [if_neg hb]; simp [spansMeet, h]

/-- ZlibCompressWritesStream: V-Z-2, DST_CAP exactly its 9 bytes. -/
theorem witness_ZlibCompressWritesStream (o : RunOutcome) :
    zlibState.mem.wf = true ∧ zlibState.cfg.quality.toNat ≤ Config.chip.qmax ∧
    zlibState.cfg.srcLen.toNat ≤ Config.chip.fpCap ∧
    (zlibByBits Config.chip (sourceBytes zlibState.cfg zlibState.mem) (max zlibState.cfg.quality.toNat 5)).length
      ≤ zlibState.cfg.dstCap.toNat ∧
    DutiesKept Config.chip .zlibCompress o zlibState := by
  refine ⟨by decide +kernel, ?_, ?_, by decide +kernel, duties_kept (zlib_no_overlap _ _ _ (by decide +kernel)) o⟩
  · show 8 ≤ Config.qmaxOver8 + 8; omega
  · show 1 ≤ Config.fpCapLess1.toNat + 1; omega

/-- The state of V-CMD-15 with the plane's length as DST_CAP. -/
def filterState (cap : Word) : State :=
  busy 2 (rasterCfg 2 2 3 6 8 cap) (memoryAt 0x1000 [0x0A, 0x14, 0x1E, 0x28, 0x32, 0x3C, 0x0B, 0x16, 0x21, 0x2C, 0x37, 0x42])

/-- FilterImageWritesPlane: adaptive, the plane fits exactly. -/
theorem witness_FilterImageWritesPlane (o : RunOutcome) :
    (filterState 14).mem.wf = true ∧ ((filterState 14).cfg.format, .rgb24) ∈ formatCodes ∧
    ((filterState 14).cfg.filter, .adaptive) ∈ modeCodes ∧ ¬badDimensions (filterState 14).cfg ∧
    planeSize (filterState 14).cfg ≤ (filterState 14).cfg.dstCap.toNat ∧
    DutiesKept Config.chip .filterImage o (filterState 14) := by
  refine ⟨by decide +kernel, by decide, by decide, by decide, by decide, duties_kept ?_ o⟩
  decide +kernel

/-- A Gray8 raster of one pixel, forced to filter 0. -/
def encodeState (mode : BitVec 4) (cap : Word) : State := busy 1 (rasterCfg 1 1 0 1 mode cap) []

theorem encode_no_overlap (p : Params) (c : Cfg) (m : Memory) {f : PixelFormat} (hf : pixelFormat c.format = some f)
    (h : spansMeet (rasterSpans c f) [⟨c.dstBase, c.dstCap.toNat⟩] = false) :
    sourceOverlaps p .encodePng (busy 1 c m) = false := by
  have hr : readSpans p .encodePng c = if (firstFailure (encodeChecks p c f)).isSome = true then [] else rasterSpans c f := by
    simp only [readSpans, hf]
  show spansMeet (readSpans p .encodePng c) [⟨c.dstBase, c.dstCap.toNat⟩] = false
  rw [hr]
  by_cases hb : (firstFailure (encodeChecks p c f)).isSome = true
  · rw [if_pos hb]; rfl
  · rw [if_neg hb]; exact h

/-- EncodePngWritesStream: V-PNG-7, DST_CAP exactly its 67 bytes, under every value of the OPEN parameters. -/
theorem witness_EncodePngWritesStream (o : RunOutcome) :
    (encodeState 0 67).mem.wf = true ∧ ((encodeState 0 67).cfg.format, .gray8) ∈ formatCodes ∧
    ((encodeState 0 67).cfg.filter, .forced .none) ∈ modeCodes ∧ ¬badDimensions (encodeState 0 67).cfg ∧
    (encodeState 0 67).cfg.quality.toNat ≤ Config.chip.qmax ∧
    (pngByParts Config.chip (encodeState 0 67).cfg .gray8
      (rasterPlane (encodeState 0 67).cfg .gray8 (.forced .none) (encodeState 0 67).mem)).length
        ≤ (encodeState 0 67).cfg.dstCap.toNat ∧
    DutiesKept Config.chip .encodePng o (encodeState 0 67) := by
  refine ⟨by decide, by decide, by decide, by decide, ?_, by decide +kernel, duties_kept (encode_no_overlap _ _ _ rfl (by decide +kernel)) o⟩
  show 8 ≤ Config.qmaxOver8 + 8
  omega

/-- EncodePngUnderAnyParameters: FP_CAP exactly the plane's length, QMAX exactly QUALITY, DST_CAP exactly the stream's. -/
theorem witness_EncodePngUnderAnyParameters (o : RunOutcome) :
    ∃ p : Params, p.maxDist ≤ 32768 ∧ (encodeState 8 67).cfg.quality.toNat = p.qmax ∧ planeSize (encodeState 8 67).cfg = p.fpCap ∧
    (encodeState 8 67).mem.wf = true ∧ ((encodeState 8 67).cfg.format, .gray8) ∈ formatCodes ∧
    ((encodeState 8 67).cfg.filter, .adaptive) ∈ modeCodes ∧ ¬badDimensions (encodeState 8 67).cfg ∧
    (pngByParts p (encodeState 8 67).cfg .gray8
      (rasterPlane (encodeState 8 67).cfg .gray8 .adaptive (encodeState 8 67).mem)).length
        = (encodeState 8 67).cfg.dstCap.toNat ∧
    DutiesKept p .encodePng o (encodeState 8 67) :=
  ⟨{ testParams with qmax := 8, fpCap := 2 }, by decide, by decide, by decide, by decide, by decide, by decide, by decide, by decide +kernel,
   duties_kept (encode_no_overlap _ _ _ rfl (by decide +kernel)) o⟩

/-! #### ErrorsFollowPriority: one witness for each clause -/

/-- FP_CAP is at most 2^30 (00_scope.md R8). -/
theorem fpCap_le : Config.chip.fpCap ≤ 2 ^ 30 := by
  have := Config.fpCapLess1.isLt
  show Config.fpCapLess1.toNat + 1 ≤ 2 ^ 30
  omega

/-- FORMAT at its first value, 4. -/
theorem witness_Errors_encode_format :
    3 < (busy 1 (rasterCfg 0 0 4 0 5 0) []).cfg.format.toNat ∧
    DutiesKept Config.chip .encodePng (.error .format) (busy 1 (rasterCfg 0 0 4 0 5 0) []) :=
  ⟨by decide, duties_kept rfl _⟩

/-- PARAM: WIDTH 0, HEIGHT 2^31, MODE 5, each alone. -/
theorem witness_Errors_encode_param :
    badDimensions (rasterCfg 0 1 0 0 8 0) ∧ badDimensions (rasterCfg 1 0x80000000 0 0 8 0) ∧ badMode (rasterCfg 1 1 0 0 5 0) ∧
    DutiesKept Config.chip .encodePng (.error .param) (busy 1 (rasterCfg 0 1 0 0 8 0) []) :=
  ⟨by decide, by decide, by decide, duties_kept rfl _⟩

/-- CAPACITY: V-CMD-9, under every FP_CAP. -/
theorem witness_Errors_encode_capacity :
    ¬3 < (rasterCfg 1 0x7FFFFFFF 0 1 0 0).format.toNat ∧ ¬badDimensions (rasterCfg 1 0x7FFFFFFF 0 1 0 0) ∧
    ¬badMode (rasterCfg 1 0x7FFFFFFF 0 1 0 0) ∧ ¬Config.chip.qmax < (rasterCfg 1 0x7FFFFFFF 0 1 0 0).quality.toNat ∧
    Config.chip.fpCap < planeSize (rasterCfg 1 0x7FFFFFFF 0 1 0 0) ∧
    DutiesKept Config.chip .encodePng (.error .capacity) (busy 1 (rasterCfg 1 0x7FFFFFFF 0 1 0 0) []) := by
  have hq : ¬Config.chip.qmax < (rasterCfg 1 0x7FFFFFFF 0 1 0 0).quality.toNat := by
    show ¬(Config.qmaxOver8 + 8 < 8); omega
  have hc : Config.chip.fpCap < planeSize (rasterCfg 1 0x7FFFFFFF 0 1 0 0) := by
    have : planeSize (rasterCfg 1 0x7FFFFFFF 0 1 0 0) = 2 * 0x7FFFFFFF := rfl
    have := fpCap_le
    omega
  exact ⟨by decide, by decide, by decide, hq, hc, duties_kept (no_overlap_empty rfl) _⟩

/-- OVERFLOW of ENCODE_PNG: V-PNG-7 with DST_CAP one byte too small. No FP_CAP below 2 admits a raster, so the code is
CAPACITY there. -/
theorem witness_Errors_encode_overflow :
    ¬3 < (encodeState 0 66).cfg.format.toNat ∧ ¬badDimensions (encodeState 0 66).cfg ∧ ¬badMode (encodeState 0 66).cfg ∧
    ¬Config.chip.qmax < (encodeState 0 66).cfg.quality.toNat ∧ planeSize (encodeState 0 66).cfg = 2 ∧
    (∃ f mode, ((encodeState 0 66).cfg.format, f) ∈ formatCodes ∧ ((encodeState 0 66).cfg.filter, mode) ∈ modeCodes ∧
      (encodeState 0 66).cfg.dstCap.toNat <
        57 + (zlib Config.chip (rasterPlane (encodeState 0 66).cfg f mode (encodeState 0 66).mem)
          (max (encodeState 0 66).cfg.quality.toNat 5)).length) ∧
    DutiesKept Config.chip .encodePng (.error (if Config.chip.fpCap < 2 then .capacity else .overflow)) (encodeState 0 66) := by
  refine ⟨by decide, by decide, by decide, ?_, rfl, ⟨.gray8, .forced .none, by decide, by decide, by decide +kernel⟩,
    duties_kept (encode_no_overlap _ _ _ rfl (by decide +kernel)) _⟩
  show ¬(Config.qmaxOver8 + 8 < 8)
  omega

/-- FILTER_IMAGE: FORMAT, PARAM (MODE 9) and OVERFLOW with DST_CAP one byte too small. -/
theorem witness_Errors_filter :
    DutiesKept Config.chip .filterImage (.error .format) (busy 2 (rasterCfg 1 1 4 1 8 99) []) ∧
    (badMode (rasterCfg 1 1 0 1 9 99) ∧
      DutiesKept Config.chip .filterImage (.error .param) (busy 2 (rasterCfg 1 1 0 1 9 99) [])) ∧
    (¬3 < (filterState 13).cfg.format.toNat ∧ ¬badDimensions (filterState 13).cfg ∧ ¬badMode (filterState 13).cfg ∧
      (filterState 13).cfg.dstCap.toNat < planeSize (filterState 13).cfg ∧
      DutiesKept Config.chip .filterImage (.error .overflow) (filterState 13)) := by
  refine ⟨duties_kept rfl _, ⟨by decide, duties_kept (by decide +kernel) _⟩, by decide, by decide, by decide, by decide,
    duties_kept (by decide +kernel) _⟩

/-- ZLIB_COMPRESS: PARAM at the largest QUALITY where QMAX is below it, CAPACITY at the largest SRC_LEN, OVERFLOW at V-CMD-16. -/
theorem witness_Errors_zlib :
    (¬Config.chip.qmax < (rangeCfg 0xFFFFFFFF 0).quality.toNat ∧ Config.chip.fpCap < (rangeCfg 0xFFFFFFFF 0).srcLen.toNat ∧
      DutiesKept Config.chip .zlibCompress (.error .capacity) (busy 3 (rangeCfg 0xFFFFFFFF 0) [])) ∧
    (¬Config.chip.qmax < (rangeCfg 0 7).quality.toNat ∧ ¬Config.chip.fpCap < (rangeCfg 0 7).srcLen.toNat ∧
      (rangeCfg 0 7).dstCap.toNat < (zlib Config.chip (sourceBytes (rangeCfg 0 7) []) (max (rangeCfg 0 7).quality.toNat 5)).length ∧
      DutiesKept Config.chip .zlibCompress (.error .overflow) (busy 3 (rangeCfg 0 7) [])) ∧
    DutiesKept Config.chip .zlibCompress (.error (if Config.chip.qmax < 0xFFFFFFFF then .param else .overflow))
      (busy 3 { rangeCfg 0 7 with quality := 0xFFFFFFFF } []) := by
  have h := fpCap_le
  refine ⟨⟨?_, ?_, duties_kept (zlib_no_overlap _ _ _ (by decide +kernel)) _⟩,
    ⟨?_, ?_, by decide +kernel, duties_kept (zlib_no_overlap _ _ _ (by decide +kernel)) _⟩,
    duties_kept (zlib_no_overlap _ _ _ (by decide +kernel)) _⟩
  · show ¬(Config.qmaxOver8 + 8 < 8); omega
  · show Config.chip.fpCap < 0xFFFFFFFF; omega
  · show ¬(Config.qmaxOver8 + 8 < 8); omega
  · exact Nat.not_lt_zero _

/-- WRITE_CHUNK: PARAM at 2^31, OVERFLOW with DST_CAP one byte too small; and a reserved word. -/
theorem witness_Errors_chunk :
    (2 ^ 31 - 1 < (rangeCfg 0x80000000 0).srcLen.toNat ∧
      DutiesKept Config.chip .writeChunk (.error .param) (busy 6 (rangeCfg 0x80000000 0) [])) ∧
    (¬2 ^ 31 - 1 < (chunkState 14).cfg.srcLen.toNat ∧ (chunkState 14).cfg.dstCap.toNat < (chunkState 14).cfg.srcLen.toNat + 12 ∧
      DutiesKept Config.chip .writeChunk (.error .overflow) (chunkState 14)) ∧
    DutiesKept Config.chip (.reserved 0 7) (.error .opcode) (busy 7 Cfg.reset []) :=
  ⟨⟨by decide, duties_kept (by decide +kernel) _⟩, ⟨by decide, by decide, duties_kept (by decide +kernel) _⟩,
   duties_kept rfl _⟩

/-! #### Frames, determinism and progress -/

/-- EngineWritesOnlyDestination: a command whose destination the host touched. -/
theorem witness_EngineWritesOnlyDestination :
    (∀ a ∈ busyDue.duty.dstWritten, spansHold (writeRegion .writeChunk busyDue.cfg).toList a = true) ∧
    busyDue.duty.dstWritten ≠ [] ∧ ∃ t, exec .writeChunk busyDue = .next t :=
  ⟨inv_busyDue.touchedInside, by decide, exec_next_of_plain _ rfl⟩

/-- DestinationTailUnchanged: a success that fills 15 of 16 bytes, and an error of each kind. -/
theorem witness_DestinationTailUnchanged :
    (∃ t, exec .writeChunk (chunkState 16) = .next t ∧ t.status.err = false) ∧
    DutiesKept Config.chip .writeChunk (runOf Config.chip .writeChunk (chunkState 16)).outcome (chunkState 16) ∧
    (∃ t, exec .writeChunk (chunkState 14) = .next t ∧ t.status.err = true) ∧
    DutiesKept Config.chip .writeChunk (runOf Config.chip .writeChunk (chunkState 14)).outcome (chunkState 14) ∧
    (∃ t, exec (.reserved 0 7) (busy 7 Cfg.reset []) = .next t ∧ t.status.err = true ∧ t.status.errCode ≠ ErrCode.overflow.code) := by
  have d16 : ∀ o, DutiesKept Config.chip .writeChunk o (chunkState 16) := fun o => duties_kept (by decide +kernel) o
  have d14 : ∀ o, DutiesKept Config.chip .writeChunk o (chunkState 14) := fun o => duties_kept (by decide +kernel) o
  have ok16 : (runWriteChunk (chunkState 16)).outcome =
      .ok [0, 0, 0, 3, 0x74, 0x45, 0x58, 0x74, 0x61, 0x62, 0x63, 0xFC, 0x85, 0x9B, 0x88] 0xFC859B88 := by decide +kernel
  have ov14 : (runWriteChunk (chunkState 14)).outcome = .error .overflow := by decide +kernel
  refine ⟨?_, d16 _, ?_, d14 _, ?_⟩
  · obtain ⟨t, ht, hs⟩ := complete_success (p := Config.chip) ok16 (d16 _) (by decide +kernel) (by decide)
    exact ⟨t, ht, hs.err⟩
  · obtain ⟨t, ht, he⟩ := complete_error (p := Config.chip) (i := .writeChunk) (r := runWriteChunk (chunkState 14))
      (c := .overflow) ov14 (d14 _)
    exact ⟨t, ht, he.err⟩
  · obtain ⟨t, ht, he⟩ := complete_error (p := Config.chip) (i := .reserved 0 7) (r := runReserved) (c := .opcode) rfl
      (duties_kept (w := 7) (c := Cfg.reset) (m := []) rfl _)
    exact ⟨t, ht, he.err, by rw [he.errCode]; decide⟩

/-- CompletionDependsOnSourceOnly: two states that differ outside the bytes the command reads. -/
theorem witness_CompletionDependsOnSourceOnly :
    ∃ s₁ s₂ : State, s₁.mem.wf = true ∧ s₂.mem.wf = true ∧ s₁.cfg = s₂.cfg ∧ s₁.result = s₂.result ∧ s₁.outLen = s₂.outLen ∧
      s₁.mem ≠ s₂.mem ∧
      (∀ a, spansHold (readSpans Config.chip .writeChunk s₁.cfg) a = true → s₁.mem.read a = s₂.mem.read a) ∧
      DutiesKept Config.chip .writeChunk (runOf Config.chip .writeChunk s₁).outcome s₁ ∧
      DutiesKept Config.chip .writeChunk (runOf Config.chip .writeChunk s₂).outcome s₂ ∧
      (∃ t, exec .writeChunk s₁ = .next t) ∧ (∃ t, exec .writeChunk s₂ = .next t) := by
  refine ⟨chunkState 15, { chunkState 15 with mem := (chunkState 15).mem.write 0x5000 7 }, by decide +kernel, by decide +kernel,
    rfl, rfl, rfl, by decide +kernel, ?_, duties_kept (by decide +kernel) _,
    duties_kept (m := (chunkState 15).mem.write 0x5000 7) (by decide +kernel) _, exec_next_of_plain _ rfl, exec_next_of_plain _ rfl⟩
  intro a ha
  show (chunkState 15).mem.read a = ((chunkState 15).mem.write 0x5000 7).read a
  refine (read_write_other _ _ fun h => ?_).symm
  subst h
  revert ha
  decide +kernel

/-- BusyCommandCompletesInLatency, WaitEndsAtCompletion: a busy command three steps from its completion. -/
theorem witness_completes :
    (busyTouched.status.busy = true ∧ busyTouched.inReset = false ∧ busyTouched.host = [] ∧ busyTouched.platform.unserved = []) ∧
    (∃ s : State, s.status.busy = true ∧ s.inReset = false ∧ s.host = [.wait] ∧ s.platform.unserved = [] ∧ s.wait = 3) :=
  ⟨by decide, hosting busyTouched .wait, by decide⟩

/-- HostStoreWritesItsByte: while idle, and while busy at a byte of the source and at the last byte of the destination. -/
theorem witness_HostStoreWritesItsByte :
    ∀ s ∈ [hosting State.reset (.memWrite 0xFFFFFFFF 1), hosting busyTouched (.memWrite 0x1000 1),
        hosting busyTouched (.memWrite 0x200E 1)],
      s.mem.wf = true ∧ s.engineDue = false ∧ s.platform.unserved = [] := by decide +kernel

/-- HostLoadSeesCompletion, its first two clauses: a load of a byte outside and inside a busy command's region, of a stale
byte, and maintenance of an unflushed byte of the source. -/
theorem witness_HostLoadSeesCompletion :
    (∀ s ∈ [hosting State.reset (.memRead 0xFFFFFFFF), hosting busyTouched (.memRead 0x200F),
        hosting busyTouched (.memRead 0x200E), hosting { State.reset with platform := ⟨[], [], [⟨0x2000, 12⟩]⟩ } (.memRead 0x200B),
        hosting { busyTouched with platform := ⟨[], [0x1000], []⟩ } .maintain],
      s.engineDue = false ∧ s.platform.unserved = []) ∧
    spansHold (writeRegion (decode busyTouched.cmdWord) busyTouched.cfg).toList 0x200E = true ∧
    spansHold (writeRegion (decode busyTouched.cmdWord) busyTouched.cfg).toList 0x200F = false ∧
    spansHold [⟨0x2000, 12⟩] 0x200B = true := by decide +kernel

/-- What the host has still to do matters to no run and to no duty. -/
theorem runOf_host (p : Params) (i : Instr) (s : State) (ops : List HostOp) :
    runOf p i { s with host := ops } = runOf p i s := by cases i <;> rfl
theorem duties_host {p : Params} {i : Instr} {o : RunOutcome} {s : State} (h : DutiesKept p i o s) (ops : List HostOp) :
    DutiesKept p i o { s with host := ops } :=
  ⟨h.served, h.undisturbed, h.untouched, h.flushed, h.disjoint⟩

/-- HostLoadSeesCompletion, its last clause: the first and the last of the 15 bytes of V-CMD-23. -/
theorem witness_HostLoadSeesCompletion_output (ops : List HostOp) :
    ∃ out res, ∃ s : State, s.host = ops ∧ s.engineDue = true ∧ s.mem.wf = true ∧ s.platform.unserved = [] ∧
      (runOf Config.chip (decode s.cmdWord) s).outcome = .ok out res ∧
      DutiesKept Config.chip (decode s.cmdWord) (.ok out res) s ∧ out.length = 15 := by
  have d : ∀ o, DutiesKept Config.chip .writeChunk o (chunkState 15) := fun o => duties_kept (by decide +kernel) o
  have run : (runWriteChunk (chunkState 15)).outcome =
      .ok [0, 0, 0, 3, 0x74, 0x45, 0x58, 0x74, 0x61, 0x62, 0x63, 0xFC, 0x85, 0x9B, 0x88] 0xFC859B88 := by decide +kernel
  have hm : (chunkState 15).mem.wf = true := by decide +kernel
  have hi : decode (chunkState 15).cmdWord = .writeChunk := by decide
  refine ⟨[0, 0, 0, 3, 0x74, 0x45, 0x58, 0x74, 0x61, 0x62, 0x63, 0xFC, 0x85, 0x9B, 0x88], 0xFC859B88,
    { chunkState 15 with host := ops }, rfl, rfl, hm, rfl, ?_, ?_, rfl⟩
  · simp only [hi]
    rw [runOf_host]
    exact run
  · simp only [hi]
    exact duties_host (d _) ops

/-- RegisterWriteReadsBack, CommandWriteIsAccepted: a value that an earlier read put into a variable. -/
theorem witness_variable_value : hostValue (.var "z") (varSet [("c", 1)] "z" 14) = 14 := by decide

/-! #### The units -/

/-- FilterBytesFollowRules, EffectiveRasterFollowsRegisters: the last byte of a row of two pixels; the first byte is another. -/
theorem witness_rows :
    5 < ([0x0B, 0x16, 0x21, 0x2C, 0x37, 0x42] : List Byte).length ∧ 0 < ([0x0B] : List Byte).length ∧
    1 < (filterState 14).cfg.height.toNat ∧ 1 < (filterState 14).cfg.width.toNat ∧ 2 < PixelFormat.rgb24.channels ∧
    3 < PixelFormat.bgra32.channels := by decide

/-- RowZeroDegenerates: the first pixel and a later one. -/
theorem witness_RowZeroDegenerates : 0 < ([5, 5, 5] : List Byte).length ∧ 2 < ([5, 5, 5] : List Byte).length := by decide

/-- AdaptiveSelectsLeastCost: an all-zero row. -/
theorem witness_AdaptiveSelectsLeastCost : ∀ b ∈ ([0, 0, 0] : List Byte), b = 0 := by decide

/-- PaethPicksNearest: the two ties of V-FLT-8, each with its premises. -/
theorem witness_PaethPicksNearest :
    (((50 : Int) + 50 - 100 - 50).natAbs ≤ ((50 : Int) + 50 - 100 - 50).natAbs ∧
      ((50 : Int) + 50 - 100 - 50).natAbs ≤ ((50 : Int) + 50 - 100 - 100).natAbs) ∧
    (¬(((5 : Int) + 9 - 3 - 5).natAbs ≤ ((5 : Int) + 9 - 3 - 9).natAbs ∧
        ((5 : Int) + 9 - 3 - 5).natAbs ≤ ((5 : Int) + 9 - 3 - 3).natAbs) ∧
      ((5 : Int) + 9 - 3 - 9).natAbs ≤ ((5 : Int) + 9 - 3 - 3).natAbs) := by decide

/-- FilterPlaneIsReversible: two rows of one length, and an all-zero raster of none. -/
theorem witness_FilterPlaneIsReversible :
    (∀ r ∈ ([[0x0A, 0x14, 0x1E], [0x0C, 0x19, 0x1C]] : List (List Byte)), r.length = 3) ∧
    (∀ r ∈ ([[0, 0], [0, 0]] : List (List Byte)), r.length = 2 ∧ ∀ b ∈ r, b = 0) := by decide

/-- MatchLengthIsLongestRun: the cap reaches the end of the input; the last clause is met where the run stops before it. -/
theorem witness_MatchLengthIsLongestRun :
    (0 < 1 ∧ 1 + 4 ≤ ([1, 1, 1, 1, 2] : List Byte).length ∧ matchLength [1, 1, 1, 1, 2] 0 1 4 < min 258 4) ∧
    (1 < 2 ∧ 2 + 3 ≤ ([1, 1, 1, 1, 1] : List Byte).length ∧ matchLength [1, 1, 1, 1, 1] 1 2 3 = 3) := by decide

/-- SearchFindsLongestMostRecent: a search that finds a match (43_lz77_match_finder.md R177's example), and one that does not. -/
theorem witness_SearchFindsLongestMostRecent :
    search testParams [0x61, 0x62, 0x63, 0x61, 0x62, 0x63, 0x61, 0x62, 0x63] [(14211, [0])] 3 = some ⟨6, 0⟩ ∧
    search testParams [0x61, 0x62, 0x63, 0x61, 0x62, 0x63, 0x61, 0x62, 0x63] [] 3 = none := by decide +kernel

/-- BucketInvariantsHold: the least q, and a full bucket of it. -/
theorem witness_BucketInvariantsHold : 1 ≤ 1 ∧ ([0, 4] : List Nat).length = 2 * 1 := by decide

/-- MatchFinderReconstructsInput: a match of "aaaaa" (V-LZ-4). -/
theorem witness_MatchFinderReconstructsInput :
    Symbol.copy 4 1 ∈ (lz77 testParams [0x61, 0x61, 0x61, 0x61, 0x61] 8).2 := by decide +kernel

/-- A bucket is no longer than all of them together. -/
theorem bucketGet_length_le (bs : List (Nat × List Nat)) (k : Nat) :
    (bucketGet bs k).length ≤ (bs.map fun b => b.2.length).sum := by
  induction bs with
  | nil => simp
  | cons b bs ih =>
    obtain ⟨j, es⟩ := b
    simp only [bucketGet, List.map_cons, List.sum_cons]
    split <;> omega

/-- The loop over an input of five bytes ends after two positions at most. -/
theorem findLoop_five (p : Params) {d : List Byte} (hd : d.length = 5) (q n : Nat) :
    findLoop p d q (n + 2) Work.fresh.finder = findLoop p d q 2 Work.fresh.finder := by
  have stop : ∀ (fd : Finder) (m : Nat), 2 ≤ fd.pos → findLoop p d q m fd = (fd, []) := by
    intro fd m h
    cases m with
    | zero => rfl
    | succ m => simp only [findLoop]; rw [if_neg (by omega)]
  have adv : ∀ fd : Finder, fd.pos + 1 ≤ (visit p d q fd).1.pos := by
    intro fd
    unfold visit
    split
    · rename_i c hc
      have h3 : 3 ≤ c.len := by
        have hs : search p d fd.buckets fd.pos = some c := by
          unfold committed at hc
          split at hc
          · cases hc
          · rename_i c' hs
            split at hc
            · cases hc
            · cases hc; exact hs
        have inv : ∀ (es : List Nat) (b : Option Candidate), (∀ c, b = some c → 3 ≤ c.len) →
            ∀ c, es.foldl (better d fd.pos) b = some c → 3 ≤ c.len := by
          intro es
          induction es with
          | nil => exact fun b h => h
          | cons e es ih =>
            intro b h
            refine ih _ fun c hc => ?_
            unfold better at hc
            cases b with
            | none =>
              simp only at hc
              split at hc
              · cases hc; assumption
              · cases hc
            | some b' =>
              simp only at hc
              split at hc
              · rename_i hb
                cases hc
                exact hb.1
              · exact h c hc
        exact inv _ none (by simp) c hs
      show fd.pos + 1 ≤ fd.pos + c.len
      omega
    · exact Nat.le_refl _
  have h0 : (Work.fresh.finder).pos = 0 := rfl
  have two : ∀ m, findLoop p d q (m + 1) (visit p d q Work.fresh.finder).1
      = findLoop p d q 1 (visit p d q Work.fresh.finder).1 := by
    intro m
    simp only [findLoop]
    split
    · rw [stop _ m (by have := adv Work.fresh.finder; have := adv (visit p d q Work.fresh.finder).1; omega)]
    · rfl
  have unfold : ∀ m, findLoop p d q (m + 1) Work.fresh.finder =
      if Work.fresh.finder.pos + 4 ≤ d.length then
        ((findLoop p d q m (visit p d q Work.fresh.finder).1).1,
          (visit p d q Work.fresh.finder).2 :: (findLoop p d q m (visit p d q Work.fresh.finder).1).2)
      else (Work.fresh.finder, []) := fun m => rfl
  rw [unfold (n + 1), unfold 1, two n]

/-- OutputIndependentOfHash: two hashes of which one sends everything to one bucket; no bucket fills. -/
theorem witness_OutputIndependentOfHash :
    testParams.maxDist = { testParams with hash3 := fun _ _ _ => 0 }.maxDist ∧
    NeverFull testParams [0x61, 0x61, 0x61, 0x61, 0x61] 8 ∧
    NeverFull { testParams with hash3 := fun _ _ _ => 0 } [0x61, 0x61, 0x61, 0x61, 0x61] 8 := by
  refine ⟨rfl, ?_, ?_⟩ <;>
  · intro n k
    refine Nat.lt_of_le_of_lt (bucketGet_length_le _ k) ?_
    match n with
    | 0 => decide
    | 1 => decide +kernel
    | n + 2 => rw [findLoop_five _ rfl]; decide +kernel

/-- AccumulatorEmitsBitStream: puts at both ends of the admitted widths and values. -/
theorem witness_AccumulatorEmitsBitStream :
    ∀ u ∈ ([⟨1, 1⟩, ⟨0, 1⟩, ⟨8191, 13⟩, ⟨0, 13⟩] : List Put), u.value < 2 ^ u.width ∧ 1 ≤ u.width ∧ u.width ≤ 13 := by decide

/-- BlockIsPackedSymbolStream, SymbolBitsArePrefixFree, LengthAndDistanceTablesCover: symbols at both ends of their ranges. -/
theorem witness_symbols :
    ∀ s ∈ ([.lit 0, .lit 255, .copy 3 1, .copy 258 32768, .eob] : List Symbol), s.Admitted ∧ symbolBits s <+: symbolBits s := by
  intro s hs
  refine ⟨?_, List.prefix_refl _⟩
  simp only [List.mem_cons, List.not_mem_nil, or_false] at hs
  rcases hs with rfl | rfl | rfl | rfl | rfl <;> simp [Symbol.Admitted]

/-- CompressedSizeBound: MAX_DIST at the end of the distance table. -/
theorem witness_CompressedSizeBound : Config.chip.maxDist ≤ 32768 := by decide

/-- ChunkLayout: the empty payload, and three bytes. -/
theorem witness_ChunkLayout :
    typeIend.length = 4 ∧ ([] : List Byte).length ≤ 2 ^ 31 - 1 ∧ ([0x61, 0x62, 0x63] : List Byte).length ≤ 2 ^ 31 - 1 := by decide

/-- PngLengthBounds: a plane of one byte fits every FP_CAP. -/
theorem witness_PngLengthBounds : ([0] : List Byte).length ≤ Config.chip.fpCap := by
  show 1 ≤ Config.fpCapLess1.toNat + 1
  omega

/-! ### The two tests whose evaluation is longest -/

/-- V-ADL-4: one block boundary crossed. -/
theorem test_adler32_block_boundary : adler32 (List.replicate 5553 0xFF) = 0x8E299C8B := by decide +kernel
/-- V-LZ-8: the cap of 258, and of two equal lengths the more recent. -/
theorem test_match_cap_and_tie :
    (lz77 testParams (List.replicate 300 0) 8).2 = [.lit 0, .copy 258 1, .copy 41 258, .eob] := by decide +kernel

end Sys2Proof.Tests
end

section
/-! ## What a completion depends on (00_scope.md)

The run of a command is a function of the configuration registers and of the bytes in its `readSpans`. The step's two
clauses, the completion's independence of the working state, determinism and the LATENCY bound follow from that and from
the laws of `complete` and `step`. -/

namespace Sys2Proof.Machine

/-! ### The step -/

/-- Settles O5: the two clauses are the two branches of `step`, by the condition `engineDue`. -/
theorem stepRunsAcceptedCommand : Obligations.StepRunsAcceptedCommand := by
  intro s
  refine ⟨fun hbusy hwait hreset => step_due ((engineDue_iff s).2 ⟨hbusy, hwait, hreset⟩), fun h => ?_⟩
  refine step_not_due ?_
  rcases h with hidle | hwait | hreset
  · exact engineDue_false_of_idle hidle
  · exact engineDue_false_of_wait hwait
  · exact engineDue_false_of_inReset hreset

/-! ### The working state -/

/-- A run reads the configuration and memory, and no working state. -/
theorem runOf_work (p : Params) (i : Instr) (s : State) (w : Work) : runOf p i { s with work := w } = runOf p i s := by
  cases i <;> rfl

/-- A retired completion keeps nothing of the working state it was begun with. -/
theorem retire_completed_work (p : Params) (i : Instr) (o : RunOutcome) (s : State) (w : Work) (written : List Span)
    (w' : Work) : retire p written w' (completed p i o { s with work := w }) = retire p written w' (completed p i o s) := by
  have hfree : (touchesUnserved p i o { s with work := w } || sourceDisturbed p i { s with work := w }) =
      (touchesUnserved p i o s || sourceDisturbed p i s) := rfl
  have hover : sourceOverlaps p i { s with work := w } = sourceOverlaps p i s := rfl
  simp only [completed, hfree, hover]
  split
  · rfl
  · split
    · rfl
    · cases o <;> rfl

/-- A completion overwrites the working state with what its run leaves (10_state.md R40). -/
theorem complete_work (p : Params) (i : Instr) (r : Run) (s : State) (w : Work) :
    complete p i r { s with work := w } = complete p i r s := by
  simp only [complete, retire_completed_work]
  rfl

/-- Settles O35: neither the run nor its completion reads the working state. -/
theorem workingStateIsNeverRead : Obligations.WorkingStateIsNeverRead := by
  intro i s w
  rw [exec_eq_complete, exec_eq_complete, runOf_work, complete_work]

/-! ### The bytes a run depends on -/

/-- Two memories that hold the same bytes in the spans of a list. -/
def Memory.AgreeOn (ps : List Span) (m m' : Memory) : Prop := ∀ a, spansHold ps a = true → m.read a = m'.read a

/-- A command whose register checks pass reads its source (60_exceptions.md R302; log 10). -/
theorem Memory.AgreeOn.of_checks_passed {cs : List (Bool × ErrCode)} {ps : List Span} {m m' : Memory}
    (h : Memory.AgreeOn (if (firstFailure cs).isSome then [] else ps) m m') (hc : firstFailure cs = none) :
    Memory.AgreeOn ps m m' := by
  simpa [hc] using h

/-- The source bytes depend on the byte range alone (20_memory.md R64). -/
theorem sourceBytes_congr {c : Cfg} {m m' : Memory} (h : Memory.AgreeOn [byteRangeSpan c] m m') :
    sourceBytes c m = sourceBytes c m' := by
  refine readBytes_congr fun k hk => h _ ?_
  have hin : (byteRangeSpan c).holds (c.srcBase + BitVec.ofNat 32 k) = true := holds_offset (byteRangeSpan c) hk
  simp [hin]

/-- Every filtered row is one of the source rows (42_filter_bank.md R140). -/
theorem sourceIndex_lt {c : Cfg} {y : Nat} (hy : y < c.height.toNat) : sourceIndex c y < c.height.toNat := by
  unfold sourceIndex
  split <;> omega

/-- Every byte of a source row lies in the spans of the raster (20_memory.md R63). -/
theorem spansHold_rasterSpans {c : Cfg} {f : PixelFormat} {r k : Nat} (hr : r < c.height.toNat) (hk : k < rowLength c f) :
    spansHold (rasterSpans c f) (rowAddress c r + BitVec.ofNat 32 k) = true :=
  List.any_eq_true.2
    ⟨⟨rowAddress c r, rowLength c f⟩, List.mem_map.2 ⟨r, List.mem_range.2 hr, rfl⟩, holds_offset ⟨_, _⟩ hk⟩

/-- The effective raster depends on the spans of the raster alone (42_filter_bank.md R141). -/
theorem effectiveRows_congr {c : Cfg} {f : PixelFormat} {m m' : Memory} (h : Memory.AgreeOn (rasterSpans c f) m m') :
    effectiveRows c f m = effectiveRows c f m' := by
  refine List.map_congr_left fun y hy => ?_
  have hrow : sourceRow c f m (sourceIndex c y) = sourceRow c f m' (sourceIndex c y) :=
    readBytes_congr fun k hk => h _ (spansHold_rasterSpans (sourceIndex_lt (List.mem_range.1 hy)) hk)
  simp only [effectiveRow, hrow]

/-- So does the filter bank's work on it (42_filter_bank.md R153). -/
theorem filterRaster_congr {c : Cfg} {f : PixelFormat} {m m' : Memory} (mode : FilterMode)
    (h : Memory.AgreeOn (rasterSpans c f) m m') : filterRaster c f mode m = filterRaster c f mode m' := by
  simp only [filterRaster, effectiveRows_congr h]

section
variable {s₁ s₂ : State} (hcfg : s₁.cfg = s₂.cfg)
include hcfg

theorem runEncodePng_congr {p : Params} (h : Memory.AgreeOn (readSpans p .encodePng s₁.cfg) s₁.mem s₂.mem) :
    runEncodePng p s₁ = runEncodePng p s₂ := by
  simp only [runEncodePng, ← hcfg]
  cases hf : pixelFormat s₁.cfg.format with
  | none => rfl
  | some f =>
    cases hc : firstFailure (encodeChecks p s₁.cfg f) with
    | some code => simp [hc]
    | none =>
      simp only [readSpans, hf] at h
      simp only [hc, filterRaster_congr _ (h.of_checks_passed hc)]

theorem runFilterImage_congr {p : Params} (h : Memory.AgreeOn (readSpans p .filterImage s₁.cfg) s₁.mem s₂.mem) :
    runFilterImage s₁ = runFilterImage s₂ := by
  simp only [runFilterImage, ← hcfg]
  cases hf : pixelFormat s₁.cfg.format with
  | none => rfl
  | some f =>
    cases hc : firstFailure (filterChecks s₁.cfg f) with
    | some code => simp [hc]
    | none =>
      simp only [readSpans, hf] at h
      simp only [hc, filterRaster_congr _ (h.of_checks_passed hc)]

theorem runZlibCompress_congr {p : Params} (h : Memory.AgreeOn (readSpans p .zlibCompress s₁.cfg) s₁.mem s₂.mem) :
    runZlibCompress p s₁ = runZlibCompress p s₂ := by
  simp only [runZlibCompress, ← hcfg]
  cases hc : firstFailure (zlibChecks p s₁.cfg) with
  | some code => rfl
  | none => simp only [sourceBytes_congr (h.of_checks_passed hc)]

theorem runWriteChunk_congr {p : Params} (h : Memory.AgreeOn (readSpans p .writeChunk s₁.cfg) s₁.mem s₂.mem) :
    runWriteChunk s₁ = runWriteChunk s₂ := by
  simp only [runWriteChunk, ← hcfg]
  cases hc : firstFailure (chunkChecks s₁.cfg) with
  | some code => rfl
  | none => simp only [sourceBytes_congr (h.of_checks_passed hc)]

/-- The run of a command is a function of the configuration registers and of the bytes it reads (00_scope.md R18). -/
theorem runOf_congr {p : Params} {i : Instr} (h : Memory.AgreeOn (readSpans p i s₁.cfg) s₁.mem s₂.mem) :
    runOf p i s₁ = runOf p i s₂ := by
  cases i with
  | nop => rfl
  | encodePng => exact runEncodePng_congr hcfg h
  | filterImage => exact runFilterImage_congr hcfg h
  | zlibCompress => exact runZlibCompress_congr hcfg h
  | crc32 => simp only [runOf, runCrc32, ← hcfg, sourceBytes_congr h]
  | adler32 => simp only [runOf, runAdler32, ← hcfg, sourceBytes_congr h]
  | writeChunk => exact runWriteChunk_congr hcfg h
  | reserved rsv opcode => rfl

end

/-! ### What a run can end in -/

/-- An outcome that is an output within DST_CAP, or an error (20_memory.md R66). -/
def RunOutcome.FitsOrFails (c : Cfg) (o : RunOutcome) : Prop :=
  (∃ out res, o = .ok out res ∧ out.length ≤ c.dstCap.toNat) ∨ ∃ code, o = .error code

theorem failedRun_fitsOrFails (c : Cfg) (code : ErrCode) : (failedRun code).outcome.FitsOrFails c := .inr ⟨code, rfl⟩

theorem fittingRun_fitsOrFails (c : Cfg) (out : List Byte) (res : Word) (w : Work) :
    (fittingRun c out res w).outcome.FitsOrFails c := by
  rcases Nat.lt_or_ge c.dstCap.toNat out.length with hover | hfits
  · exact .inr ⟨_, fittingRun_overflow hover res w⟩
  · exact .inl ⟨_, _, fittingRun_ok hfits res w, hfits⟩

/-- FILTER_IMAGE checks the length of its plane before it runs (60_exceptions.md R302). -/
theorem planeLength_le_of_filterChecks {c : Cfg} {f : PixelFormat} (h : firstFailure (filterChecks c f) = none) :
    planeLength c f ≤ c.dstCap.toNat := by
  have hcap := (firstFailure_none_iff _).1 h (decide (c.dstCap.toNat < planeLength c f), .overflow) (by simp [filterChecks])
  simpa using hcap

theorem runFilterImage_fitsOrFails (s : State) : (runFilterImage s).outcome.FitsOrFails s.cfg := by
  unfold runFilterImage
  split
  · exact failedRun_fitsOrFails _ _
  · rename_i f _
    split
    · exact failedRun_fitsOrFails _ _
    · rename_i hchecks
      split
      · rename_i mode _
        have hlen : (filterRaster s.cfg f mode s.mem).2.length = planeLength s.cfg f := rasterPlane_length s.cfg f mode s.mem
        exact .inl ⟨_, _, rfl, hlen ▸ planeLength_le_of_filterChecks hchecks⟩
      · exact failedRun_fitsOrFails _ _

theorem runEncodePng_fitsOrFails (p : Params) (s : State) : (runEncodePng p s).outcome.FitsOrFails s.cfg := by
  unfold runEncodePng
  split
  · exact failedRun_fitsOrFails _ _
  · split
    · exact failedRun_fitsOrFails _ _
    · split
      · exact fittingRun_fitsOrFails _ _ _ _
      · exact failedRun_fitsOrFails _ _

theorem runZlibCompress_fitsOrFails (p : Params) (s : State) : (runZlibCompress p s).outcome.FitsOrFails s.cfg := by
  unfold runZlibCompress
  split
  · exact failedRun_fitsOrFails _ _
  · exact fittingRun_fitsOrFails _ _ _ _

theorem runWriteChunk_fitsOrFails (s : State) : (runWriteChunk s).outcome.FitsOrFails s.cfg := by
  unfold runWriteChunk
  split
  · exact failedRun_fitsOrFails _ _
  · exact fittingRun_fitsOrFails _ _ _ _

/-- Every command but NOP ends in an output within DST_CAP or in an error (46_commands.md R260, 20_memory.md R66). -/
theorem runOf_fitsOrFails (p : Params) {i : Instr} (s : State) (hi : i ≠ .nop) :
    (runOf p i s).outcome.FitsOrFails s.cfg := by
  cases i with
  | nop => exact absurd rfl hi
  | encodePng => exact runEncodePng_fitsOrFails p s
  | filterImage => exact runFilterImage_fitsOrFails s
  | zlibCompress => exact runZlibCompress_fitsOrFails p s
  | crc32 => exact .inl ⟨_, _, rfl, Nat.zero_le _⟩
  | adler32 => exact .inl ⟨_, _, rfl, Nat.zero_le _⟩
  | writeChunk => exact runWriteChunk_fitsOrFails s
  | reserved rsv opcode => exact .inr ⟨_, rfl⟩

/-! ### Determinism -/

/-- With its duties kept NOP leaves RESULT and OUT_LEN and raises no error (46_commands.md R261). -/
theorem exec_nop_clean {s t : State} (hd : DutiesKept Config.chip .nop (runOf Config.chip .nop s).outcome s)
    (h : exec .nop s = .next t) :
    t.result = s.result ∧ t.outLen = s.outLen ∧ t.status.err = false ∧ t.status.errCode = 0 := by
  rw [exec_eq_complete, complete_clean hd] at h
  cases h
  exact ⟨rfl, rfl, rfl, rfl⟩

/-- With its duties kept a command whose run succeeds within DST_CAP ends in the success completion. -/
theorem exec_success {i : Instr} {s t : State} {out : List Byte} {res : Word}
    (ho : (runOf Config.chip i s).outcome = .ok out res) (hfits : out.length ≤ s.cfg.dstCap.toNat)
    (hd : DutiesKept Config.chip i (runOf Config.chip i s).outcome s) (hm : s.mem.wf = true) (h : exec i s = .next t) :
    SuccessFrom s t out res := by
  obtain ⟨u, hu, hs⟩ := complete_success ho (ho ▸ hd) hm (Nat.lt_of_le_of_lt hfits s.cfg.dstCap.isLt)
  rw [exec_eq_complete, hu] at h
  cases h
  exact hs

/-- With its duties kept a command whose run fails ends in the error completion. -/
theorem exec_error {i : Instr} {s t : State} {code : ErrCode} (ho : (runOf Config.chip i s).outcome = .error code)
    (hd : DutiesKept Config.chip i (runOf Config.chip i s).outcome s) (h : exec i s = .next t) : ErrorFrom s t code := by
  obtain ⟨u, hu, he⟩ := complete_error ho (ho ▸ hd)
  rw [exec_eq_complete, hu] at h
  cases h
  exact he

/-- After a success within DST_CAP the OUT_LEN bytes at DST_BASE are the output (46_commands.md R260). -/
theorem SuccessFrom.readBytes_outLen {s t : State} {out : List Byte} {res : Word} (h : SuccessFrom s t out res)
    (hfits : out.length ≤ s.cfg.dstCap.toNat) : t.mem.readBytes s.cfg.dstBase t.outLen.toNat = out := by
  have hlen : t.outLen.toNat = out.length := by
    rw [h.outLen, BitVec.toNat_ofNat]
    exact Nat.mod_eq_of_lt (Nat.lt_of_le_of_lt hfits s.cfg.dstCap.isLt)
  rw [hlen, h.output]

/-- Settles O34: the two runs are equal (`runOf_congr`), and a completion with its duties kept writes what its run gives. -/
theorem completionDependsOnSourceOnly : Obligations.CompletionDependsOnSourceOnly := by
  intro i s₁ s₂ t₁ t₂ hm₁ hm₂ hcfg hresult houtLen hagree hd₁ hd₂ h₁ h₂
  have hrun : runOf Config.chip i s₁ = runOf Config.chip i s₂ := runOf_congr hcfg hagree
  by_cases hi : i = .nop
  · subst hi
    obtain ⟨hr₁, hl₁, he₁, hc₁⟩ := exec_nop_clean hd₁ h₁
    obtain ⟨hr₂, hl₂, he₂, hc₂⟩ := exec_nop_clean hd₂ h₂
    exact ⟨by rw [hr₁, hr₂, hresult], by rw [hl₁, hl₂, houtLen], by rw [he₁, he₂], by rw [hc₁, hc₂],
      fun _ hne => absurd rfl hne⟩
  · rcases runOf_fitsOrFails Config.chip s₁ hi with ⟨out, res, ho₁, hfits₁⟩ | ⟨code, ho₁⟩
    · have hfits₂ : out.length ≤ s₂.cfg.dstCap.toNat := hcfg ▸ hfits₁
      have hs₁ := exec_success ho₁ hfits₁ hd₁ hm₁ h₁
      have hs₂ := exec_success (hrun ▸ ho₁) hfits₂ hd₂ hm₂ h₂
      exact ⟨by rw [hs₁.result, hs₂.result], by rw [hs₁.outLen, hs₂.outLen], by rw [hs₁.err, hs₂.err],
        by rw [hs₁.errCode, hs₂.errCode],
        fun _ _ => by rw [hs₁.readBytes_outLen hfits₁, hs₂.readBytes_outLen hfits₂]⟩
    · have he₁ := exec_error ho₁ hd₁ h₁
      have he₂ := exec_error (hrun ▸ ho₁) hd₂ h₂
      exact ⟨by rw [he₁.result, he₂.result], by rw [he₁.outLen, he₂.outLen], by rw [he₁.err, he₂.err],
        by rw [he₁.errCode, he₂.errCode], fun hok _ => by rw [he₁.err] at hok; cases hok⟩

/-! ### Completion within LATENCY -/

/-- A run that starts with a step to `t` goes on from `t`. -/
theorem run_succ_of_step {s t : State} (h : step s = .next t) (k : Nat) :
    Sys2Proof.core.run (k + 1) s = Sys2Proof.core.run k t := by
  have hcore : Sys2Proof.core.step s = .next t := h
  simp only [Host.Core.run, hcore]

/-- With all memory ordinary the step of a due engine completes its command (60_exceptions.md R307). -/
theorem step_due_completes {s : State} (hdue : s.engineDue = true) (hplain : s.platform.unserved = []) :
    ∃ t, step s = .next t ∧ CompletionFrame s t := by
  rw [step_due hdue, exec_eq_complete]
  have hc := complete_served (r := runOf Config.chip (decode s.cmdWord) s) 
    (touchesUnserved_plain (p := Config.chip) (i := decode s.cmdWord) hplain)
  exact ⟨_, hc, complete_frame hc⟩

/-- Settles O36, by induction on the LATENCY left: a silent step takes one off, and the step at 0 is the completion. -/
theorem busyCommandCompletesInLatency : Obligations.BusyCommandCompletesInLatency := by
  intro s hbusy hreset hhost hplain
  induction hwait : s.wait generalizing s with
  | zero =>
    obtain ⟨t, ht, hframe⟩ := step_due_completes ((engineDue_iff s).2 ⟨hbusy, hwait, hreset⟩) hplain
    exact ⟨t, run_succ_of_step ht 0, hframe.idle, hframe.done⟩
  | succ n ih =>
    have hsilent : step s = .next (tick s) := step_silent (engineDue_false_of_wait (by omega)) hhost
    obtain ⟨t, ht, hdone⟩ := ih (tick s) hbusy hreset hhost hplain (by simp [hwait])
    exact ⟨t, (run_succ_of_step hsilent (n + 1)).trans ht, hdone⟩

end Sys2Proof.Machine
end

section
/-! ## The state: its invariant, the register window and the modes (10_state.md)

The invariant is kept because each operation on the state keeps it: the changes of STATUS one by one, the register write,
the recording of touched bytes, the completion and the two edges of reset. `step_cases` and `hostStep_cases` then leave
one operation for each kind of step. -/

namespace Sys2Proof.Machine

/-! ### STATUS (10_state.md R22) -/

theorem Status.inv_reset : Status.reset.Inv where
  busyNotDone := by decide
  busyNoError := by decide
  errIffCode := by decide
  codeKnown := by decide

theorem Status.inv_accepted (st : Status) : st.accepted.Inv where
  busyNotDone _ := rfl
  busyNoError _ := rfl
  errIffCode := by simp
  codeKnown := by simp

/-- Code 0 stands for no error (60_exceptions.md R300). -/
theorem ErrCode.code_ne_zero (c : ErrCode) : c.code ≠ 0 := by cases c <;> decide

theorem Status.inv_completed (st : Status) (e : Option ErrCode) : (st.completed e).Inv where
  busyNotDone h := by simp at h
  busyNoError h := by simp at h
  errIffCode := by
    cases e with
    | none => simp
    | some c => exact iff_of_false (by simp) c.code_ne_zero
  codeKnown := by
    cases e with
    | none => simp
    | some c => exact (errCode_code_range c).2

/-- ERR and ERRCODE are cleared together (10_state.md R22). -/
theorem Status.Inv.clearOnes {st : Status} (h : st.Inv) (v : Word) : (st.clearOnes v).Inv where
  busyNotDone hb := by simp [h.busyNotDone hb]
  busyNoError hb := by simp [h.busyNoError hb]
  errIffCode := by
    rw [clearOnes_err, clearOnes_errCode]
    cases v.getLsbD 2 with
    | false => simpa using h.errIffCode
    | true => simp
  codeKnown := by
    rw [clearOnes_errCode]
    split
    · exact Nat.zero_le 5
    · exact h.codeKnown

theorem Status.Inv.ignored {st : Status} (h : st.Inv) : st.ignored.Inv :=
  ⟨h.busyNotDone, h.busyNoError, h.errIffCode, h.codeKnown⟩

theorem Status.Inv.abandoned {st : Status} (h : st.Inv) : st.abandoned.Inv where
  busyNotDone hb := by simp at hb
  busyNoError hb := by simp at hb
  errIffCode := h.errIffCode
  codeKnown := h.codeKnown

/-! ### The invariant of an idle state, and what it does not depend on -/

/-- An idle state with nothing pending and no duty record meets the clauses on reset and on the duty record. -/
theorem State.Inv.of_idle {t : State} (hmem : t.mem.wf = true) (hstatus : t.status.Inv) (hidle : t.status.busy = false)
    (hwait : t.wait = 0) (hduty : t.duty = Duty.kept)
    (hcoherent : Config.chip.coherent = true → t.platform.unflushed = [] ∧ t.platform.stale = []) : t.Inv where
  memWf := hmem
  status := hstatus
  resetIdle _ := hidle
  idleClear _ := ⟨hwait, hduty⟩
  touchedInside a ha := by simp [hduty, Duty.kept] at ha
  coherentClear := hcoherent

/-- The invariant says nothing of the host's list, what the host has read, or the draws; of LATENCY only that an idle
engine has none left. -/
theorem State.Inv.interface {s : State} (h : s.Inv) {wait : Nat} (hwait : s.status.busy = false → wait = 0)
    (host : List HostOp) (rdata : Word) (vars : Vars) (draws : Nat) :
    State.Inv { s with wait := wait, host := host, rdata := rdata, vars := vars, draws := draws } where
  memWf := h.memWf
  status := h.status
  resetIdle := h.resetIdle
  idleClear hb := ⟨hwait hb, (h.idleClear hb).2⟩
  touchedInside := h.touchedInside
  coherentClear := h.coherentClear

/-- The state a host access starts from: one step of LATENCY gone, and `rest` the accesses still to come
(`step_host`). -/
def State.turn (s : State) (rest : List HostOp) : State := { s with wait := s.wait - 1, host := rest }

theorem State.Inv.turn {s : State} (h : s.Inv) (rest : List HostOp) : (s.turn rest).Inv :=
  h.interface (fun hb => by rw [(h.idleClear hb).1]) rest s.rdata s.vars s.draws

/-- A write to memory that keeps its canonical form. -/
theorem State.Inv.memory {s : State} (h : s.Inv) {m : Memory} (hm : m.wf = true) : State.Inv { s with mem := m } :=
  ⟨hm, h.status, h.resetIdle, h.idleClear, h.touchedInside, h.coherentClear⟩

/-- A change of the platform that leaves a coherent one clear. -/
theorem State.Inv.onPlatform {s : State} (h : s.Inv) {pl : Platform}
    (hpl : Config.chip.coherent = true → pl.unflushed = [] ∧ pl.stale = []) : State.Inv { s with platform := pl } :=
  ⟨h.memWf, h.status, h.resetIdle, h.idleClear, h.touchedInside, hpl⟩

/-- Settles O10: the reset state is idle, and its memory and platform are empty. -/
theorem resetMeetsInvariant : Obligations.ResetMeetsInvariant :=
  State.Inv.of_idle rfl Status.inv_reset rfl rfl rfl fun _ => ⟨rfl, rfl⟩

/-! ### The engine and reset keep the invariant -/

/-- A completion leaves the engine idle, and a coherent platform as it was (10_state.md R41). -/
theorem State.Inv.complete {i : Instr} {r : Run} {s t : State} (h : s.Inv)
    (ht : complete Config.chip i r s = .next t) : t.Inv := by
  have hframe := complete_frame ht
  refine .of_idle (complete_wf ht h.memWf) ?_ hframe.idle hframe.wait hframe.duty fun hc => ?_
  · obtain ⟨e, he⟩ := completed_status Config.chip i r.outcome s
    rw [complete_next ht, retire_status, he]
    exact s.status.inv_completed e
  · rw [complete_next ht, retire_platform, if_pos hc, completed_platform]
    exact h.coherentClear hc

/-- The first edge of reset abandons the command (70_reset_and_hazards.md R330). -/
theorem State.Inv.assertReset {s : State} (h : s.Inv) (dst : Option Span) : (assertReset Config.chip dst s).Inv := by
  refine .of_idle ?_ h.status.abandoned rfl rfl rfl fun hc => ?_
  · rw [assertReset_mem]
    split
    · exact wf_scrambleRegion h.memWf _ _
    · exact h.memWf
  · rw [assertReset_platform, if_pos (by simp [hc])]
    exact h.coherentClear hc

theorem State.Inv.releaseReset {s : State} (h : s.Inv) : (releaseReset s).Inv :=
  .of_idle h.memWf Status.inv_reset rfl rfl rfl h.coherentClear

/-! ### Register writes keep the invariant -/

/-- Outside reset a register write is ignored, accepts a command, clears flags, or changes the configuration of an idle
engine, which has no duty record. -/
theorem State.Inv.writeReg {s : State} (h : s.Inv) (hreset : s.inReset = false) (p : Params) (r : Reg) (v : Word) :
    (writeReg p r v s).Inv := by
  cases hb : s.status.busy with
  | true =>
    rw [writeReg_busy hb]
    exact ⟨h.memWf, h.status.ignored, h.resetIdle, h.idleClear, h.touchedInside, h.coherentClear⟩
  | false =>
    obtain ⟨hwait, hduty⟩ := h.idleClear hb
    rw [writeReg_idle hb]
    split
    · exact {
        memWf := h.memWf
        status := s.status.inv_accepted
        resetIdle := fun hr => by simp [hreset] at hr
        idleClear := fun hidle => by simp at hidle
        touchedInside := fun a ha => by simp [Duty.kept] at ha
        coherentClear := h.coherentClear }
    · split
      · exact .of_idle h.memWf (h.status.clearOnes v) hb hwait hduty h.coherentClear
      · exact .of_idle h.memWf h.status hb hwait hduty h.coherentClear

/-! ### The host's own accesses keep the invariant -/

/-- A byte recorded as touched lies in the destination region of the busy command (20_memory.md R75). -/
theorem State.Inv.noteTouched {s : State} (h : s.Inv) (p : Params) (a : Word) : (noteTouched p a s).Inv := by
  obtain ⟨d, heq, hkeep⟩ := noteTouched_eq p a s
  have hinside := fun x => noteTouched_inside (p := p) (a := a) (x := x) (s := s)
  rw [heq] at hinside ⊢
  exact {
    memWf := h.memWf
    status := h.status
    resetIdle := h.resetIdle
    idleClear := fun hb => ⟨(h.idleClear hb).1, (hkeep hb).trans (h.idleClear hb).2⟩
    touchedInside := fun x hx => (hinside x hx).elim (h.touchedInside x) id
    coherentClear := h.coherentClear }

theorem State.Inv.foldl_noteTouched {s : State} (h : s.Inv) (p : Params) (as : List Word) :
    (as.foldl (fun t a => Machine.noteTouched p a t) s).Inv := by
  induction as generalizing s with
  | nil => exact h
  | cons a as ih => exact ih (h.noteTouched p a)

theorem State.Inv.hostStore {s : State} (h : s.Inv) (a : Word) (b : Byte) : (hostStore Config.chip a b s).Inv := by
  have hnoted := (h.memory (wf_write h.memWf a b)).noteTouched Config.chip a
  simp only [Machine.hostStore]
  split
  · exact hnoted
  · rename_i hc
    exact hnoted.onPlatform fun hcoherent => by simp [hcoherent] at hc

theorem State.Inv.hostLoad {s : State} (h : s.Inv) (p : Params) (a : Word) : (hostLoad p a s).Inv := by
  have hwait := fun hb => (h.idleClear hb).1
  unfold Machine.hostLoad
  split
  · exact h.interface hwait s.host _ s.vars _
  · exact h.interface hwait s.host _ s.vars s.draws

theorem State.Inv.maintain {s : State} (h : s.Inv) (p : Params) : (maintain p s).Inv :=
  (h.foldl_noteTouched p s.platform.unflushed).onPlatform fun _ => ⟨rfl, rfl⟩

/-- Every host access keeps the invariant. -/
theorem State.Inv.hostStep {op : HostOp} {s t : State} (h : s.Inv) (ht : hostStep Config.chip op s = .next t) :
    t.Inv := by
  have hwait := fun hb => (h.idleClear hb).1
  rcases hostStep_cases ht with ⟨r, x, -, hreset, rfl⟩ | ⟨r, name, -, -, rfl⟩ | ⟨-, -, rfl⟩ | ⟨a, b, -, -, rfl⟩ |
    ⟨a, -, -, rfl⟩ | ⟨-, rfl⟩ | ⟨-, -, rfl⟩ | ⟨-, -, rfl⟩ | ⟨-, -, rfl⟩ | ⟨-, -, rfl⟩
  · exact h.writeReg hreset _ _ _
  · exact h.interface hwait s.host _ _ s.draws
  · exact h.interface hwait _ _ _ s.draws
  · exact h.hostStore a b
  · exact h.hostLoad _ a
  · exact h.maintain _
  · exact h
  · exact h.assertReset _
  · exact h.releaseReset
  · exact h

/-- Settles O11: a step is a completion, a silent turn or one host access, and each keeps the invariant. -/
theorem stepKeepsInvariant : Obligations.StepKeepsInvariant := by
  intro s t h ht
  rcases step_cases ht with ⟨-, hexec⟩ | ⟨-, -, rfl⟩ | ⟨-, op, rest, -, hop⟩
  · rw [exec_eq_complete] at hexec
    exact h.complete hexec
  · exact h.turn s.host
  · exact (h.turn rest).hostStep hop

/-! ### The register window (10_state.md R20 to R31) -/

/-- Settles O7: each of the sixteen registers reads its reset value by evaluation. -/
theorem resetRegisterValues : Obligations.ResetRegisterValues := by
  refine ⟨?_, ?_, ?_, ?_, ?_, ?_, ?_, ?_, ?_, ?_, ?_, ?_, ?_, ?_, ?_, ?_, ?_⟩ <;> rfl

/-- The step of a host write to a register is that write, one step of LATENCY gone (20_memory.md R71). -/
theorem step_regWrite {s : State} {r : Reg} {x : HostValue} {rest : List HostOp} (hdue : s.engineDue = false)
    (hreset : s.inReset = false) (hhost : s.host = .regWrite (Config.chip.regBase + r.offset) 4 x :: rest) :
    step s = .next (writeReg Config.chip r (hostValue x s.vars) (s.turn rest)) := by
  have hok : accessedReg Config.chip (s.turn rest) (Config.chip.regBase + r.offset) 4 = .ok r := accessedReg_reg hreset r
  calc step s = hostStep Config.chip (.regWrite (Config.chip.regBase + r.offset) 4 x) (s.turn rest) := step_host hdue hhost
    _ = .next (writeReg Config.chip r (hostValue x s.vars) (s.turn rest)) := by simp only [hostStep, hok]; rfl

/-- Settles O12: the step is the register write, which is ignored while busy. -/
theorem busyRegisterWriteIgnored : Obligations.BusyRegisterWriteIgnored := by
  intro s r x rest hbusy hwait hreset hhost
  have hturn : (s.turn rest).status.busy = true := hbusy
  rw [step_regWrite (engineDue_false_of_wait hwait) hreset hhost, writeReg_busy hturn]
  rfl

/-- Keeping the low `n` bits of a word is masking it. -/
theorem zeroExtend_setWidth_eq_and (v : Word) {n : Nat} (hn : n ≤ 32) :
    (v.setWidth n).zeroExtend 32 = v &&& BitVec.ofNat 32 (2 ^ n - 1) := by
  apply BitVec.eq_of_toNat_eq
  have hpow : 2 ^ n ≤ 2 ^ 32 := Nat.pow_le_pow_right (by decide) hn
  have hmod : v.toNat % 2 ^ n < 2 ^ 32 := Nat.lt_of_lt_of_le (Nat.mod_lt _ (by positivity)) hpow
  have hmask : 2 ^ n - 1 < 2 ^ 32 := by omega
  simp only [BitVec.toNat_setWidth, BitVec.toNat_and, BitVec.toNat_ofNat, Nat.mod_eq_of_lt hmod, Nat.mod_eq_of_lt hmask,
    Nat.and_two_pow_sub_one_eq_mod]

/-- The two bits of FLAGS are the low bits of the word (10_state.md R27). -/
theorem ofBool_append_ofBool_eq_setWidth (v : Word) :
    BitVec.ofBool (v.getLsbD 1) ++ BitVec.ofBool (v.getLsbD 0) = v.setWidth 2 := by
  ext j hj
  obtain rfl | rfl : j = 0 ∨ j = 1 := by omega
  · simp only [← BitVec.getLsbD_eq_getElem, BitVec.getLsbD_append]
    simp
  · simp only [← BitVec.getLsbD_eq_getElem, BitVec.getLsbD_append]
    simp

theorem readReg_turn (r : Reg) (s : State) (rest : List HostOp) : readReg r (s.turn rest) = readReg r s := by
  cases r <;> rfl

/-- FORMAT holds the low eight bits written (10_state.md R24). -/
theorem readReg_write_format (s : State) (v : Word) :
    readReg .format { s with cfg := s.cfg.write .format v } = v &&& 0x000000FF :=
  zeroExtend_setWidth_eq_and v (n := 8) (by decide)

/-- FILTER holds the low four bits written (10_state.md R25). -/
theorem readReg_write_filter (s : State) (v : Word) :
    readReg .filter { s with cfg := s.cfg.write .filter v } = v &&& 0x0000000F :=
  zeroExtend_setWidth_eq_and v (n := 4) (by decide)

/-- FLAGS holds the low two bits written (10_state.md R27). -/
theorem readReg_write_flags (s : State) (v : Word) :
    readReg .flags { s with cfg := s.cfg.write .flags v } = v &&& 0x00000003 :=
  (congrArg (BitVec.zeroExtend 32) (ofBool_append_ofBool_eq_setWidth v)).trans
    (zeroExtend_setWidth_eq_and v (n := 2) (by decide))

/-- Settles O13: the step is a configuration write; FORMAT, FILTER and FLAGS drop their reserved bits, RESULT and OUT_LEN
are no part of the configuration, and every other register holds the whole word. -/
theorem registerWriteReadsBack : Obligations.RegisterWriteReadsBack := by
  intro s r x rest hidle hreset hcmd hstatus hhost v
  have hturn : (s.turn rest).status.busy = false := hidle
  have hstep : step s = .next { s.turn rest with cfg := s.cfg.write r v } := by
    rw [step_regWrite (engineDue_false_of_idle hidle) hreset hhost, writeReg_idle hturn, if_neg hcmd, if_neg hstatus]
    rfl
  refine ⟨_, hstep, rfl, fun _ => rfl, rfl, fun r' hne => ?_, ?_⟩
  · calc readReg r' { s.turn rest with cfg := s.cfg.write r v }
        = readReg r' (s.turn rest) := readReg_write_other s.cfg (s.turn rest) v hne
      _ = readReg r' s := readReg_turn r' s rest
  · cases r with
    | cmd => exact absurd rfl hcmd
    | status => exact absurd rfl hstatus
    | format => exact readReg_write_format (s.turn rest) v
    | filter => exact readReg_write_filter (s.turn rest) v
    | flags => exact readReg_write_flags (s.turn rest) v
    | width | height | srcBase | srcStride | srcLen | dstBase | dstCap | quality | chunkType | result | outLen => rfl

/-! ### The fields of STATUS (10_state.md R22, R31) -/

/-- Bit `k` of STATUS: the four flags in [3:0], ERRCODE in [11:8], and 0 elsewhere. -/
theorem Status.word_getLsbD (st : Status) (k : Nat) :
    st.word.getLsbD k =
      if k < 4 then [st.busy, st.done, st.err, st.ign].getD k false
      else if k < 8 then false else st.errCode.getLsbD (k - 8) := by
  simp only [Status.word, BitVec.getLsbD_append]
  rcases k with _ | _ | _ | _ | k
  · simp
  · simp
  · simp
  · simp
  · by_cases hlow : k < 4
    · simp [hlow]
    · have hflags : ¬k + 1 + 1 + 1 + 1 < 4 := by omega
      have hgap : ¬k + 1 + 1 + 1 + 1 < 8 := by omega
      by_cases hcode : k - 4 < 4
      · simp [hlow, hcode, hflags, hgap]
      · simp [hlow, hcode, BitVec.getLsbD_of_ge st.errCode (k - 4) (by omega)]

theorem Status.word_reserved_low (st : Status) : st.word.extractLsb' 4 4 = 0 := by
  ext j hj
  have h4 : ¬4 + j < 4 := by omega
  have h8 : 4 + j < 8 := by omega
  simp [Status.word_getLsbD, h4, h8]

theorem Status.word_errCode (st : Status) : st.word.extractLsb' 8 4 = st.errCode := by
  ext j hj
  have h4 : ¬8 + j < 4 := by omega
  simp [Status.word_getLsbD, h4, BitVec.getLsbD_eq_getElem hj]

theorem Status.word_reserved_high (st : Status) : st.word.extractLsb' 12 20 = 0 := by
  ext j hj
  have h4 : ¬12 + j < 4 := by omega
  have h8 : ¬12 + j < 8 := by omega
  have hpast : 4 ≤ 12 + j - 8 := by omega
  simp [Status.word_getLsbD, h4, h8, BitVec.getLsbD_of_ge _ _ hpast]

/-- Settles O14: the fields are those of `Status.word`, and the step of an idle write to STATUS is `Status.clearOnes`. -/
theorem statusFieldsAndClearing : Obligations.StatusFieldsAndClearing := by
  constructor
  · intro s
    have hbit := s.status.word_getLsbD
    exact ⟨hbit 0, hbit 1, hbit 2, hbit 3, s.status.word_reserved_low, s.status.word_errCode, s.status.word_reserved_high⟩
  · intro s x rest hidle hreset hhost v
    have hturn : (s.turn rest).status.busy = false := hidle
    have hstep := step_regWrite (r := .status) (engineDue_false_of_idle hidle) hreset hhost
    rw [writeReg_idle hturn] at hstep
    exact ⟨_, hstep, hidle, rfl, rfl, rfl, rfl, rfl, rfl, rfl, fun _ => rfl⟩

/-! ### The two modes (10_state.md R34) -/

/-- A register write keeps the mode, or it is the acceptance of a command. -/
theorem writeReg_mode (p : Params) (r : Reg) (v : Word) (s : State) :
    (writeReg p r v s).status.busy = s.status.busy ∨ (r = .cmd ∧ writeReg p r v s = accept p v s) := by
  cases hb : s.status.busy with
  | true =>
    rw [writeReg_busy hb]
    exact .inl hb
  | false =>
    rw [writeReg_idle hb]
    split
    · rename_i hr
      exact .inr ⟨hr, rfl⟩
    · split <;> exact .inl hb

theorem hostLoad_status (p : Params) (a : Word) (s : State) : (hostLoad p a s).status = s.status := by
  unfold hostLoad
  split <;> rfl

/-- A host access keeps the mode, or it is a write to CMD or an edge of reset. -/
theorem hostStep_mode {p : Params} {op : HostOp} {s t : State} (h : hostStep p op s = .next t) :
    t.status.busy = s.status.busy ∨
    (∃ x, op = .regWrite (p.regBase + Reg.cmd.offset) 4 x ∧ t.cmdWord = hostValue x s.vars ∧ t.status.busy = true) ∨
    (op = .assertReset ∧ t.status.busy = false) ∨ (s.inReset = true ∧ t.status.busy = false) := by
  rcases hostStep_cases h with ⟨r, x, rfl, -, rfl⟩ | ⟨r, name, -, -, rfl⟩ | ⟨-, -, rfl⟩ | ⟨a, b, -, -, rfl⟩ |
    ⟨a, -, -, rfl⟩ | ⟨-, rfl⟩ | ⟨-, -, rfl⟩ | ⟨hop, -, rfl⟩ | ⟨-, hreset, rfl⟩ | ⟨-, -, rfl⟩
  · rcases writeReg_mode p r (hostValue x s.vars) s with hkeep | ⟨rfl, haccept⟩
    · exact .inl hkeep
    · exact .inr (.inl ⟨x, rfl, by rw [haccept, accept_cmdWord], by rw [haccept, accept_status, accepted_busy]⟩)
  · exact .inl rfl
  · exact .inl rfl
  · obtain ⟨d, u, heq, -⟩ := hostStore_eq p a b s
    rw [heq]
    exact .inl rfl
  · exact .inl (by rw [hostLoad_status])
  · obtain ⟨d, heq, -⟩ := maintain_eq p s
    rw [heq]
    exact .inl rfl
  · exact .inl rfl
  · exact .inr (.inr (.inl ⟨hop, rfl⟩))
  · exact .inr (.inr (.inr ⟨hreset, rfl⟩))
  · exact .inl rfl

/-- Settles O19: a completion ends in IDLE with DONE, a silent turn keeps the mode, and `hostStep_mode` says which host
accesses change it. -/
theorem modeChangesOnlyByCommandOrReset : Obligations.ModeChangesOnlyByCommandOrReset := by
  intro s t ht
  rcases step_cases ht with ⟨hdue, hexec⟩ | ⟨-, -, rfl⟩ | ⟨-, op, rest, hhost, hop⟩
  · rw [exec_eq_complete] at hexec
    have hframe := complete_frame hexec
    exact ⟨fun _ hbusy => by simp [hframe.idle] at hbusy, fun _ _ => .inl ⟨hdue, hframe.done⟩⟩
  · exact ⟨fun hidle hbusy => by simp [hidle] at hbusy, fun hbusy hidle => by simp [hbusy] at hidle⟩
  · rcases hostStep_mode hop with hkeep | ⟨x, rfl, hword, hbusy⟩ | ⟨rfl, hidle⟩ | ⟨hreset, hidle⟩
    · simp only at hkeep
      exact ⟨fun h₀ h₁ => by simp [hkeep, h₀] at h₁, fun h₁ h₀ => by simp [hkeep, h₁] at h₀⟩
    · exact ⟨fun _ _ => ⟨x, rest, hhost, hword⟩, fun _ h₀ => by simp [hbusy] at h₀⟩
    · exact ⟨fun _ h₁ => by simp [hidle] at h₁, fun _ _ => .inr (.inl ⟨rest, hhost⟩)⟩
    · exact ⟨fun _ h₁ => by simp [hidle] at h₁, fun _ _ => .inr (.inr hreset)⟩

end Sys2Proof.Machine
end

section
/-! ## Memory (20_memory.md)

The engine writes inside the destination region because every output fits it (`runOf_ok_outside`) and every other byte a
completion can touch is taken from `mayWrite` or the duty record. The host's own accesses are the operations `hostStore`,
`hostLoad` and `maintain`, each a step of its own; a load after DONE = 1 reads what `SuccessFrom` says memory holds. -/

namespace Sys2Proof.Machine

/-! ### Which register accesses are admitted (20_memory.md R71) -/

section
variable {p : Params} {s : State} {addr bytes : Nat}

theorem hostStep_regWrite_ok {r : Reg} (h : accessedReg p s addr bytes = .ok r) (x : HostValue) :
    hostStep p (.regWrite addr bytes x) s = .next (writeReg p r (hostValue x s.vars) s) := by
  simp only [hostStep, h]

theorem hostStep_regWrite_error {e : Refusal} (h : accessedReg p s addr bytes = .error e) (x : HostValue) :
    hostStep p (.regWrite addr bytes x) s = .refused e := by
  simp only [hostStep, h]

theorem hostStep_regRead_ok {r : Reg} (h : accessedReg p s addr bytes = .ok r) (name : String) :
    hostStep p (.regRead addr bytes name) s = .next (readInto name (readReg r s) s) := by
  simp only [hostStep, h]

theorem hostStep_regRead_error {e : Refusal} (h : accessedReg p s addr bytes = .error e) (name : String) :
    hostStep p (.regRead addr bytes name) s = .refused e := by
  simp only [hostStep, h]

end

/-- The host's turn, by the state its access starts from. -/
theorem step_eq_hostStep_turn {s : State} {op : HostOp} {rest : List HostOp} (hdue : s.engineDue = false)
    (hhost : s.host = op :: rest) : step s = hostStep Config.chip op (s.turn rest) :=
  step_host hdue hhost

/-- Settles O16: the step is the host's access, and `accessedReg_iff` says when that is admitted. -/
theorem onlyAlignedWordAccessAdmitted : Obligations.OnlyAlignedWordAccessAdmitted := by
  intro s addr bytes x name rest hdue hreset ok
  have hturn : (s.turn rest).inReset = false := hreset
  have hcases := accessedReg_iff (p := Config.chip) (addr := addr) (bytes := bytes) hturn
  constructor
  · intro hhost
    rw [step_eq_hostStep_turn hdue hhost]
    rcases hcases with ⟨hok, r, hr⟩ | ⟨hnot, he⟩
    · exact ⟨fun _ => ⟨_, hostStep_regWrite_ok hr x⟩, fun hnot => absurd hok hnot⟩
    · exact ⟨fun hok => absurd hok hnot, fun _ => hostStep_regWrite_error he x⟩
  · intro hhost
    rw [step_eq_hostStep_turn hdue hhost]
    rcases hcases with ⟨hok, r, hr⟩ | ⟨hnot, he⟩
    · exact ⟨fun _ => ⟨_, hostStep_regRead_ok hr name⟩, fun hnot => absurd hok hnot⟩
    · exact ⟨fun hok => absurd hok hnot, fun _ => hostStep_regRead_error he name⟩

/-! ### The engine writes inside the destination region (20_memory.md R66) -/

/-- A command's output is empty, or it has a destination region that the output fits. -/
theorem runOf_ok_region {p : Params} {i : Instr} {s : State} {out : List Byte} {res : Word}
    (ho : (runOf p i s).outcome = .ok out res) :
    out = [] ∨ (writeRegion i s.cfg = some ⟨s.cfg.dstBase, s.cfg.dstCap.toNat⟩ ∧ out.length ≤ s.cfg.dstCap.toNat) := by
  have hfits (hi : i ≠ .nop) : out.length ≤ s.cfg.dstCap.toNat := by
    rcases runOf_fitsOrFails p s hi with ⟨_, _, ho', hle⟩ | ⟨_, ho'⟩
    · cases ho.symm.trans ho'
      exact hle
    · cases ho.symm.trans ho'
  cases i with
  | nop => cases ho
  | crc32 => cases ho; exact .inl rfl
  | adler32 => cases ho; exact .inl rfl
  | reserved rsv opcode => cases ho
  | encodePng => exact .inr ⟨rfl, hfits (by simp)⟩
  | filterImage => exact .inr ⟨rfl, hfits (by simp)⟩
  | zlibCompress => exact .inr ⟨rfl, hfits (by simp)⟩
  | writeChunk => exact .inr ⟨rfl, hfits (by simp)⟩

theorem runOf_ok_length_le {p : Params} {i : Instr} {s : State} {out : List Byte} {res : Word}
    (ho : (runOf p i s).outcome = .ok out res) : out.length ≤ s.cfg.dstCap.toNat := by
  rcases runOf_ok_region ho with rfl | ⟨-, hle⟩
  · exact Nat.zero_le _
  · exact hle

section
variable {p : Params} {i : Instr} {s : State} {a : Word} (ha : spansHold (writeRegion i s.cfg).toList a = false)
include ha

/-- An address outside the destination region lies past the output. -/
theorem runOf_ok_outside {out : List Byte} {res : Word} (ho : (runOf p i s).outcome = .ok out res) :
    out.length ≤ (a - s.cfg.dstBase).toNat := by
  rcases runOf_ok_region ho with rfl | ⟨hregion, hle⟩
  · exact Nat.zero_le _
  · have hcap : s.cfg.dstCap.toNat ≤ (a - s.cfg.dstBase).toNat := by
      simpa [hregion, holds_false_iff] using ha
    exact hle.trans hcap

theorem writtenSpans_runOf_outside : spansHold (writtenSpans i s.cfg (runOf p i s).outcome) a = false := by
  cases ho : (runOf p i s).outcome with
  | nothing => rfl
  | ok out res => exact writtenSpans_ok_outside i s.cfg out res a (runOf_ok_outside ha ho)
  | error code =>
    simp only [writtenSpans]
    split
    · exact ha
    · rfl

theorem mayWrite_runOf_outside : spansHold (mayWrite p i (runOf p i s).outcome s) a = false := by
  unfold mayWrite
  split
  · exact ha
  · exact writtenSpans_runOf_outside ha

theorem read_cleanCompletion_outside :
    (cleanCompletion (runOf p i s).outcome (writeRegion i s.cfg) s).mem.read a = s.mem.read a := by
  cases ho : (runOf p i s).outcome with
  | nothing => rfl
  | ok out res => exact read_writeBytes_outside _ _ _ _ (runOf_ok_outside ha ho)
  | error code =>
    simp only [cleanCompletion, errorCompletion_mem]
    split
    · exact read_scrambleRegion_outside _ _ _ _ ha
    · rfl

theorem read_completed_outside :
    (completed p i (runOf p i s).outcome s).mem.read a = s.mem.read a := by
  rcases completed_cases p i (runOf p i s).outcome s with h | h | h
  · rw [h]
    exact read_scrambleRegion_outside _ _ _ _ ha
  · rw [h]
    exact read_scrambleRegion_outside _ _ _ _ ha
  · rw [h]
    exact read_cleanCompletion_outside ha

end

/-- Settles O32: the completion writes inside the region, and so do the free bytes `retire` draws, whose addresses the
duty record or `mayWrite` holds. -/
theorem engineWritesOnlyDestination : Obligations.EngineWritesOnlyDestination := by
  intro i s t htouched hexec a ha
  rw [exec_eq_complete] at hexec
  have hdst : a ∉ s.duty.dstWritten := fun hmem => by simp [htouched a hmem] at ha
  have hmay := mayWrite_runOf_outside (p := Config.chip) ha
  rw [complete_next hexec, retire_mem, read_scrambleAt_outside, read_completed_outside ha]
  simp [hdst, hmay]

/-! ### The destination after a completion (20_memory.md R67) -/

/-- With its duties kept a success leaves every byte past its output, whatever form memory has. -/
theorem exec_ok_outside {i : Instr} {s t : State} {out : List Byte} {res : Word}
    (ho : (runOf Config.chip i s).outcome = .ok out res)
    (hd : DutiesKept Config.chip i (runOf Config.chip i s).outcome s) (h : exec i s = .next t) :
    t.status.err = false ∧ t.outLen.toNat = out.length ∧ SameMemoryOutside s.cfg.dstBase out.length s t := by
  rw [exec_eq_complete, complete_clean hd, ho] at h
  cases h
  refine ⟨rfl, ?_, fun a ha => ?_⟩
  · exact Nat.mod_eq_of_lt (Nat.lt_of_le_of_lt (runOf_ok_length_le ho) s.cfg.dstCap.isLt)
  · have hmem := retire_mem_clean (s := s) (u := successCompletion out res s) (runOf Config.chip i s).work (ho ▸ hd)
      rfl rfl
    rw [cleanCompletion, hmem]
    exact read_writeBytes_outside _ _ _ _ ha

/-- The distance of an offset below 2^32 from its base. -/
theorem toNat_add_ofNat_sub (base : Word) {k : Nat} (hk : k < 2 ^ 32) :
    (base + BitVec.ofNat 32 k - base).toNat = k := by
  rw [BitVec.add_comm, BitVec.add_sub_cancel, BitVec.toNat_ofNat, Nat.mod_eq_of_lt hk]

/-- Settles O33: every command but NOP ends in an output within DST_CAP or in an error, and its completion is the clean
one. -/
theorem destinationTailUnchanged : Obligations.DestinationTailUnchanged := by
  intro i s t hexec hd hi
  rcases runOf_fitsOrFails Config.chip s hi with ⟨out, res, ho, hfits⟩ | ⟨code, ho⟩
  · obtain ⟨herr, hlen, houtside⟩ := exec_ok_outside ho hd hexec
    refine ⟨fun _ => ⟨hlen ▸ hfits, fun k hk hcap => houtside _ ?_⟩, fun h => by simp [herr] at h⟩
    rw [toNat_add_ofNat_sub _ (hcap.trans s.cfg.dstCap.isLt), ← hlen]
    exact hk
  · have he := exec_error ho hd hexec
    refine ⟨fun h => by simp [he.err] at h, fun _ => ⟨he.outLen, he.result, fun hne => he.memory fun hc => hne ?_⟩⟩
    rw [he.errCode, hc]

/-! ### Stores of the host (20_memory.md R73, R75) -/

/-- A store is recorded as a touched byte while a command is busy. -/
theorem hostStore_duty (p : Params) (a : Word) (b : Byte) (s : State) :
    (hostStore p a b s).duty = (noteTouched p a { s with mem := s.mem.write a b }).duty := by
  simp only [hostStore]
  split <;> rfl

/-- Where host caches are not coherent with the port, a store joins the unflushed ones. -/
theorem mem_unflushed_hostStore {p : Params} (hc : p.coherent = false) (a : Word) (b : Byte) (s : State) (x : Word) :
    x ∈ (hostStore p a b s).platform.unflushed ↔ x ∈ s.platform.unflushed ∨ x = a := by
  obtain ⟨d, hd, -⟩ := noteTouched_eq p a { s with mem := s.mem.write a b }
  simp only [hostStore, hd, hc, Bool.false_or]
  split
  · rename_i hin
    have hmem : a ∈ s.platform.unflushed := by simpa using hin
    exact ⟨.inl, fun h => h.elim id fun hx => hx ▸ hmem⟩
  · simp [or_comm]

/-- The step of a host store to ordinary memory. -/
theorem step_memWrite {s : State} {a : Word} {b : Byte} {rest : List HostOp} (hdue : s.engineDue = false)
    (hserved : spansHold s.platform.unserved a = false) (hhost : s.host = .memWrite a b :: rest) :
    step s = .next (hostStore Config.chip a b (s.turn rest)) := by
  have hturn : spansHold (s.turn rest).platform.unserved a = false := hserved
  rw [step_eq_hostStep_turn hdue hhost]
  simp [hostStep, hturn]

/-- Settles O38: the step is `hostStore`; `hostStore_eq` gives its frame, and the two records follow `noteTouched` and the
platform. -/
theorem hostStoreWritesItsByte : Obligations.HostStoreWritesItsByte := by
  intro s a b rest hm hdue hserved hhost
  have hduty := hostStore_duty Config.chip a b (s.turn rest)
  have hunflushed := fun hc => mem_unflushed_hostStore (p := Config.chip) hc a b (s.turn rest)
  have hbusy := noteTouched_busy Config.chip a (s := { s.turn rest with mem := s.mem.write a b })
  have hstep := step_memWrite hdue hserved hhost
  obtain ⟨d, u, heq, hidle, hcoherent, -⟩ := hostStore_eq Config.chip a b (s.turn rest)
  rw [heq] at hstep hduty hunflushed
  refine ⟨_, hstep, wf_write hm a b, read_write_self hm a b, fun _ hne => read_write_other s.mem b hne,
    rfl, rfl, rfl, rfl, rfl, fun hc => ?_, hunflushed, hidle, fun hb => ?_⟩
  · rw [hcoherent hc]
    rfl
  · rw [hduty]
    exact hbusy hb

/-! ### The effective raster (20_memory.md R63; 42_filter_bank.md R140, R141) -/

/-- Sample `k` of pixel `j` of a Bgr24 row is sample `2 − k` of the source pixel. -/
theorem reorderBgr_getD (j : Nat) {row : List Byte} {k : Nat} (hk : k < 3) (hj : j * 3 + 3 ≤ row.length) :
    (reorderBgr row).getD (j * 3 + k) 0 = row.getD (j * 3 + (2 - k)) 0 := by
  match row, hj with
  | x :: y :: z :: rest, hj =>
    cases j with
    | zero =>
      obtain rfl | rfl | rfl : k = 0 ∨ k = 1 ∨ k = 2 := by omega
      all_goals rfl
    | succ j =>
      have ih := reorderBgr_getD j (row := rest) hk (by simp only [List.length_cons] at hj; omega)
      have hshift (m : Nat) : (j + 1) * 3 + m = j * 3 + m + 3 := by omega
      simpa only [reorderBgr, hshift, List.getD_cons_succ] using ih

/-- The sample of the source pixel that PNG order puts in place `k` of a Bgra32 pixel. -/
theorem reorderBgra_getD (j : Nat) {row : List Byte} {k : Nat} (hk : k < 4) (hj : j * 4 + 4 ≤ row.length) :
    (reorderBgra row).getD (j * 4 + k) 0 = row.getD (j * 4 + if k < 3 then 2 - k else k) 0 := by
  match row, hj with
  | x :: y :: z :: w :: rest, hj =>
    cases j with
    | zero =>
      obtain rfl | rfl | rfl | rfl : k = 0 ∨ k = 1 ∨ k = 2 ∨ k = 3 := by omega
      all_goals rfl
    | succ j =>
      have ih := reorderBgra_getD j (row := rest) hk (by simp only [List.length_cons] at hj; omega)
      have hshift (m : Nat) : (j + 1) * 4 + m = j * 4 + m + 4 := by omega
      simpa only [reorderBgra, hshift, List.getD_cons_succ] using ih

/-- Where sample `k` of a pixel in PNG order stands in the source pixel (42_filter_bank.md R141). -/
def PixelFormat.sourceSample (f : PixelFormat) (k : Nat) : Nat :=
  if (f = .bgr24 ∨ f = .bgra32) ∧ k < 3 then 2 - k else k

theorem PixelFormat.sourceSample_lt (f : PixelFormat) {k : Nat} (hk : k < f.channels) :
    f.sourceSample k < f.channels := by
  unfold sourceSample
  split
  · rename_i h
    obtain ⟨rfl | rfl, hk3⟩ := h
    · exact Nat.sub_lt_succ 2 k
    · exact Nat.lt_of_le_of_lt (Nat.sub_le 2 k) (by decide)
  · exact hk

theorem reorder_getD (f : PixelFormat) {row : List Byte} {j k : Nat} (hk : k < f.channels)
    (hj : j * f.channels + f.channels ≤ row.length) :
    (reorder f row).getD (j * f.channels + k) 0 = row.getD (j * f.channels + f.sourceSample k) 0 := by
  cases f with
  | gray8 => rfl
  | rgb24 => rfl
  | bgr24 =>
    have hk3 : k < 3 := hk
    simpa [PixelFormat.sourceSample, PixelFormat.channels, reorder, hk3] using reorderBgr_getD j hk hj
  | bgra32 => simpa [PixelFormat.sourceSample, PixelFormat.channels, reorder] using reorderBgra_getD j hk hj

theorem effectiveRows_getD {c : Cfg} (f : PixelFormat) (m : Memory) {y : Nat} (hy : y < c.height.toNat) :
    (effectiveRows c f m).getD y [] = effectiveRow c f m y := by
  simp [effectiveRows, List.getD_eq_getElem?_getD, hy]

/-- Settles O47: byte by byte the reorder picks a sample of the source row (`reorder_getD`), and `readBytes_getD` gives its
address. -/
theorem effectiveRasterFollowsRegisters : Obligations.EffectiveRasterFollowsRegisters := by
  intro c f m y j k hy hj hk
  rw [effectiveRows_getD f m hy]
  refine ⟨effectiveRows_length c f m, effectiveRow_length c f m y, ?_⟩
  have hpixel : j * f.channels + f.channels ≤ rowLength c f := by
    rw [← Nat.succ_mul]
    exact Nat.mul_le_mul_right f.channels hj
  have hsample : j * f.channels + f.sourceSample k < rowLength c f :=
    Nat.lt_of_lt_of_le (Nat.add_lt_add_left (f.sourceSample_lt hk) _) hpixel
  rw [effectiveRow, reorder_getD f hk (by rwa [sourceRow, readBytes_length]), sourceRow, readBytes_getD m _ hsample]
  rfl

/-! ### Loads of the host (20_memory.md R74, R75) -/

theorem loadIsFree_iff (p : Params) (a : Word) (s : State) :
    loadIsFree p a s = true ↔
      (s.status.busy = true ∧ spansHold (writeRegion (decode s.cmdWord) s.cfg).toList a = true) ∨
      (p.coherent = false ∧ spansHold s.platform.stale a = true) := by
  simp [loadIsFree]

theorem hostLoad_free {p : Params} {a : Word} {s : State} (h : loadIsFree p a s = true) :
    hostLoad p a s = { s with rdata := (Config.freeByte s.draws 0).zeroExtend 32, draws := s.draws + 1 } := by
  simp [hostLoad, h]

theorem hostLoad_memory {p : Params} {a : Word} {s : State} (h : loadIsFree p a s = false) :
    hostLoad p a s = { s with rdata := (s.mem.read a).zeroExtend 32 } := by
  simp [hostLoad, h]

/-- The step of a host load from ordinary memory. -/
theorem step_memRead {s : State} {a : Word} {rest : List HostOp} (hdue : s.engineDue = false)
    (hserved : spansHold s.platform.unserved a = false) (hhost : s.host = .memRead a :: rest) :
    step s = .next (hostLoad Config.chip a (s.turn rest)) := by
  have hturn : spansHold (s.turn rest).platform.unserved a = false := hserved
  rw [step_eq_hostStep_turn hdue hhost]
  simp [hostStep, hturn]

theorem step_maintain {s : State} {rest : List HostOp} (hdue : s.engineDue = false) (hhost : s.host = .maintain :: rest) :
    step s = .next (maintain Config.chip (s.turn rest)) :=
  step_eq_hostStep_turn hdue hhost

/-- The step of `RD` of a register outside reset (30_encoding.md R95). -/
theorem step_stmtRd {s : State} {r : Reg} {name : String} {rest : List HostOp} (hdue : s.engineDue = false)
    (hreset : s.inReset = false) (hhost : s.host = stmtRd Config.chip r name :: rest) :
    step s = .next (readInto name (readReg r s) (s.turn rest)) := by
  have hok : accessedReg Config.chip (s.turn rest) (regAddress Config.chip r) 4 = .ok r := accessedReg_reg hreset r
  rw [step_eq_hostStep_turn hdue hhost, stmtRd, hostStep_regRead_ok hok, readReg_turn]

/-- A due command with an output completes with it, the duties kept. -/
theorem step_due_success {s : State} {out : List Byte} {res : Word} (hdue : s.engineDue = true) (hm : s.mem.wf = true)
    (ho : (runOf Config.chip (decode s.cmdWord) s).outcome = .ok out res)
    (hd : DutiesKept Config.chip (decode s.cmdWord) (.ok out res) s) :
    ∃ t, step s = .next t ∧ SuccessFrom s t out res := by
  rw [step_due hdue, exec_eq_complete]
  exact complete_success ho hd hm (Nat.lt_of_le_of_lt (runOf_ok_length_le ho) s.cfg.dstCap.isLt)

/-- Byte `k` of the output stands `k` past DST_BASE. -/
theorem SuccessFrom.read_output {s t : State} {out : List Byte} {res : Word} (h : SuccessFrom s t out res) {k : Nat}
    (hk : k < out.length) : t.mem.read (s.cfg.dstBase + BitVec.ofNat 32 k) = out.getD k 0 := by
  rw [← readBytes_getD t.mem _ hk, h.output]

/-- The host's view after its load of the output byte `b`: the STATUS it has read into `name` has DONE = 1, the load
returned `b`, and the accesses `rest` are still to come. -/
structure SeesOutput (name : String) (b : Byte) (rest : List HostOp) (t : State) : Prop where
  done : (varGet t.vars name).getLsbD 1 = true
  host : t.host = rest
  rdata : t.rdata = b.zeroExtend 32

/-- `s` is idle and has shown DONE = 1 to the host, and memory holds `b` at an ordinary address `a`. -/
structure OutputReady (name : String) (a : Word) (b : Byte) (s : State) : Prop where
  idle : s.status.busy = false
  done : (varGet s.vars name).getLsbD 1 = true
  served : spansHold s.platform.unserved a = false
  read : s.mem.read a = b

/-- The step of `RD STATUS` after a success completion, whose output holds byte `k` at an ordinary address. -/
theorem SuccessFrom.step_stmtRd {s t : State} {out : List Byte} {res : Word} (h : SuccessFrom s t out res) {k : Nat}
    (hk : k < out.length) (hserved : spansHold s.platform.unserved (s.cfg.dstBase + BitVec.ofNat 32 k) = false)
    (hreset : s.inReset = false) {name : String} {rest : List HostOp}
    (hhost : s.host = stmtRd Config.chip .status name :: rest) :
    ∃ u, step t = .next u ∧ u.host = rest ∧ OutputReady name (s.cfg.dstBase + BitVec.ofNat 32 k) (out.getD k 0) u := by
  have hstep := Machine.step_stmtRd (engineDue_false_of_idle h.frame.idle) (h.frame.inReset.trans hreset)
    (h.frame.host.trans hhost)
  refine ⟨_, hstep, rfl, h.frame.idle, ?_, ?_, h.read_output hk⟩
  · have hbit : (readReg .status t).getLsbD 1 = t.status.done := t.status.word_getLsbD 1
    simp only [readInto, varGet_varSet_self, hbit, h.frame.done]
  · have hunserved : (t.turn rest).platform.unserved = s.platform.unserved := h.frame.unserved
    simpa only [readInto, hunserved] using hserved

/-- Maintenance leaves nothing stale, and the output ready. -/
theorem OutputReady.step_maintain {name : String} {a : Word} {b : Byte} {s : State} (h : OutputReady name a b s)
    {rest : List HostOp} (hhost : s.host = .maintain :: rest) :
    ∃ t, step s = .next t ∧ t.host = rest ∧ t.platform.stale = [] ∧ OutputReady name a b t := by
  obtain ⟨d, heq, -⟩ := maintain_eq Config.chip (s.turn rest)
  have hstep := Machine.step_maintain (engineDue_false_of_idle h.idle) hhost
  rw [heq] at hstep
  exact ⟨_, hstep, rfl, rfl, h.idle, h.done, h.served, h.read⟩

/-- A load of a ready byte that is not stale returns it (20_memory.md R74). -/
theorem OutputReady.step_memRead {name : String} {a : Word} {b : Byte} {s : State} (h : OutputReady name a b s)
    (hfresh : Config.chip.coherent = true ∨ s.platform.stale = []) {rest : List HostOp}
    (hhost : s.host = .memRead a :: rest) : ∃ t, step s = .next t ∧ SeesOutput name b rest t := by
  have hstep := Machine.step_memRead (engineDue_false_of_idle h.idle) h.served hhost
  have hload : loadIsFree Config.chip a (s.turn rest) = false := by
    have hidle : (s.turn rest).status.busy = false := h.idle
    rcases hfresh with hcoherent | hstale
    · simp [loadIsFree, hidle, hcoherent]
    · have hnone : (s.turn rest).platform.stale = [] := hstale
      simp [loadIsFree, hidle, hnone]
  rw [hostLoad_memory hload] at hstep
  exact ⟨_, hstep, h.done, rfl, congrArg (BitVec.zeroExtend 32) h.read⟩

section
variable {s : State} {out : List Byte} {res : Word} {k : Nat} {name : String} {rest : List HostOp}
  (hdue : s.engineDue = true) (hm : s.mem.wf = true)
  (ho : (runOf Config.chip (decode s.cmdWord) s).outcome = .ok out res)
  (hd : DutiesKept Config.chip (decode s.cmdWord) (.ok out res) s) (hk : k < out.length)
  (hserved : spansHold s.platform.unserved (s.cfg.dstBase + BitVec.ofNat 32 k) = false)
include hdue hm ho hd hk hserved

/-- The completion and the STATUS read after it leave every byte of the output ready. -/
theorem run_completion_status (hhost : s.host = stmtRd Config.chip .status name :: rest) :
    ∃ t u, step s = .next t ∧ step t = .next u ∧ u.host = rest ∧
      OutputReady name (s.cfg.dstBase + BitVec.ofNat 32 k) (out.getD k 0) u := by
  obtain ⟨-, -, hreset⟩ := (engineDue_iff s).1 hdue
  obtain ⟨t, hcomplete, hsuccess⟩ := step_due_success hdue hm ho hd
  obtain ⟨u, hstatus⟩ := hsuccess.step_stmtRd hk hserved hreset hhost
  exact ⟨t, u, hcomplete, hstatus⟩

/-- On a coherent platform the load may follow the STATUS read at once. -/
theorem run_completion_status_load (hcoherent : Config.chip.coherent = true)
    (hhost : s.host = stmtRd Config.chip .status name :: .memRead (s.cfg.dstBase + BitVec.ofNat 32 k) :: rest) :
    ∃ t, Sys2Proof.core.run 3 s = .next t ∧ SeesOutput name (out.getD k 0) rest t := by
  obtain ⟨t, u, hcomplete, hstatus, huhost, hready⟩ := run_completion_status hdue hm ho hd hk hserved hhost
  obtain ⟨v, hload, hsees⟩ := hready.step_memRead (.inl hcoherent) huhost
  refine ⟨v, ?_, hsees⟩
  rw [run_succ_of_step hcomplete, run_succ_of_step hstatus, run_succ_of_step hload]
  rfl

/-- On every platform it may follow maintenance. -/
theorem run_completion_status_maintain_load
    (hhost : s.host =
      stmtRd Config.chip .status name :: .maintain :: .memRead (s.cfg.dstBase + BitVec.ofNat 32 k) :: rest) :
    ∃ t, Sys2Proof.core.run 4 s = .next t ∧ SeesOutput name (out.getD k 0) rest t := by
  obtain ⟨t, u, hcomplete, hstatus, huhost, hready⟩ := run_completion_status hdue hm ho hd hk hserved hhost
  obtain ⟨v, hmaintain, hvhost, hclear, hready'⟩ := hready.step_maintain huhost
  obtain ⟨w, hload, hsees⟩ := hready'.step_memRead (.inr hclear) hvhost
  refine ⟨w, ?_, hsees⟩
  rw [run_succ_of_step hcomplete, run_succ_of_step hstatus, run_succ_of_step hmaintain, run_succ_of_step hload]
  rfl

end

/-- Settles O60: a load's step is `hostLoad`, which draws exactly where `loadIsFree` holds; the step of maintenance is
`maintain`; and after a completion, the STATUS read and, where host caches may be stale, maintenance, memory holds the
output and the load is not free. -/
theorem hostLoadSeesCompletion : Obligations.HostLoadSeesCompletion := by
  refine ⟨?_, ?_, ?_⟩
  · intro s a rest hdue hserved hhost busyRegion staleByte
    have hstep := step_memRead hdue hserved hhost
    have hfree : loadIsFree Config.chip a (s.turn rest) = true ↔ busyRegion ∨ staleByte :=
      loadIsFree_iff Config.chip a (s.turn rest)
    constructor
    · rintro ⟨hbusy, hstale⟩
      have hload : loadIsFree Config.chip a (s.turn rest) = false :=
        Bool.eq_false_iff.2 fun h => (hfree.1 h).elim hbusy hstale
      rw [hstep, hostLoad_memory hload]
      rfl
    · intro h
      exact ⟨Config.freeByte s.draws 0, by rw [hstep, hostLoad_free (hfree.2 h)]; rfl⟩
  · intro s rest hdue hhost
    have hbusy := maintain_busy Config.chip (s := s.turn rest)
    have hstep := step_maintain hdue hhost
    obtain ⟨d, heq, hidle⟩ := maintain_eq Config.chip (s.turn rest)
    rw [heq] at hstep hbusy
    exact ⟨_, hstep, rfl, rfl, rfl, rfl, rfl, rfl, rfl, hidle, hbusy⟩
  · intro s out res k name rest hdue hm ho hd hk a hserved seen
    have hseen {t : State} (h : SeesOutput name (out.getD k 0) rest t) : seen t := ⟨h.done, h.host, h.rdata⟩
    constructor
    · intro hcoherent hhost
      obtain ⟨t, hrun, hsees⟩ := run_completion_status_load hdue hm ho hd hk hserved hcoherent hhost
      exact ⟨t, hrun, hseen hsees⟩
    · intro hhost
      obtain ⟨t, hrun, hsees⟩ := run_completion_status_maintain_load hdue hm ho hd hk hserved hhost
      exact ⟨t, hrun, hseen hsees⟩

end Sys2Proof.Machine
end

section
/-! ## The command words and the host statement WAIT (30_encoding.md)

A word below 7 is one of the seven commands; every other word is a reserved one, and decodes to its two fields
(`decode_reserved`). So `decode` and `encode` are inverse to each other on the well-formed commands, which is what the
opcode map and the completion of a placed word rest on. A `WAIT` is met again at every step of the LATENCY and left at
the step after the completion. -/

namespace Sys2Proof.Machine

/-! ### WAIT (R95, R96) -/

/-- The step of `WAIT` outside reset reads STATUS, and `WAIT` stays while that has BUSY = 1 (R95; log 23). -/
theorem step_wait {s : State} {rest : List HostOp} (hdue : s.engineDue = false) (hreset : s.inReset = false)
    (hhost : s.host = .wait :: rest) :
    step s = .next (readInto "s" (readReg .status s) (s.turn (if s.status.busy then s.host else rest))) := by
  have hturn : (s.turn rest).inReset = false := hreset
  rw [step_eq_hostStep_turn hdue hhost]
  simp only [hostStep, hturn, hhost, readReg_turn]
  rfl

/-- With the engine idle a `WAIT` is left, with BUSY = 0 read. -/
theorem step_wait_idle {s : State} {rest : List HostOp} (hidle : s.status.busy = false) (hreset : s.inReset = false)
    (hhost : s.host = .wait :: rest) :
    ∃ t, step s = .next t ∧ t.host = rest ∧ t.rdata.getLsbD 0 = false ∧ t.status = s.status := by
  have hread : (readReg .status s).getLsbD 0 = s.status.busy := s.status.word_getLsbD 0
  refine ⟨_, step_wait (engineDue_false_of_idle hidle) hreset hhost, ?_, hread.trans hidle, rfl⟩
  simp [State.turn, hidle]

/-- Settles O37, by induction on the LATENCY left: a `WAIT` step takes one off and meets the `WAIT` again, the step at 0 is
the completion, and the step after it leaves the `WAIT`. -/
theorem waitEndsAtCompletion : Obligations.WaitEndsAtCompletion := by
  intro s rest hbusy hreset hhost hplain
  induction hwait : s.wait generalizing s with
  | zero =>
    obtain ⟨t, ht, hframe⟩ := step_due_completes ((engineDue_iff s).2 ⟨hbusy, hwait, hreset⟩) hplain
    obtain ⟨u, hu, huhost, hread, hstatus⟩ :=
      step_wait_idle hframe.idle (hframe.inReset.trans hreset) (hframe.host.trans hhost)
    have hrun : Sys2Proof.core.run 2 s = .next u := (run_succ_of_step ht 1).trans (run_succ_of_step hu 0)
    exact ⟨u, hrun, huhost, hread, hstatus ▸ hframe.idle, hstatus ▸ hframe.done⟩
  | succ n ih =>
    have hstep := step_wait (engineDue_false_of_wait (by omega)) hreset hhost
    rw [if_pos hbusy] at hstep
    obtain ⟨t, ht, hleft⟩ :=
      ih (readInto "s" (readReg .status s) (s.turn s.host)) hbusy hreset hhost hplain (by simp [State.turn, hwait])
    exact ⟨t, (run_succ_of_step hstep (n + 2)).trans ht, hleft⟩

end Sys2Proof.Machine

namespace Sys2Proof

/-! ### The two fields of a command word (R90) -/

theorem encode_reserved_fields (w : Word) : encode (.reserved (rsvField w) (opcodeField w)) = w :=
  BitVec.extractLsb'_append_extractLsb'

theorem toNat_encode_reserved (rsv : BitVec 24) (opcode : BitVec 8) :
    (encode (.reserved rsv opcode)).toNat = rsv.toNat * 256 + opcode.toNat := by
  simp only [encode, BitVec.toNat_append]
  rw [← Nat.shiftLeft_add_eq_or_of_lt opcode.isLt, Nat.shiftLeft_eq]

/-- Two fields make a reserved word exactly if it is 7 or more (R93). -/
theorem wellFormed_reserved_iff (rsv : BitVec 24) (opcode : BitVec 8) :
    (Instr.reserved rsv opcode).wellFormed = true ↔ 7 ≤ (encode (.reserved rsv opcode)).toNat := by
  have hzero : rsv = 0 ↔ rsv.toNat = 0 := BitVec.toNat_inj.symm
  rw [toNat_encode_reserved]
  simp only [Instr.wellFormed, decide_eq_true_eq, ne_eq, hzero]
  omega

theorem wellFormed_fields_iff (w : Word) :
    (Instr.reserved (rsvField w) (opcodeField w)).wellFormed = true ↔ 7 ≤ w.toNat := by
  rw [wellFormed_reserved_iff, encode_reserved_fields]

/-! ### The decoder (R92, R93) -/

/-- A word whose fields make a reserved one decodes to them. -/
theorem decode_reserved {w : Word} (h : (Instr.reserved (rsvField w) (opcodeField w)).wellFormed = true) :
    decode w = .reserved (rsvField w) (opcodeField w) := by
  simp only [Instr.wellFormed, decide_eq_true_eq] at h
  by_cases hrsv : rsvField w = 0
  · have hopcode : 7 ≤ (opcodeField w).toNat := h.resolve_left (not_not_intro hrsv)
    simp only [decode, hrsv, if_true]
    split
    case h_8 => rfl
    all_goals omega
  · simp only [decode, hrsv, if_false]

/-- The seven words that select a command (R92). -/
theorem decode_below_seven :
    ∀ n < 7, (decode (BitVec.ofNat 32 n)).wellFormed = true ∧ encode (decode (BitVec.ofNat 32 n)) = BitVec.ofNat 32 n := by
  decide

/-- Settles O1: a reserved word has the two fields it is made of (`FieldsOfWord.reserved`), and they are what it decodes
to. -/
theorem encodedCommandDecodesBack : Obligations.EncodedCommandDecodesBack := by
  intro i hi
  cases i with
  | reserved rsv opcode =>
    have hrsv : rsvField (encode (.reserved rsv opcode)) = rsv := (Laws.FieldsOfWord.reserved rsv opcode).1
    have hopcode : opcodeField (encode (.reserved rsv opcode)) = opcode := (Laws.FieldsOfWord.reserved rsv opcode).2
    rw [decode_reserved (by rwa [hrsv, hopcode]), hrsv, hopcode]
  | _ => decide

/-- Settles O2: a word of 7 or more decodes to its fields, and seven words are left. -/
theorem everyWordIsOneCommand : Obligations.EveryWordIsOneCommand := by
  intro w
  by_cases hw : 7 ≤ w.toNat
  · have hfields := (wellFormed_fields_iff w).2 hw
    rw [decode_reserved hfields]
    exact ⟨hfields, encode_reserved_fields w⟩
  · have hcommand := decode_below_seven w.toNat (by omega)
    rwa [BitVec.ofNat_toNat, BitVec.setWidth_eq] at hcommand

/-- A word decodes to a well-formed command exactly if it is the command's word. -/
theorem decode_eq_iff {w : Word} {i : Instr} (hi : i.wellFormed = true) : decode w = i ↔ w = encode i :=
  ⟨fun h => h ▸ (everyWordIsOneCommand w).2.symm, fun h => h ▸ encodedCommandDecodesBack i hi⟩

/-- Settles O3: by `decode_eq_iff` for each command, and by `wellFormed_reserved_iff` for the reserved words. -/
theorem opcodeMapSelectsCommand : Obligations.OpcodeMapSelectsCommand := by
  intro w
  refine ⟨decode_eq_iff rfl, decode_eq_iff rfl, decode_eq_iff rfl, decode_eq_iff rfl, decode_eq_iff rfl, decode_eq_iff rfl,
    decode_eq_iff rfl, ?_, fun hw => ⟨_, _, decode_reserved ((wellFormed_fields_iff w).2 hw)⟩⟩
  rintro ⟨rsv, opcode, hw⟩
  obtain ⟨hwf, hword⟩ := everyWordIsOneCommand w
  rw [hw] at hwf hword
  exact hword ▸ (wellFormed_reserved_iff rsv opcode).1 hwf

/-- Settles O4: each word is decoded. -/
theorem tableWordsDecode : Obligations.TableWordsDecode := by
  unfold Obligations.TableWordsDecode
  decide

end Sys2Proof

namespace Sys2Proof.Machine

/-! ### A placed command word (R90; log 3) -/

/-- A run of 32 bits is the word itself (log 26). -/
theorem tableWord_toNat (w : Word) : tableWord 32 w.toNat = w := by
  rw [tableWord, Nat.mod_eq_of_lt w.isLt, BitVec.ofNat_toNat, BitVec.setWidth_eq]

/-- With a word placed the engine is due, whatever it was doing. -/
theorem engineDue_withFetchWord (s : State) (nbits w : Nat) : (s.withFetchWord nbits w).engineDue = true :=
  (engineDue_iff _).2 ⟨rfl, rfl, rfl⟩

/-- Settles O6: the engine is due, and the latch decodes to the command. -/
theorem placedWordIsCompleted : Obligations.PlacedWordIsCompleted := by
  intro s i hi
  rw [step_due (engineDue_withFetchWord s 32 _), withFetchWord_cmdWord, tableWord_toNat, encodedCommandDecodesBack i hi]

end Sys2Proof.Machine
end

section
/-! ## The checksum units (41_checksums.md)

One shift of the CRC register is linear in `^^^`, so a CRC step is the sum of what it does to the register's upper 24 bits,
where no polynomial enters, and of what it does to the low byte, which is a table entry (R123). Reduction modulo 65521
commutes with taking a byte in, so every schedule of reductions ends at the reduction of the sums that were never reduced
(`foldl_adlerReduce_adlerByte`, `adlerBlocks_adlerReduce`), and those have the closed form of R126. -/

namespace Sys2Proof.Machine

/-! ### The CRC step (R121, R123) -/

/-- What the bit shifted out adds to the register (R121). -/
def crcFeedback (out : Bool) : Word := if out then 0xEDB88320 else 0

theorem crcFeedback_xor : ∀ x y : Bool, crcFeedback (x ^^ y) = crcFeedback x ^^^ crcFeedback y := by decide

theorem crcShift_eq (c : Word) : crcShift c = (c >>> 1) ^^^ crcFeedback (c.getLsbD 0) := by
  rw [crcShift, crcFeedback]
  split
  · rfl
  · exact BitVec.xor_zero.symm

theorem crcShift_xor (c d : Word) : crcShift (c ^^^ d) = crcShift c ^^^ crcShift d := by
  simp only [crcShift_eq, BitVec.getLsbD_xor, BitVec.ushiftRight_xor_distrib, crcFeedback_xor]
  ac_rfl

theorem crcShifts_xor (n : Nat) (c d : Word) : crcShifts n (c ^^^ d) = crcShifts n c ^^^ crcShifts n d := by
  induction n generalizing c d with
  | zero => rfl
  | succ n ih => simp only [crcShifts, crcShift_xor, ih]

/-- The polynomial enters only for a bit that is shifted out. -/
theorem crcShifts_of_low_zero {n : Nat} {c : Word} (h : ∀ k < n, c.getLsbD k = false) : crcShifts n c = c >>> n := by
  induction n generalizing c with
  | zero => simp [crcShifts]
  | succ n ih =>
    have hshift : crcShift c = c >>> 1 := by rw [crcShift_eq, h 0 n.succ_pos]; exact BitVec.xor_zero
    have hlow : ∀ k < n, (c >>> 1).getLsbD k = false := fun k hk => by
      rw [BitVec.getLsbD_ushiftRight, h (1 + k) (by omega)]
    rw [crcShifts, hshift, ih hlow, ← BitVec.shiftRight_add, Nat.add_comm]

/-- A byte goes into the low byte of the register and leaves the upper 24 bits. -/
theorem xor_byte_eq_high_xor_low (cr : Word) (b : Byte) :
    cr ^^^ b.zeroExtend 32 = cr >>> 8 <<< 8 ^^^ ((cr ^^^ b.zeroExtend 32).setWidth 8).zeroExtend 32 := by
  ext k hk
  by_cases hlow : k < 8
  · simp [hk, hlow]
  · have hback : 8 + (k - 8) = k := by omega
    simp [hlow, hback, BitVec.getLsbD_eq_getElem hk]

theorem crcTable_eq (x : Byte) : crcTable x = crcShifts 8 (x.zeroExtend 32) :=
  congrArg (crcShifts 8) BitVec.zero_xor

/-- The register after a byte is the upper 24 bits shifted down, and the table's entry for the low byte (R123). -/
theorem crcStep_eq_table (cr : Word) (b : Byte) :
    crcStep cr b = (cr >>> 8) ^^^ crcTable ((cr ^^^ b.zeroExtend 32).setWidth 8) := by
  have hhigh : crcShifts 8 (cr >>> 8 <<< 8) = cr >>> 8 := by
    rw [crcShifts_of_low_zero (fun k hk => by simp [hk])]
    ext k hk
    simpa using BitVec.lt_of_getLsbD
  rw [crcTable_eq, crcStep]
  conv_lhs => rw [xor_byte_eq_high_xor_low]
  rw [crcShifts_xor, hhigh]

/-- Settles O39: `crcStep_eq_table`, and three entries evaluated. -/
theorem crcStepEqualsTableForm : Obligations.CrcStepEqualsTableForm :=
  ⟨crcStep_eq_table, by decide, by decide, by decide⟩

/-! ### The Adler sums (R125, R126) -/

theorem adlerReduce_adlerReduce (a : Sums) : adlerReduce (adlerReduce a) = adlerReduce a := by
  simp [adlerReduce]

/-- A reduction before a byte is lost in the reduction after it. -/
theorem adlerReduce_adlerByte_adlerReduce (a : Sums) (b : Byte) :
    adlerReduce (adlerByte (adlerReduce a) b) = adlerReduce (adlerByte a b) := by
  simp [adlerReduce, adlerByte, Nat.add_mod]

/-- The reduction after every byte ends at the reduction of the sums never reduced. -/
theorem foldl_adlerReduce_adlerByte (a : Sums) (d : List Byte) :
    d.foldl (fun x b => adlerReduce (adlerByte x b)) (adlerReduce a) = adlerReduce (d.foldl adlerByte a) :=
  List.foldl_hom adlerReduce adlerReduce_adlerByte_adlerReduce

/-- A reduction before a block is lost in the reduction after it. -/
theorem adlerReduce_foldl_adlerReduce (a : Sums) (d : List Byte) :
    adlerReduce (d.foldl adlerByte (adlerReduce a)) = adlerReduce (d.foldl adlerByte a) := by
  rw [← foldl_adlerReduce_adlerByte, adlerReduce_adlerReduce, foldl_adlerReduce_adlerByte]

/-- With fuel for every byte, the blocks end at the reduction of the sums never reduced. -/
theorem adlerBlocks_adlerReduce {fuel : Nat} (a : Sums) {d : List Byte} (hfuel : d.length ≤ fuel) :
    adlerBlocks fuel (adlerReduce a) d = adlerReduce (d.foldl adlerByte a) := by
  induction fuel generalizing a d with
  | zero => rw [List.eq_nil_of_length_eq_zero (Nat.le_zero.1 hfuel)]; rfl
  | succ fuel ih =>
    cases d with
    | nil => rfl
    | cons b rest =>
      have hrest : ((b :: rest).drop adlerBlock).length ≤ fuel := by
        simp only [List.length_drop, adlerBlock, List.length_cons] at hfuel ⊢
        omega
      rw [adlerBlocks, ih _ hrest, ← List.foldl_append, List.take_append_drop, adlerReduce_foldl_adlerReduce]

theorem adlerSums_eq_adlerReduce (d : List Byte) : adlerSums d = adlerReduce (d.foldl adlerByte ⟨1, 0⟩) :=
  adlerBlocks_adlerReduce ⟨1, 0⟩ le_rfl

theorem adlerPerByte_eq_adlerReduce (d : List Byte) : adlerPerByte d = adlerReduce (d.foldl adlerByte ⟨1, 0⟩) := by
  rw [← foldl_adlerReduce_adlerByte]
  simp only [adlerPerByte, adlerReduce, adlerByte, adlerMod, Nat.add_mod_mod]

/-- The sums never reduced, from any start: the start's S1 is added to S2 at every byte. -/
theorem foldl_adlerByte (a : Sums) (d : List Byte) :
    d.foldl adlerByte a = ⟨a.s1 + byteSum d, a.s2 + d.length * a.s1 + weightedSum d⟩ := by
  induction d generalizing a with
  | nil => simp [byteSum, weightedSum]
  | cons b rest ih =>
    simp only [List.foldl_cons, ih, adlerByte, byteSum, weightedSum, List.map_cons, List.sum_cons, List.length_cons,
      Sums.mk.injEq]
    constructor <;> ring

/-- The reduced sums in closed form (R126). -/
theorem adlerSums_closed (d : List Byte) :
    adlerSums d = ⟨(1 + byteSum d) % 65521, (d.length + weightedSum d) % 65521⟩ := by
  simp [adlerSums_eq_adlerReduce, foldl_adlerByte, adlerReduce, adlerMod]

/-- Two sums that fit their halves make a word without overlap (R125). -/
theorem Sums.word_eq {a : Sums} (h : a.s1 < 65536) : a.word = BitVec.ofNat 32 (a.s2 * 65536 + a.s1) := by
  rw [Sums.word, ← Nat.shiftLeft_add_eq_or_of_lt h, Nat.shiftLeft_eq]

theorem adler32_eq_adlerClosed (d : List Byte) : adler32 d = adlerClosed d := by
  have hs1 : (1 + byteSum d) % 65521 < 65536 := by omega
  rw [adler32, adlerSums_closed, Sums.word_eq hs1, adlerClosed]

/-- The largest S2 of `n` bytes from reduced sums stays below 2^32 exactly up to 5552 bytes: it grows with `n`, and the
two sides of the bound are evaluated. -/
theorem adlerBlock_largest (n : Nat) : 255 * (n * (n + 1) / 2) + (n + 1) * 65520 < 2 ^ 32 ↔ n ≤ 5552 := by
  constructor
  · intro h
    by_contra hn
    have hmul : 5553 * (5553 + 1) ≤ n * (n + 1) := Nat.mul_le_mul (by omega) (by omega)
    omega
  · intro h
    have hmul : n * (n + 1) ≤ 5552 * (5552 + 1) := Nat.mul_le_mul h (by omega)
    omega

/-- Settles O40: both schedules end at the reduction of the sums never reduced, whose closed form is a sum over the bytes
(`foldl_adlerByte`). -/
theorem adlerReductionNotObservable : Obligations.AdlerReductionNotObservable := by
  refine ⟨fun d => ⟨?_, adler32_eq_adlerClosed d, ?_, ?_⟩, adlerBlock_largest⟩
  · rw [adlerSums_eq_adlerReduce, adlerPerByte_eq_adlerReduce]
  · rw [adlerSums_closed]
    exact Nat.mod_lt _ (by decide)
  · rw [adlerSums_closed]
    exact Nat.mod_lt _ (by decide)

end Sys2Proof.Machine
end

section
/-! ## The filter bank (42_filter_bank.md)

A filtered byte is the byte less a predictor of bytes that stand to its left or above it (`filterRow_getD`). The
unfiltering has those bytes already when it comes to the byte, so it adds the same predictor back
(`unfilterFrom_filterRow`), and by induction over the rows it gives the raster back (`unfilterPlane_filterBankRows`). The
selection is the first least cost of the five (`selectLeast_first_least`). -/

namespace Sys2Proof.Machine

/-! ### The predictors (R142 to R148) -/

/-- A difference of bytes is taken modulo 256 (R142). -/
theorem byte_sub_toNat (x y : Byte) : (x - y).toNat = (x.toNat + 256 - y.toNat) % 256 := by
  have hy : y.toNat < 2 ^ 8 := y.isLt
  rw [BitVec.toNat_sub]
  congr 1
  omega

/-- The Average of two bytes is a byte (R146). -/
theorem predictor_average_toNat (a b c : Byte) : (predictor .average a b c).toNat = (a.toNat + b.toNat) / 2 := by
  have ha : a.toNat < 2 ^ 8 := a.isLt
  have hb : b.toNat < 2 ^ 8 := b.isLt
  exact Nat.mod_eq_of_lt (by omega)

theorem predictor_zero (t : FilterType) : predictor t 0 0 0 = 0 := by
  cases t <;> rfl

/-- Where nothing is above, left is at distance 0 from left + up − upper-left (R149). -/
theorem paeth_left_only (a : Byte) : paeth a 0 0 = a := by
  have hdist : ((a.toNat : Int) + (0 : Byte).toNat - (0 : Byte).toNat - a.toNat).natAbs = 0 := by simp
  exact if_pos (by simp only [hdist, Nat.zero_le, and_self])

/-- Settles O41: one case for each byte that `paeth` picks. -/
theorem paethPicksNearest : Obligations.PaethPicksNearest := by
  intro a b c p dist x
  by_cases ha : dist a ≤ dist b ∧ dist a ≤ dist c
  · have hx : x = a := if_pos ha
    exact ⟨.inl hx, hx ▸ le_rfl, hx ▸ ha.1, hx ▸ ha.2, fun _ _ => hx, fun hna => absurd ha hna⟩
  · have hx : x = if dist b ≤ dist c then b else c := if_neg ha
    have hna : dist a ≤ dist b → dist a ≤ dist c → x = a := fun hab hac => absurd ⟨hab, hac⟩ ha
    by_cases hb : dist b ≤ dist c
    · rw [if_pos hb] at hx
      exact ⟨.inr (.inl hx), by rw [hx]; omega, hx ▸ le_rfl, hx ▸ hb, hna, fun _ _ => hx⟩
    · rw [if_neg hb] at hx
      exact ⟨.inr (.inr hx), by rw [hx]; omega, by rw [hx]; omega, hx ▸ le_rfl, hna, fun _ hbc => absurd hbc hb⟩

/-! ### Candidate rows (R142 to R149) -/

theorem filterRow_getD_toNat (t : FilterType) (n : Nat) (prev : Option (List Byte)) {cur : List Byte} {k : Nat}
    (h : k < cur.length) :
    ((filterRow t n prev cur).getD k 0).toNat =
      ((cur.getD k 0).toNat + 256 - (predictor t (leftOf n cur k) (upOf prev k) (upperLeftOf n prev k)).toNat) % 256 := by
  rw [filterRow_getD t n prev cur h, byte_sub_toNat]

/-- A filter that predicts 0 everywhere copies the row. -/
theorem filterRow_eq_self {t : FilterType} {n : Nat} {prev : Option (List Byte)} {cur : List Byte}
    (h : ∀ k, predictor t (leftOf n cur k) (upOf prev k) (upperLeftOf n prev k) = 0) : filterRow t n prev cur = cur := by
  refine List.ext_getElem (filterRow_length t n prev cur) fun k _ hk => ?_
  simp [filterRow, h, hk]

@[simp] theorem filterRow_none (n : Nat) (prev : Option (List Byte)) (cur : List Byte) :
    filterRow .none n prev cur = cur := filterRow_eq_self fun _ => rfl

@[simp] theorem filterRow_up_rowZero (n : Nat) (cur : List Byte) : filterRow .up n none cur = cur :=
  filterRow_eq_self fun _ => rfl

@[simp] theorem filterRow_paeth_rowZero (n : Nat) (cur : List Byte) :
    filterRow .paeth n none cur = filterRow .sub n none cur := by
  simp only [filterRow, predictor, upOf, upperLeftOf, paeth_left_only]

/-- Settles O42: `filterRow_getD_toNat` for each filter; the Average of two bytes fits a byte. -/
theorem filterBytesFollowRules : Obligations.FilterBytesFollowRules := by
  intro n prev cur k hk x a b c
  have byte (t : FilterType) : ((filterRow t n prev cur).getD k 0).toNat =
      (x.toNat + 256 - (predictor t a b c).toNat) % 256 := filterRow_getD_toNat t n prev hk
  refine ⟨by rw [filterRow_none], byte .sub, byte .up, ?_, byte .paeth⟩
  rw [byte .average, predictor_average_toNat]

/-! ### Rows through the bank (R151 to R154) -/

/-- The row that the next row through the bank sees above it (R153). -/
def FilterBank.above (fb : FilterBank) : Option (List Byte) := if fb.y = 0 then none else some fb.cur

/-- The filter the bank uses for a row (R151, R152). -/
def FilterBank.selected (fb : FilterBank) (n : Nat) (mode : FilterMode) (row : List Byte) : FilterType :=
  let cost := fun u => rowCost (filterRow u n fb.above row)
  match mode with
  | .forced t => t
  | .adaptive => selectAdaptive (cost .none) (cost .sub) (cost .up) (cost .average) (cost .paeth)

theorem filterBankRow_snd (n : Nat) (mode : FilterMode) (fb : FilterBank) (row : List Byte) :
    (filterBankRow n mode fb row).2 =
      (fb.selected n mode row).tag :: filterRow (fb.selected n mode row) n fb.above row := by
  cases mode <;> exact (filterBankRow_eq n _ fb row).1

theorem filterBankRow_above (n : Nat) (mode : FilterMode) (fb : FilterBank) (row : List Byte) :
    (filterBankRow n mode fb row).1.above = some row := by
  obtain ⟨-, hcur, hy⟩ := filterBankRow_eq n mode fb row
  simp [FilterBank.above, hcur, hy]

theorem filterBankRows_cons_snd (n : Nat) (mode : FilterMode) (fb : FilterBank) (row : List Byte)
    (rows : List (List Byte)) :
    (filterBankRows n mode fb (row :: rows)).2 =
      (fb.selected n mode row).tag :: (filterRow (fb.selected n mode row) n fb.above row ++
        (filterBankRows n mode (filterBankRow n mode fb row).1 rows).2) := by
  rw [filterBankRows, filterBankRow_snd, List.cons_append]

/-- Settles O43: on row 0 nothing is above, so Up predicts 0, Paeth predicts the left byte and Average half of it. -/
theorem rowZeroDegenerates : Obligations.RowZeroDegenerates := by
  intro n cur
  refine ⟨filterRow_up_rowZero n cur, filterRow_paeth_rowZero n cur, fun k hk => ⟨?_, ?_⟩, fun t => ?_⟩
  · rw [filterRow_getD_toNat .average n none hk, predictor_average_toNat, leftOf]
    split <;> simp [upOf]
  · rw [filterRow_paeth_rowZero, filterRow_getD_toNat .sub n none hk, predictor, leftOf]
    split <;> rfl
  · exact (filterBankRows_cons_snd n (.forced t) Work.fresh.filter cur []).trans
      (congrArg (t.tag :: ·) (List.append_nil (filterRow t n none cur)))

/-! ### Costs (R150) -/

theorem absSext8_eq_natAbs (b : Byte) : absSext8 b = b.toInt.natAbs := by
  have hb : b.toNat < 2 ^ 8 := b.isLt
  rw [absSext8, BitVec.toInt_eq_toNat_cond]
  split <;> split <;> omega

theorem absSext8_le (b : Byte) : absSext8 b ≤ 128 := by
  rw [absSext8]
  split <;> omega

theorem rowCost_le (row : List Byte) : rowCost row ≤ 128 * row.length := by
  have h := List.sum_le_card_nsmul (row.map absSext8) 128 (List.forall_mem_map.2 fun b _ => absSext8_le b)
  rwa [List.length_map, smul_eq_mul, Nat.mul_comm] at h

theorem rowCost_zero {row : List Byte} (h : ∀ b ∈ row, b = 0) : rowCost row = 0 :=
  List.sum_eq_zero (List.forall_mem_map.2 fun b hb => by rw [h b hb]; rfl)

/-- Settles O44: byte by byte (`absSext8_eq_natAbs`, `absSext8_le`), and the rule's example evaluated. -/
theorem rowCostIsSignedSum : Obligations.RowCostIsSignedSum :=
  ⟨fun row => ⟨congrArg List.sum (List.map_congr_left fun b _ => absSext8_eq_natAbs b), rowCost_le row⟩, by decide⟩

/-! ### Selection (R151) -/

/-- Among filters in rising order, the scan ends at one whose cost no other's is below, the first of equal costs. -/
theorem selectLeast_first_least (c : FilterType → Nat) (best : FilterType) (rest : List FilterType)
    (h : (best :: rest).Pairwise fun t u => t.tag.toNat ≤ u.tag.toNat) :
    let t := selectLeast best (c best) (rest.map fun u => (u, c u))
    ∀ u ∈ best :: rest, c t < c u ∨ c t = c u ∧ t.tag.toNat ≤ u.tag.toNat := by
  induction rest generalizing best with
  | nil => simp [selectLeast]
  | cons v rest ih =>
    obtain ⟨hbest, hrest⟩ := List.pairwise_cons.1 h
    simp only [List.map_cons, selectLeast]
    split
    · next hlt =>
      have hv := ih v hrest
      intro u hu
      obtain rfl | hu := List.mem_cons.1 hu
      · have := hv v List.mem_cons_self
        omega
      · exact hv u hu
    · next hle =>
      have hb := ih best (h.sublist ((List.sublist_cons_self v rest).cons_cons best))
      intro u hu
      obtain rfl | hu := List.mem_cons.1 hu
      · exact hb u List.mem_cons_self
      · obtain rfl | hu := List.mem_cons.1 hu
        · have := hb best List.mem_cons_self
          have := hbest u List.mem_cons_self
          omega
        · exact hb u (List.mem_cons_of_mem best hu)

/-- The filter selected has the least cost, and the lowest index of equal costs. -/
theorem selectAdaptive_first_least (c : FilterType → Nat) (u : FilterType) :
    let t := selectAdaptive (c .none) (c .sub) (c .up) (c .average) (c .paeth)
    c t < c u ∨ c t = c u ∧ t.tag.toNat ≤ u.tag.toNat :=
  selectLeast_first_least c .none [.sub, .up, .average, .paeth] (by decide) u (by cases u <;> decide)

theorem selectAdaptive_least (c : FilterType → Nat) :
    let t := selectAdaptive (c .none) (c .sub) (c .up) (c .average) (c .paeth)
    (∀ u, c t ≤ c u) ∧ (∀ u, c u = c t → t.tag.toNat ≤ u.tag.toNat) := by
  refine ⟨fun u => ?_, fun u hu => ?_⟩
  all_goals
    have := selectAdaptive_first_least c u
    omega

/-- A filter is never selected beside one of lower index and no greater cost. -/
theorem selectAdaptive_ne {c : FilterType → Nat} {t u : FilterType} (hc : c u ≤ c t) (htag : u.tag.toNat < t.tag.toNat) :
    selectAdaptive (c .none) (c .sub) (c .up) (c .average) (c .paeth) ≠ t := by
  rintro rfl
  have := selectAdaptive_first_least c u
  omega

theorem selectAdaptive_eq_none {c : FilterType → Nat} (hc : ∀ u, c .none ≤ c u) :
    selectAdaptive (c .none) (c .sub) (c .up) (c .average) (c .paeth) = .none := by
  by_contra hne
  refine selectAdaptive_ne (hc (selectAdaptive (c .none) (c .sub) (c .up) (c .average) (c .paeth))) ?_ rfl
  revert hne
  cases selectAdaptive (c .none) (c .sub) (c .up) (c .average) (c .paeth) <;> decide

/-- Settles O45: the scan keeps the first least cost; on row 0 filter 2 costs what filter 0 does and filter 4 what
filter 1 does, and an all-zero row costs 0 unfiltered. -/
theorem adaptiveSelectsLeastCost : Obligations.AdaptiveSelectsLeastCost := by
  refine ⟨selectAdaptive_least, fun n fb row => ?_, fun n cur => ?_⟩
  · exact ⟨fb.selected n .adaptive row, filterBankRow_snd n .adaptive fb row,
      selectAdaptive_least fun u => rowCost (filterRow u n fb.above row)⟩
  · let cost := fun u => rowCost (filterRow u n none cur)
    have hup : cost .none = cost .up := by simp [cost]
    have hpaeth : cost .sub = cost .paeth := by simp [cost]
    refine ⟨selectAdaptive_ne (c := cost) hup.le (by decide), selectAdaptive_ne (c := cost) hpaeth.le (by decide),
      fun hzero => selectAdaptive_eq_none (c := cost) fun u => ?_⟩
    have hnone : cost .none = 0 := by rw [← rowCost_zero hzero]; simp only [cost, filterRow_none]
    exact hnone ▸ Nat.zero_le _

/-! ### Unfiltering a row (R155) -/

theorem filterOfTag_tag (t : FilterType) : filterOfTag t.tag = t := by
  cases t <;> rfl

/-- The left neighbour of the byte after `out` stands in `out`. -/
theorem leftOf_append {n : Nat} (hn : 0 < n) (out rest : List Byte) :
    leftOf n (out ++ rest) out.length = leftOf n out out.length := by
  rw [leftOf, leftOf]
  split
  · exact List.getD_append _ _ _ _ (by omega)
  · rfl

/-- Unfiltering a row gives it back, whatever part `out` of it is already unfiltered. -/
theorem unfilterFrom_drop_filterRow {n : Nat} (hn : 0 < n) (t : FilterType) (prev : Option (List Byte))
    (out rest : List Byte) :
    unfilterFrom t n prev out ((filterRow t n prev (out ++ rest)).drop out.length) = out ++ rest := by
  induction rest generalizing out with
  | nil => simp [List.drop_eq_nil_of_le, unfilterFrom]
  | cons x rest ih =>
    have hk : out.length < (out ++ x :: rest).length := by simp
    have hlen : out.length < (filterRow t n prev (out ++ x :: rest)).length := by simp
    have hbyte : (filterRow t n prev (out ++ x :: rest))[out.length] =
        x - predictor t (leftOf n out out.length) (upOf prev out.length) (upperLeftOf n prev out.length) := by
      have h := filterRow_getD t n prev (out ++ x :: rest) hk
      rw [leftOf_append hn, List.getD_eq_getElem _ _ hlen, List.getD_eq_getElem _ _ hk] at h
      simpa using h
    have hnext := ih (out ++ [x])
    rw [List.append_assoc, List.singleton_append, List.length_append, List.length_singleton] at hnext
    rw [List.drop_eq_getElem_cons hlen, unfilterFrom, hbyte, BitVec.sub_add_cancel, hnext]

theorem unfilterFrom_filterRow {n : Nat} (hn : 0 < n) (t : FilterType) (prev : Option (List Byte)) (row : List Byte) :
    unfilterFrom t n prev [] (filterRow t n prev row) = row :=
  unfilterFrom_drop_filterRow hn t prev [] row

/-! ### All-zero rows (R155) -/

theorem getD_zero_of_all_zero {row : List Byte} (h : ∀ b ∈ row, b = 0) (k : Nat) : row.getD k 0 = 0 := by
  rw [List.eq_replicate_of_mem h, List.getD_eq_getElem?_getD, List.getElem?_getD_replicate_default_eq]

theorem leftOf_all_zero {row : List Byte} (h : ∀ b ∈ row, b = 0) (n k : Nat) : leftOf n row k = 0 := by
  rw [leftOf, getD_zero_of_all_zero h, ite_self]

/-- A zero row below a zero row, or on row 0, is its own candidate under every filter. -/
theorem filterRow_all_zero (t : FilterType) (n : Nat) {prev : Option (List Byte)} {row : List Byte}
    (hprev : ∀ r ∈ prev, ∀ b ∈ r, b = 0) (hrow : ∀ b ∈ row, b = 0) : filterRow t n prev row = row := by
  refine filterRow_eq_self fun k => ?_
  rw [leftOf_all_zero hrow]
  cases prev with
  | none => exact predictor_zero t
  | some r =>
    have hr := hprev r rfl
    rw [upOf, upperLeftOf, getD_zero_of_all_zero hr, leftOf_all_zero hr, predictor_zero]

/-! ### The plane (R154, R155) -/

/-- Unfiltering what the bank appends for the rows gives them back, from any state of the bank (R155). -/
theorem unfilterPlane_filterBankRows {n len : Nat} (hn : 0 < n) (mode : FilterMode) (fb : FilterBank)
    {rows : List (List Byte)} (hlen : ∀ r ∈ rows, r.length = len) :
    unfilterPlane n len rows.length fb.above (filterBankRows n mode fb rows).2 = rows := by
  induction rows generalizing fb with
  | nil => rfl
  | cons row rows ih =>
    obtain ⟨hrow, hrows⟩ := List.forall_mem_cons.1 hlen
    have hfiltered : (filterRow (fb.selected n mode row) n fb.above row).length = len := by rw [filterRow_length, hrow]
    have hrest := ih (filterBankRow n mode fb row).1 hrows
    rw [filterBankRow_above] at hrest
    rw [filterBankRows_cons_snd, List.length_cons, unfilterPlane]
    simp only [List.take_left' hfiltered, List.drop_left' hfiltered, filterOfTag_tag, unfilterFrom_filterRow hn, hrest]

theorem filterBankRows_length_of_rows {n len : Nat} (mode : FilterMode) (fb : FilterBank) {rows : List (List Byte)}
    (hlen : ∀ r ∈ rows, r.length = len) :
    (filterBankRows n mode fb rows).2.length = rows.length * (len + 1) := by
  have h := List.sum_eq_card_nsmul (rows.map fun r => r.length + 1) (len + 1)
    (List.forall_mem_map.2 fun r hr => by rw [hlen r hr])
  rw [filterBankRows_length, h, List.length_map, smul_eq_mul]

/-- The tag of an all-zero row (R155). -/
def FilterMode.zeroRowTag : FilterMode → Byte
  | .forced t => t.tag
  | .adaptive => 0

theorem FilterBank.selected_tag_all_zero {fb : FilterBank} (n : Nat) (mode : FilterMode) {row : List Byte}
    (habove : ∀ r ∈ fb.above, ∀ b ∈ r, b = 0) (hrow : ∀ b ∈ row, b = 0) :
    (fb.selected n mode row).tag = mode.zeroRowTag := by
  cases mode with
  | forced t => rfl
  | adaptive =>
    have hcost (u : FilterType) : rowCost (filterRow u n fb.above row) = 0 := by
      rw [filterRow_all_zero u n habove hrow, rowCost_zero hrow]
    exact congrArg FilterType.tag (selectAdaptive_eq_none (c := fun u => rowCost (filterRow u n fb.above row))
      fun u => (hcost .none).le.trans (Nat.zero_le _))

theorem filterBankRows_all_zero (n : Nat) (mode : FilterMode) {fb : FilterBank} {rows : List (List Byte)}
    (habove : ∀ r ∈ fb.above, ∀ b ∈ r, b = 0) (hrows : ∀ r ∈ rows, ∀ b ∈ r, b = 0) :
    (filterBankRows n mode fb rows).2 = rows.flatMap fun r => mode.zeroRowTag :: r := by
  induction rows generalizing fb with
  | nil => rfl
  | cons row rows ih =>
    obtain ⟨hrow, hrest⟩ := List.forall_mem_cons.1 hrows
    have hnext : ∀ r ∈ (filterBankRow n mode fb row).1.above, ∀ b ∈ r, b = 0 := by
      rw [filterBankRow_above]
      rintro r ⟨⟩
      exact hrow
    rw [filterBankRows_cons_snd, FilterBank.selected_tag_all_zero n mode habove hrow, filterRow_all_zero _ n habove hrow,
      ih hnext hrest, List.flatMap_cons, List.cons_append]

theorem PixelFormat.channels_pos (f : PixelFormat) : 0 < f.channels := by
  cases f <;> decide

/-- Settles O46: each part holds from any state of the bank, by induction over the rows, and a fresh bank has no row
above. -/
theorem filterPlaneIsReversible : Obligations.FilterPlaneIsReversible := by
  intro f mode len rows hlen
  refine ⟨unfilterPlane_filterBankRows f.channels_pos mode Work.fresh.filter hlen,
    filterBankRows_length_of_rows mode _ hlen, fun hzero => ?_⟩
  rw [filteredPlane, filterBankRows_all_zero f.channels mode (fun r hr => by cases hr) hzero]
  cases mode <;> rfl

end Sys2Proof.Machine
end

section
/-! ## The LZ77 match finder (43_lz77_match_finder.md)

A match is described by what it repeats (`Candidate.Repeats`), a search by what makes its result the best of the entries
(`Candidate.BestOf`), which fixes the result (`bestOf_unique`). The laws of the loop are inductions over the visited
positions, each by `visit_cases`, the two things a visit can do. -/

namespace Sys2Proof.Machine

/-! ### The match length (R176) -/

theorem matchFrom_equal (d : List Byte) (e j fuel m : Nat) {k : Nat} (hm : m ≤ k) (hk : k < matchFrom d e j fuel m) :
    d.getD (e + k) 0 = d.getD (j + k) 0 := by
  induction fuel generalizing m with
  | zero => exact absurd hk (Nat.not_lt.2 hm)
  | succ fuel ih =>
    rw [matchFrom] at hk
    split at hk
    · next heq =>
      rcases Nat.eq_or_lt_of_le hm with rfl | hlt
      · exact heq
      · exact ih (m + 1) hlt hk
    · exact absurd hk (Nat.not_lt.2 hm)

theorem matchFrom_stops (d : List Byte) (e j fuel m : Nat) (h : matchFrom d e j fuel m < m + fuel) :
    d.getD (e + matchFrom d e j fuel m) 0 ≠ d.getD (j + matchFrom d e j fuel m) 0 := by
  induction fuel generalizing m with
  | zero => exact absurd h (Nat.lt_irrefl m)
  | succ fuel ih =>
    rw [matchFrom] at h ⊢
    split
    · next heq =>
      rw [if_pos heq] at h
      exact ih (m + 1) (by omega)
    · next hne => exact hne

theorem matchLength_le (d : List Byte) (e j cap : Nat) : matchLength d e j cap ≤ min 258 cap := by
  have h := (matchFrom_le d e j (min 258 cap) 0).2
  rwa [Nat.zero_add] at h

theorem matchLength_equal {d : List Byte} {e j cap k : Nat} (hk : k < matchLength d e j cap) :
    d.getD (e + k) 0 = d.getD (j + k) 0 :=
  matchFrom_equal d e j _ 0 (Nat.zero_le k) hk

theorem matchLength_stops {d : List Byte} {e j cap : Nat} (h : matchLength d e j cap < min 258 cap) :
    d.getD (e + matchLength d e j cap) 0 ≠ d.getD (j + matchLength d e j cap) 0 :=
  matchFrom_stops d e j _ 0 (by rwa [Nat.zero_add])

/-- Inside the input the byte that `getD` reads is the byte there is. -/
theorem getElem?_eq_some_getD {d : List Byte} {i : Nat} (hi : i < d.length) : d[i]? = some (d.getD i 0) := by
  simp [hi]

/-- Settles O48: the comparison runs over equal bytes and stops at the first unequal pair or at the cap, and the cap keeps
both of its indices inside the input. -/
theorem matchLengthIsLongestRun : Obligations.MatchLengthIsLongestRun := by
  intro d e j cap he hcap m
  have hle : m ≤ min 258 cap := matchLength_le d e j cap
  refine ⟨hle, fun k hk => ?_, fun hm => ?_⟩
  · have hj : j + k < d.length := by omega
    refine ⟨?_, hj⟩
    rw [getElem?_eq_some_getD hj, getElem?_eq_some_getD (by omega), matchLength_equal hk]
  · rw [getElem?_eq_some_getD (show j + m < d.length by omega), getElem?_eq_some_getD (by omega)]
    exact fun h => matchLength_stops hm (Option.some.inj h)

/-- Positions with a match of 3 or more are in one bucket, whatever HASH3 is (R172, R175). -/
theorem hashAt_eq_of_match (p : Params) {d : List Byte} {e j cap : Nat} (h : 3 ≤ matchLength d e j cap) :
    hashAt p d e = hashAt p d j := by
  have h0 := matchLength_equal (show 0 < matchLength d e j cap by omega)
  have h1 := matchLength_equal (show 1 < matchLength d e j cap by omega)
  have h2 := matchLength_equal (show 2 < matchLength d e j cap by omega)
  simp only [Nat.add_zero] at h0
  rw [hashAt, hashAt, h0, h1, h2]

/-! ### The search (R177, R178) -/

/-- That `best` is what a search at `i` over the entries `es` must answer: the longest match of 3 or more, of equal
lengths the most recent, and nothing where there is none (R177, R178). -/
def BestOf (d : List Byte) (i : Nat) (es : List Nat) (best : Option Candidate) : Prop :=
  match best with
  | none => ∀ e ∈ es, matchLength d e i (d.length - i) < 3
  | some c => c.pos ∈ es ∧ c.len = matchLength d c.pos i (d.length - i) ∧ 3 ≤ c.len ∧
      ∀ e ∈ es, matchLength d e i (d.length - i) < c.len ∨
        (matchLength d e i (d.length - i) = c.len ∧ e ≤ c.pos)

theorem BestOf.better {d : List Byte} {i : Nat} {es : List Nat} {best : Option Candidate} (h : BestOf d i es best)
    (e : Nat) : BestOf d i (es ++ [e]) (better d i best e) := by
  cases best with
  | none =>
    simp only [Machine.better]
    split
    · next hlong =>
      exact ⟨by simp, rfl, hlong, List.forall_mem_append.2
        ⟨fun x hx => .inl (Nat.lt_of_lt_of_le (h x hx) hlong), List.forall_mem_singleton.2 (.inr ⟨rfl, Nat.le_refl e⟩)⟩⟩
    · next hshort => exact List.forall_mem_append.2 ⟨h, List.forall_mem_singleton.2 (Nat.not_le.1 hshort)⟩
  | some c =>
    obtain ⟨hmem, hlen, hlong, hbest⟩ := h
    simp only [Machine.better]
    split
    · next hwins =>
      refine ⟨by simp, rfl, hwins.1, List.forall_mem_append.2
        ⟨fun x hx => ?_, List.forall_mem_singleton.2 (.inr ⟨rfl, Nat.le_refl e⟩)⟩⟩
      have hx := hbest x hx
      dsimp only
      omega
    · next hloses =>
      exact ⟨List.mem_append_left _ hmem, hlen, hlong,
        List.forall_mem_append.2 ⟨hbest, List.forall_mem_singleton.2 (by omega)⟩⟩

/-- Every scan of the entries ends in the best of them. -/
theorem bestOf_foldl_better (d : List Byte) (i : Nat) (es : List Nat) : BestOf d i es (es.foldl (better d i) none) := by
  induction es using List.reverseRecOn with
  | nil => exact fun e he => absurd he List.not_mem_nil
  | append_singleton es e ih => rw [List.foldl_append]; exact ih.better e

/-- The best entry is fixed by the entries that have a match of 3 or more: their order and the other entries do not
enter (R178). -/
theorem bestOf_unique {d : List Byte} {i : Nat} {es es' : List Nat} {best best' : Option Candidate}
    (hsame : ∀ e, 3 ≤ matchLength d e i (d.length - i) → (e ∈ es ↔ e ∈ es')) (h : BestOf d i es best)
    (h' : BestOf d i es' best') : best = best' := by
  cases best with
  | none =>
    cases best' with
    | none => rfl
    | some c =>
      obtain ⟨hmem, hlen, hlong, -⟩ := h'
      rw [hlen] at hlong
      exact absurd hlong (Nat.not_le.2 (h c.pos ((hsame c.pos hlong).2 hmem)))
  | some b =>
    obtain ⟨hmem, hlen, hlong, hbest⟩ := h
    have hb : b.pos ∈ es' := (hsame b.pos (hlen ▸ hlong)).1 hmem
    cases best' with
    | none => exact absurd (hlen ▸ hlong) (Nat.not_le.2 (h' b.pos hb))
    | some c =>
      obtain ⟨hmem', hlen', hlong', hbest'⟩ := h'
      have hc : c.pos ∈ es := (hsame c.pos (hlen' ▸ hlong')).2 hmem'
      have hbc := hbest c.pos hc
      have hcb := hbest' b.pos hb
      have hlens : b.len = c.len := by omega
      have hentries : b.pos = c.pos := by omega
      exact congrArg some (congrArg₂ Candidate.mk hlens hentries)

theorem search_bestOf (p : Params) (d : List Byte) (bs : List (Nat × List Nat)) (i : Nat) :
    BestOf d i (candidates p d bs i) (search p d bs i) := bestOf_foldl_better d i _

/-- Settles O49: both scans end in the best entry, and there is one best entry of a set of entries. -/
theorem searchFindsLongestMostRecent : Obligations.SearchFindsLongestMostRecent := by
  intro p d bs i len
  have h := search_bestOf p d bs i
  refine ⟨⟨fun hnone => by rwa [hnone] at h, fun hshort => ?_⟩, fun c hc => by rwa [hc] at h, ?_⟩
  · exact bestOf_unique (fun _ _ => Iff.rfl) h hshort
  · exact bestOf_unique (fun _ _ => List.mem_reverse) (bestOf_foldl_better d i _) h

theorem mem_candidates {p : Params} {d : List Byte} {bs : List (Nat × List Nat)} {j e : Nat} :
    e ∈ candidates p d bs j ↔ e ∈ bucketGet bs (hashAt p d j) ∧ e < j ∧ j - e ≤ p.maxDist := by
  simp [candidates, admissible]

/-- A match at `i` that may be emitted: within the bounds of R171, inside the input, and the bytes at its source are
those it stands for. -/
structure Candidate.Repeats (p : Params) (d : List Byte) (i : Nat) (c : Candidate) : Prop where
  earlier : c.pos < i
  near : i - c.pos ≤ p.maxDist
  long : 3 ≤ c.len
  capped : c.len ≤ 258
  inside : i + c.len ≤ d.length
  equal : ∀ k < c.len, d.getD (c.pos + k) 0 = d.getD (i + k) 0

theorem repeats_of_search {p : Params} {d : List Byte} {bs : List (Nat × List Nat)} {i : Nat} {c : Candidate}
    (h : search p d bs i = some c) : c.Repeats p d i := by
  have hbest := search_bestOf p d bs i
  rw [h] at hbest
  obtain ⟨hmem, hlen, hlong, -⟩ := hbest
  obtain ⟨-, hearlier, hnear⟩ := mem_candidates.1 hmem
  have hle : c.len ≤ min 258 (d.length - i) := hlen ▸ matchLength_le d c.pos i _
  exact ⟨hearlier, hnear, hlong, by omega, by omega, fun k hk => matchLength_equal (hlen ▸ hk)⟩

/-! ### One position (R179 to R185) -/

section
variable {p : Params} {d : List Byte} {q : Nat}

/-- What is committed is what the search found, where the lazy probe lets it stand (R182, R184). -/
theorem committed_eq_filter (p : Params) (d : List Byte) (q : Nat) (fd : Finder) :
    committed p d q fd = (search p d fd.buckets fd.pos).filter fun c =>
      !lazyReject p d (insertPosition p d q fd.buckets fd.pos) fd.pos c.len := by
  unfold committed
  cases search p d fd.buckets fd.pos with
  | none => rfl
  | some c => simp only [Option.filter_some, Bool.not_eq_true', ← Bool.not_eq_true, ite_not]

theorem search_of_committed {fd : Finder} {c : Candidate} (h : committed p d q fd = some c) :
    search p d fd.buckets fd.pos = some c := by
  rw [committed_eq_filter] at h
  exact (Option.filter_eq_some_iff.1 h).1

theorem visit_of_committed {fd : Finder} {c : Candidate} (h : committed p d q fd = some c) :
    visit p d q fd =
      (⟨fd.pos + c.len, insertPosition p d q fd.buckets fd.pos⟩, .copy c.len (fd.pos - c.pos)) := by
  simp only [visit, h]

theorem visit_of_not_committed {fd : Finder} (h : committed p d q fd = none) :
    visit p d q fd = (⟨fd.pos + 1, insertPosition p d q fd.buckets fd.pos⟩, .lit (d.getD fd.pos 0)) := by
  simp only [visit, h]

/-- A visit emits a match that repeats the input, or the literal, and steps over what it emits (R184). -/
theorem visit_cases (p : Params) (d : List Byte) (q : Nat) (fd : Finder) :
    (∃ c : Candidate, c.Repeats p d fd.pos ∧ (visit p d q fd).1.pos = fd.pos + c.len ∧
      (visit p d q fd).2 = .copy c.len (fd.pos - c.pos)) ∨
    ((visit p d q fd).1.pos = fd.pos + 1 ∧ (visit p d q fd).2 = .lit (d.getD fd.pos 0)) := by
  cases h : committed p d q fd with
  | none => exact .inr (by rw [visit_of_not_committed h]; exact ⟨rfl, rfl⟩)
  | some c =>
    exact .inl ⟨c, repeats_of_search (search_of_committed h), by rw [visit_of_committed h]; exact ⟨rfl, rfl⟩⟩

/-- Whatever a visit emits, it inserts its position (R179). -/
@[simp] theorem visit_buckets (p : Params) (d : List Byte) (q : Nat) (fd : Finder) :
    (visit p d q fd).1.buckets = insertPosition p d q fd.buckets fd.pos := by
  cases h : committed p d q fd with
  | none => rw [visit_of_not_committed h]
  | some c => rw [visit_of_committed h]

theorem pos_lt_visit (p : Params) (d : List Byte) (q : Nat) (fd : Finder) : fd.pos < (visit p d q fd).1.pos := by
  rcases visit_cases p d q fd with ⟨c, hc, hpos, -⟩ | ⟨hpos, -⟩
  · have := hc.long
    omega
  · omega

/-- A bucket after an insert (R180). -/
theorem bucketGet_insertPosition (p : Params) (d : List Byte) (q : Nat) (bs : List (Nat × List Nat)) (i k : Nat) :
    bucketGet (insertPosition p d q bs i) k =
      if k = hashAt p d i then pushTrimmed q (bucketGet bs k) i else bucketGet bs k := by
  unfold insertPosition
  split
  · next hk => rw [hk, bucketGet_bucketSet_self]
  · next hk => exact bucketGet_bucketSet_other _ _ hk

/-! ### The loop (R186) -/

theorem findLoop_done {fd : Finder} (h : ¬ fd.pos + 4 ≤ d.length) (n : Nat) : findLoop p d q n fd = (fd, []) := by
  cases n with
  | zero => rfl
  | succ n => simp [findLoop, h]

theorem findLoop_succ {fd : Finder} (h : fd.pos + 4 ≤ d.length) (n : Nat) :
    findLoop p d q (n + 1) fd =
      ((findLoop p d q n (visit p d q fd).1).1, (visit p d q fd).2 :: (findLoop p d q n (visit p d q fd).1).2) := by
  simp [findLoop, h]

/-- What every visit keeps, the loop keeps. -/
theorem findLoop_keeps {P : Finder → Prop} (hvisit : ∀ fd, P fd → P (visit p d q fd).1) (n : Nat) {fd : Finder}
    (h : P fd) : P (findLoop p d q n fd).1 := by
  induction n generalizing fd with
  | zero => exact h
  | succ n ih =>
    by_cases hpos : fd.pos + 4 ≤ d.length
    · rw [findLoop_succ hpos]
      exact ih (hvisit fd h)
    · rw [findLoop_done hpos]
      exact h

/-- The loop emits nothing but what visits emit. -/
theorem visited_of_mem_findLoop {n : Nat} {fd : Finder} {s : Symbol} (h : s ∈ (findLoop p d q n fd).2) :
    ∃ fd', s = (visit p d q fd').2 := by
  induction n generalizing fd with
  | zero => exact absurd h List.not_mem_nil
  | succ n ih =>
    by_cases hpos : fd.pos + 4 ≤ d.length
    · rw [findLoop_succ hpos] at h
      rcases List.mem_cons.1 h with h | h
      · exact ⟨fd, h⟩
      · exact ih h
    · rw [findLoop_done hpos] at h
      exact absurd h List.not_mem_nil

/-! ### The buckets (R180, R181) -/

theorem pushTrimmed_length_full {entries : List Nat} (h : entries.length = 2 * q) (i : Nat) :
    (pushTrimmed q entries i).length = q + 1 := by
  simp [pushTrimmed, h]
  omega

theorem pushTrimmed_length_le (hq : 1 ≤ q) {entries : List Nat} (h : entries.length ≤ 2 * q) (i : Nat) :
    (pushTrimmed q entries i).length ≤ 2 * q := by
  by_cases hfull : entries.length = 2 * q
  · rw [pushTrimmed_length_full hfull]
    omega
  · simp [pushTrimmed, hfull]
    omega

/-- The entries an insert keeps are entries there were, in their order. -/
theorem pushTrimmed_eq_append (q : Nat) (entries : List Nat) (i : Nat) :
    ∃ kept, kept.Sublist entries ∧ pushTrimmed q entries i = kept ++ [i] := by
  refine ⟨_, ?_, rfl⟩
  split
  · exact List.drop_sublist q entries
  · exact List.Sublist.refl entries

theorem mem_pushTrimmed {entries : List Nat} {i e : Nat} (h : e ∈ pushTrimmed q entries i) : e ∈ entries ∨ e = i := by
  obtain ⟨kept, hsub, heq⟩ := pushTrimmed_eq_append q entries i
  rw [heq, List.mem_append, List.mem_singleton] at h
  exact h.imp_left fun h => hsub.subset h

theorem pushTrimmed_rising {entries : List Nat} (hrising : entries.Pairwise (· < ·)) {i : Nat}
    (hearlier : ∀ e ∈ entries, e < i) : (pushTrimmed q entries i).Pairwise (· < ·) := by
  obtain ⟨kept, hsub, heq⟩ := pushTrimmed_eq_append q entries i
  rw [heq, List.pairwise_append]
  refine ⟨hrising.sublist hsub, List.pairwise_singleton _ i, fun e he x hx => ?_⟩
  rw [List.mem_singleton.1 hx]
  exact hearlier e (hsub.subset he)

theorem bucketsOk_fresh (p : Params) (d : List Byte) (q : Nat) : BucketsOk p d q Work.fresh.finder := by
  constructor <;> simp [Work.fresh]

/-- An entry after an insert was there before it, or is the position inserted, in the bucket it hashes to. -/
theorem mem_bucketGet_insertPosition {bs : List (Nat × List Nat)} {i k e : Nat}
    (h : e ∈ bucketGet (insertPosition p d q bs i) k) : e ∈ bucketGet bs k ∨ (e = i ∧ hashAt p d i = k) := by
  rw [bucketGet_insertPosition] at h
  split at h
  · next hk => exact (mem_pushTrimmed h).imp_right fun he => ⟨he, hk.symm⟩
  · exact .inl h

theorem BucketsOk.visit (hq : 1 ≤ q) {fd : Finder} (h : BucketsOk p d q fd) : BucketsOk p d q (visit p d q fd).1 where
  rising k := by
    rw [visit_buckets, bucketGet_insertPosition]
    split
    · exact pushTrimmed_rising (h.rising k) (h.earlier k)
    · exact h.rising k
  hashed k e he := by
    rw [visit_buckets] at he
    rcases mem_bucketGet_insertPosition he with he | ⟨rfl, hk⟩
    · exact h.hashed k e he
    · exact hk
  earlier k e he := by
    have hlt := pos_lt_visit p d q fd
    rw [visit_buckets] at he
    rcases mem_bucketGet_insertPosition he with he | ⟨rfl, -⟩
    · exact (h.earlier k e he).trans hlt
    · exact hlt
  bounded k := by
    rw [visit_buckets, bucketGet_insertPosition]
    split
    · exact pushTrimmed_length_le hq (h.bounded k) _
    · exact h.bounded k

end

/-- Settles O50: empty buckets meet the invariants and every visit keeps them. -/
theorem bucketInvariantsHold : Obligations.BucketInvariantsHold :=
  ⟨fun p d q n hq => findLoop_keeps (fun _ h => h.visit hq) n (bucketsOk_fresh p d q),
    fun _ i _ hfull => pushTrimmed_length_full hfull i⟩

/-! ### Reconstruction (R189) -/

section
variable {p : Params} {d : List Byte} {q : Nat}

/-- The first bytes of the input grow by the next one. -/
theorem take_append_getD {i : Nat} (hi : i < d.length) : d.take i ++ [d.getD i 0] = d.take (i + 1) := by
  simp [hi]

/-- Copying a run that repeats at `i` what stands `dist` back gives the next bytes of the input (R184). -/
theorem copyBack_take {dist n i : Nat} (h1 : 1 ≤ dist) (hi : dist ≤ i) (hn : i + n ≤ d.length)
    (heq : ∀ k < n, d.getD (i - dist + k) 0 = d.getD (i + k) 0) :
    copyBack dist n (d.take i) = d.take (i + n) := by
  induction n generalizing i with
  | zero => rfl
  | succ n ih =>
    have hback : (d.take i).getD ((d.take i).length - dist) 0 = d.getD i 0 := by
      have h0 := heq 0 (Nat.succ_pos n)
      rw [Nat.add_zero, Nat.add_zero] at h0
      rw [List.length_take_of_le (by omega), ← h0, List.getD_eq_getElem?_getD, List.getElem?_take_of_lt (by omega),
        List.getD_eq_getElem?_getD]
    have hrest : ∀ k < n, d.getD (i + 1 - dist + k) 0 = d.getD (i + 1 + k) 0 := fun k hk => by
      have hk1 := heq (k + 1) (by omega)
      rwa [show i - dist + (k + 1) = i + 1 - dist + k by omega, show i + (k + 1) = i + 1 + k by omega] at hk1
    rw [copyBack, hback, take_append_getD (by omega), ih (by omega) (by omega) hrest, Nat.add_assoc, Nat.add_comm 1 n]

theorem expand_visit {fd : Finder} (hpos : fd.pos + 4 ≤ d.length) (rest : List Symbol) :
    expand (d.take fd.pos) ((visit p d q fd).2 :: rest) = expand (d.take (visit p d q fd).1.pos) rest := by
  rcases visit_cases p d q fd with ⟨c, hc, hnext, hsym⟩ | ⟨hnext, hsym⟩
  · have hearlier := hc.earlier
    have hsource : fd.pos - (fd.pos - c.pos) = c.pos := by omega
    rw [hsym, hnext, expand, copyBack_take (by omega) (by omega) hc.inside (hsource.symm ▸ hc.equal)]
  · rw [hsym, hnext, expand, take_append_getD (by omega)]

theorem expand_findLoop (n : Nat) (fd : Finder) (rest : List Symbol) :
    expand (d.take fd.pos) ((findLoop p d q n fd).2 ++ rest) = expand (d.take (findLoop p d q n fd).1.pos) rest := by
  induction n generalizing fd with
  | zero => rfl
  | succ n ih =>
    by_cases hpos : fd.pos + 4 ≤ d.length
    · simp only [findLoop_succ hpos, List.cons_append, expand_visit hpos, ih]
    · rw [findLoop_done hpos]
      rfl

theorem expand_lits (out d : List Byte) : expand out (d.map Symbol.lit ++ [.eob]) = out ++ d := by
  induction d generalizing out with
  | nil => simp [expand]
  | cons b d ih => simp [expand, ih]

theorem expand_lz77 (p : Params) (d : List Byte) (q : Nat) : expand [] (lz77 p d q).2 = d := by
  have hloop := expand_findLoop (p := p) (d := d) (q := q) d.length Work.fresh.finder
  rw [lz77, List.append_assoc]
  exact (hloop _).trans ((expand_lits _ _).trans (List.take_append_drop _ d))

theorem copyBack_length (dist n : Nat) (out : List Byte) : (copyBack dist n out).length = out.length + n := by
  induction n generalizing out with
  | zero => rfl
  | succ n ih => rw [copyBack, ih, List.length_append, List.length_singleton, Nat.add_assoc, Nat.add_comm 1 n]

/-- A symbol's size is by how much it lengthens the output. -/
theorem expand_length (out : List Byte) (syms : List Symbol) :
    (expand out syms).length = out.length + (syms.map Symbol.size).sum := by
  induction syms generalizing out with
  | nil => rfl
  | cons s syms ih =>
    rw [List.map_cons, List.sum_cons, ← Nat.add_assoc]
    cases s with
    | lit b => simp [expand, ih, Symbol.size]
    | copy len dist => simp [expand, ih, Symbol.size, copyBack_length]
    | eob => simp [expand, ih, Symbol.size]

theorem copy_bounds_of_visit {fd : Finder} {len dist : Nat} (h : Symbol.copy len dist = (visit p d q fd).2) :
    3 ≤ len ∧ len ≤ 258 ∧ 1 ≤ dist ∧ dist ≤ p.maxDist := by
  rcases visit_cases p d q fd with ⟨c, hc, -, hsym⟩ | ⟨-, hsym⟩
  · rw [hsym] at h
    obtain ⟨rfl, rfl⟩ := Symbol.copy.inj h
    have := hc.earlier
    exact ⟨hc.long, hc.capped, by omega, hc.near⟩
  · rw [hsym] at h
    cases h

theorem visit_ne_eob (p : Params) (d : List Byte) (q : Nat) (fd : Finder) : (visit p d q fd).2 ≠ .eob := by
  rcases visit_cases p d q fd with ⟨c, -, -, hsym⟩ | ⟨-, hsym⟩ <;> rw [hsym] <;> exact Symbol.noConfusion

/-- The symbols before EOB: the loop's and the tail's literals (R186, R187). -/
def lz77Body (p : Params) (d : List Byte) (q : Nat) : List Symbol :=
  (findLoop p d q d.length Work.fresh.finder).2 ++
    (d.drop (findLoop p d q d.length Work.fresh.finder).1.pos).map Symbol.lit

theorem lz77_eq_body (p : Params) (d : List Byte) (q : Nat) : (lz77 p d q).2 = lz77Body p d q ++ [.eob] := rfl

/-- A symbol before EOB is one a visit emits, or a literal. -/
theorem mem_lz77Body {s : Symbol} (h : s ∈ lz77Body p d q) : (∃ fd, s = (visit p d q fd).2) ∨ ∃ b, s = .lit b := by
  rcases List.mem_append.1 h with h | h
  · exact .inl (visited_of_mem_findLoop h)
  · obtain ⟨b, -, rfl⟩ := List.mem_map.1 h
    exact .inr ⟨b, rfl⟩

theorem eob_notMem_lz77Body (p : Params) (d : List Byte) (q : Nat) : Symbol.eob ∉ lz77Body p d q := by
  intro h
  rcases mem_lz77Body h with ⟨fd, hfd⟩ | ⟨b, hb⟩
  · exact visit_ne_eob p d q fd hfd.symm
  · cases hb

theorem copy_bounds_of_mem_lz77 {len dist : Nat} (h : Symbol.copy len dist ∈ (lz77 p d q).2) :
    3 ≤ len ∧ len ≤ 258 ∧ 1 ≤ dist ∧ dist ≤ p.maxDist := by
  rw [lz77_eq_body, List.mem_append, List.mem_singleton] at h
  rcases h with h | h
  · rcases mem_lz77Body h with ⟨fd, hfd⟩ | ⟨b, hb⟩
    · exact copy_bounds_of_visit hfd
    · cases hb
  · cases h

end

/-! ### What decides the output (R189, R190) -/

section
variable {p p' : Params}

/-- Two loops emit the same symbols while a relation holds that gives each pair of visits the same position and the same
symbol. -/
theorem findLoop_simulation {d : List Byte} {q q' : Nat} {R : Finder → Finder → Prop}
    (hpos : ∀ a b, R a b → a.pos = b.pos)
    (hvisit : ∀ a b, a.pos + 4 ≤ d.length → R a b →
      (visit p d q a).2 = (visit p' d q' b).2 ∧ R (visit p d q a).1 (visit p' d q' b).1)
    (n : Nat) {a b : Finder} (h : R a b) :
    (findLoop p d q n a).2 = (findLoop p' d q' n b).2 ∧ R (findLoop p d q n a).1 (findLoop p' d q' n b).1 := by
  induction n generalizing a b with
  | zero => exact ⟨rfl, h⟩
  | succ n ih =>
    have hab := hpos a b h
    by_cases hmore : a.pos + 4 ≤ d.length
    · obtain ⟨hsym, hnext⟩ := hvisit a b hmore h
      obtain ⟨hsyms, hend⟩ := ih hnext
      rw [findLoop_succ hmore, findLoop_succ (hab ▸ hmore), hsym, hsyms]
      exact ⟨rfl, hend⟩
    · rw [findLoop_done hmore, findLoop_done (hab ▸ hmore)]
      exact ⟨rfl, h⟩

/-- So do two runs of the match finder, if the relation holds of a fresh finder. -/
theorem lz77_simulation {d : List Byte} {q q' : Nat} {R : Finder → Finder → Prop}
    (hpos : ∀ a b, R a b → a.pos = b.pos)
    (hvisit : ∀ a b, a.pos + 4 ≤ d.length → R a b →
      (visit p d q a).2 = (visit p' d q' b).2 ∧ R (visit p d q a).1 (visit p' d q' b).1)
    (hfresh : R Work.fresh.finder Work.fresh.finder) : (lz77 p d q).2 = (lz77 p' d q').2 := by
  obtain ⟨hsyms, hend⟩ := findLoop_simulation hpos hvisit d.length hfresh
  simp only [lz77, hsyms, hpos _ _ hend]

/-- A visit reads no parameter but MAX_DIST and HASH3. -/
theorem visit_congr (hdist : p'.maxDist = p.maxDist) (hhash : p'.hash3 = p.hash3) (d : List Byte) (q : Nat)
    (fd : Finder) : visit p' d q fd = visit p d q fd := by
  cases p
  cases p'
  cases hdist
  cases hhash
  rfl

end

/-- Settles O51: visits emit matches within their bounds, each visit extends the reconstruction to its new position, the
tail's literals complete it, and the sizes add up to the length of what is reconstructed. -/
theorem matchFinderReconstructsInput : Obligations.MatchFinderReconstructsInput := by
  intro p d q
  have hexpand := expand_lz77 p d q
  refine ⟨fun _ _ => copy_bounds_of_mem_lz77, hexpand, ?_, ⟨_, lz77_eq_body p d q, eob_notMem_lz77Body p d q⟩,
    fun p' hdist hhash => ?_⟩
  · have hlength := expand_length [] (lz77 p d q).2
    rw [hexpand, List.length_nil, Nat.zero_add] at hlength
    exact hlength.symm
  · refine lz77_simulation (R := Eq) (fun _ _ => congrArg Finder.pos) ?_ rfl
    rintro a _ - rfl
    rw [visit_congr hdist hhash]
    exact ⟨rfl, rfl⟩

/-! ### Independence of HASH3 (R190) -/

section
variable {p p' : Params}

/-- That position `e` stands in the bucket it hashes to. -/
def Stored (p : Params) (d : List Byte) (bs : List (Nat × List Nat)) (e : Nat) : Prop := e ∈ bucketGet bs (hashAt p d e)

/-- An insert that trims nothing adds its position to those stored (R180). -/
theorem stored_insertPosition {d : List Byte} {q : Nat} {bs : List (Nat × List Nat)}
    (hroom : ∀ k, (bucketGet bs k).length < 2 * q) (i e : Nat) :
    Stored p d (insertPosition p d q bs i) e ↔ Stored p d bs e ∨ e = i := by
  rw [Stored, bucketGet_insertPosition]
  split
  · rw [pushTrimmed, if_neg (hroom _).ne, List.mem_append, List.mem_singleton]
    rfl
  · next hother => exact ⟨.inl, fun h => h.resolve_right fun he => hother (he ▸ rfl)⟩

/-- Whether an entry with a match of 3 or more is a candidate depends on what is stored, and not on HASH3 (R175). -/
theorem mem_candidates_of_match {d : List Byte} {bs : List (Nat × List Nat)} {e j cap : Nat}
    (h : 3 ≤ matchLength d e j cap) :
    e ∈ candidates p d bs j ↔ Stored p d bs e ∧ e < j ∧ j - e ≤ p.maxDist := by
  rw [mem_candidates, Stored, hashAt_eq_of_match p h]

/-- Two bucket stores that hold the same positions, each under its own hash. -/
def SameStored (p p' : Params) (d : List Byte) (bs bs' : List (Nat × List Nat)) : Prop :=
  ∀ e, Stored p d bs e ↔ Stored p' d bs' e

section
variable {d : List Byte} {bs bs' : List (Nat × List Nat)} (hdist : p.maxDist = p'.maxDist)
include hdist

theorem SameStored.mem_candidates (h : SameStored p p' d bs bs') {e j cap : Nat} (hmatch : 3 ≤ matchLength d e j cap) :
    e ∈ candidates p d bs j ↔ e ∈ candidates p' d bs' j := by
  rw [mem_candidates_of_match hmatch, mem_candidates_of_match hmatch, h e, hdist]

theorem SameStored.search (h : SameStored p p' d bs bs') (i : Nat) : search p d bs i = search p' d bs' i :=
  bestOf_unique (fun _ hmatch => h.mem_candidates hdist hmatch) (search_bestOf p d bs i) (search_bestOf p' d bs' i)

theorem SameStored.lazyReject (h : SameStored p p' d bs bs') (i : Nat) {len : Nat} (hlen : 3 ≤ len) :
    lazyReject p d bs i len = lazyReject p' d bs' i len := by
  have hcand {e : Nat} (hlonger : len < matchLength d e (i + 1) (d.length - i - 1)) :
      e ∈ candidates p d bs (i + 1) ↔ e ∈ candidates p' d bs' (i + 1) :=
    h.mem_candidates hdist (hlen.trans hlonger.le)
  rw [Bool.eq_iff_iff]
  simp only [Machine.lazyReject, List.any_eq_true, decide_eq_true_eq]
  exact exists_congr fun e => and_congr_left hcand

end

/-- No bucket holds 2q entries at any point of a run from `fd` on (R190). -/
def NeverFullFrom (p : Params) (d : List Byte) (q : Nat) (fd : Finder) : Prop :=
  ∀ n k, (bucketGet (findLoop p d q n fd).1.buckets k).length < 2 * q

theorem NeverFullFrom.now {d : List Byte} {q : Nat} {fd : Finder} (h : NeverFullFrom p d q fd) (k : Nat) :
    (bucketGet fd.buckets k).length < 2 * q := h 0 k

theorem NeverFullFrom.visit {d : List Byte} {q : Nat} {fd : Finder} (h : NeverFullFrom p d q fd)
    (hpos : fd.pos + 4 ≤ d.length) : NeverFullFrom p d q (visit p d q fd).1 := fun n k => by
  have hnext := h (n + 1) k
  rwa [findLoop_succ hpos] at hnext

/-- Two finders at the same position that store the same positions and never trim. -/
structure SameUpToHash (p p' : Params) (d : List Byte) (q : Nat) (a b : Finder) : Prop where
  pos : a.pos = b.pos
  stored : SameStored p p' d a.buckets b.buckets
  room : NeverFullFrom p d q a
  room' : NeverFullFrom p' d q b

section
variable {d : List Byte} {q : Nat} {a b : Finder} (hdist : p.maxDist = p'.maxDist)

theorem SameUpToHash.insertPosition (h : SameUpToHash p p' d q a b) :
    SameStored p p' d (insertPosition p d q a.buckets a.pos) (insertPosition p' d q b.buckets b.pos) := fun e => by
  rw [stored_insertPosition h.room.now, stored_insertPosition h.room'.now, h.stored e, h.pos]

include hdist

theorem SameUpToHash.committed (h : SameUpToHash p p' d q a b) : committed p d q a = committed p' d q b := by
  have hsearch : search p d a.buckets a.pos = search p' d b.buckets b.pos := by
    rw [h.stored.search hdist, h.pos]
  rw [committed_eq_filter, committed_eq_filter, ← hsearch]
  cases hc : search p d a.buckets a.pos with
  | none => rfl
  | some c =>
    have hlazy := h.insertPosition.lazyReject hdist a.pos (repeats_of_search hc).long
    rw [Option.filter_some, Option.filter_some, hlazy, h.pos]

theorem SameUpToHash.visit (h : SameUpToHash p p' d q a b) (hpos : a.pos + 4 ≤ d.length) :
    (visit p d q a).2 = (visit p' d q b).2 ∧ SameUpToHash p p' d q (visit p d q a).1 (visit p' d q b).1 := by
  have hsame : (Machine.visit p d q a).2 = (Machine.visit p' d q b).2 ∧
      (Machine.visit p d q a).1.pos = (Machine.visit p' d q b).1.pos := by
    have hc := h.committed hdist
    cases hb : Machine.committed p' d q b with
    | none =>
      rw [visit_of_not_committed hb, visit_of_not_committed (hc.trans hb), h.pos]
      exact ⟨rfl, rfl⟩
    | some c =>
      rw [visit_of_committed hb, visit_of_committed (hc.trans hb), h.pos]
      exact ⟨rfl, rfl⟩
  refine ⟨hsame.1, hsame.2, ?_, h.room.visit hpos, h.room'.visit (h.pos ▸ hpos)⟩
  rw [visit_buckets, visit_buckets]
  exact h.insertPosition

end

end

/-- Settles O52: two runs that never trim store the same positions, and only stored positions with a match of 3 or more
decide a search or a probe. -/
theorem outputIndependentOfHash : Obligations.OutputIndependentOfHash := by
  intro p₁ p₂ d q hdist hroom₁ hroom₂
  refine lz77_simulation (R := SameUpToHash p₁ p₂ d q) (fun _ _ h => h.pos) (fun _ _ hpos h => h.visit hdist hpos) ?_
  exact ⟨rfl, fun e => by simp [Stored, Work.fresh], hroom₁, hroom₂⟩

end Sys2Proof.Machine
end

section
/-! ## The Huffman writer (44_huffman_bitwriter.md)

What the accumulator does is said once, as the stream it emits (`Emits`), and composes along the puts. A symbol is its
literal/length symbol's code and a tail (`symbolBits_eq`), the two tables are read through what a row decodes to
(`Decodes`), and the fixed codes through the windows of nine bits they begin (`litLenSymbol`). -/

namespace Sys2Proof.Machine

/-! ### Bits of a number (00_scope.md R13) -/

theorem lowBits_add (v m n : Nat) : lowBits v (m + n) = lowBits v m ++ lowBits (v / 2 ^ m) n := by
  induction m generalizing v with
  | zero => simp [lowBits]
  | succ m ih => rw [Nat.add_right_comm, lowBits, ih, lowBits, List.cons_append, Nat.div_div_eq_div_mul, Nat.pow_succ']

theorem lowBits_eq_iff {v w n : Nat} : lowBits v n = lowBits w n ↔ v % 2 ^ n = w % 2 ^ n := by
  induction n generalizing v w with
  | zero => simp [lowBits, Nat.mod_one]
  | succ n ih =>
    rw [lowBits, lowBits, List.cons.injEq, decide_eq_decide, ih, Nat.pow_succ', Nat.mod_mul, Nat.mod_mul]
    omega

theorem lowBits_inj {v w n : Nat} (hv : v < 2 ^ n) (hw : w < 2 ^ n) (h : lowBits v n = lowBits w n) : v = w := by
  rwa [lowBits_eq_iff, Nat.mod_eq_of_lt hv, Nat.mod_eq_of_lt hw] at h

/-- A number of two fields is the bits of the low field, then those of the high one. -/
theorem lowBits_add_mul {a m : Nat} (ha : a < 2 ^ m) (b n : Nat) :
    lowBits (a + 2 ^ m * b) (m + n) = lowBits a m ++ lowBits b n := by
  have hlow : lowBits (a + 2 ^ m * b) m = lowBits a m := by rw [lowBits_eq_iff, Nat.add_mul_mod_self_left]
  rw [lowBits_add, hlow, Nat.add_mul_div_left a b (Nat.two_pow_pos m), Nat.div_eq_of_lt ha, Nat.zero_add]

theorem bitsValue_lowBits (v n : Nat) : bitsValue (lowBits v n) = v % 2 ^ n := by
  induction n generalizing v with
  | zero => simp [lowBits, bitsValue, Nat.mod_one]
  | succ n ih =>
    rw [lowBits, bitsValue, ih, Nat.pow_succ', Nat.mod_mul]
    simp only [decide_eq_true_eq]
    split <;> omega

theorem revBits_lt (c n : Nat) : revBits c n < 2 ^ n := by
  induction n generalizing c with
  | zero => exact Nat.one_pos
  | succ n ih =>
    have hrest := ih (c / 2)
    have htop : c % 2 * 2 ^ n ≤ 1 * 2 ^ n := Nat.mul_le_mul_right _ (by omega)
    rw [revBits, Nat.pow_succ]
    omega

@[simp] theorem codeBits_length (c n : Nat) : (codeBits c n).length = n := by simp [codeBits]

theorem codeBits_succ (c n : Nat) : codeBits c (n + 1) = codeBits (c / 2) n ++ [decide (c % 2 = 1)] :=
  List.reverse_cons

/-- A reversed code enters the stream most significant bit first (R214, R219). -/
theorem lowBits_revBits (c n : Nat) : lowBits (revBits c n) n = codeBits c n := by
  induction n generalizing c with
  | zero => rfl
  | succ n ih =>
    rw [codeBits_succ, ← ih, revBits, Nat.add_comm, Nat.mul_comm, lowBits_add_mul (revBits_lt _ _)]
    simp [lowBits]

/-! ### Streams and bytes (00_scope.md R13) -/

@[simp] theorem bytesBits_nil : bytesBits [] = [] := rfl
@[simp] theorem bytesBits_cons (b : Byte) (d : List Byte) : bytesBits (b :: d) = lowBits b.toNat 8 ++ bytesBits d := rfl

@[simp] theorem bytesBits_append (d d' : List Byte) : bytesBits (d ++ d') = bytesBits d ++ bytesBits d' :=
  List.flatMap_append

@[simp] theorem bytesBits_length (d : List Byte) : (bytesBits d).length = 8 * d.length := by
  induction d with
  | nil => rfl
  | cons b d ih =>
    rw [bytesBits_cons, List.length_append, lowBits_length, ih, List.length_cons]
    omega

@[simp] theorem streamBits_nil : streamBits [] = [] := rfl
@[simp] theorem streamBits_cons (u : Put) (us : List Put) :
    streamBits (u :: us) = lowBits u.value u.width ++ streamBits us := rfl

@[simp] theorem streamBits_append (us us' : List Put) : streamBits (us ++ us') = streamBits us ++ streamBits us' :=
  List.flatMap_append

theorem packBits_byte_append (b : Byte) (rest : List Bool) :
    packBits (lowBits b.toNat 8 ++ rest) = b :: packBits rest := by
  have hcons : packBits (lowBits b.toNat 8 ++ rest) = BitVec.ofNat 8 (bitsValue (lowBits b.toNat 8)) :: packBits rest :=
    rfl
  rw [hcons, bitsValue_lowBits, Nat.mod_eq_of_lt b.isLt, BitVec.ofNat_toNat, BitVec.setWidth_eq]

/-- Whole bytes at the head of a stream are packed as they are. -/
theorem packBits_bytesBits_append (d : List Byte) (rest : List Bool) :
    packBits (bytesBits d ++ rest) = d ++ packBits rest := by
  induction d with
  | nil => rfl
  | cons b d ih => rw [bytesBits_cons, List.append_assoc, packBits_byte_append, ih, List.cons_append]

/-- Fewer than eight bits are filled up to one byte (R212). -/
theorem packBits_of_length_lt {bits : List Bool} (hpos : 0 < bits.length) (hlt : bits.length < 8) :
    packBits bits = [BitVec.ofNat 8 (bitsValue bits)] := by
  unfold packBits
  split
  · simp at hpos
  · simp only [List.length_cons] at hlt
    omega
  · rfl

/-! ### The accumulator (R211) -/

/-- The bits that ACC still holds. -/
def BitWriter.pending (bw : BitWriter) : List Bool := lowBits bw.acc.toNat bw.cnt

/-- The bit writer between two puts (10_state.md R38). -/
structure BitWriter.Ready (bw : BitWriter) : Prop where
  cnt_le : bw.cnt ≤ 7
  acc_lt : bw.acc.toNat < 2 ^ bw.cnt

/-- From `bw` the stream `bits` is appended: the bytes emitted and the bits then pending are the bits pending before and
`bits`, and K counts the bytes. -/
structure Emits (bw : BitWriter) (bits : List Bool) (r : BitWriter × List Byte) : Prop where
  stream : bytesBits r.2 ++ r.1.pending = bw.pending ++ bits
  ready : r.1.Ready
  counted : r.1.k = bw.k + r.2.length

theorem BitWriter.Ready.emits_nil {bw : BitWriter} (h : bw.Ready) : Emits bw [] (bw, []) :=
  ⟨(List.append_nil _).symm, h, rfl⟩

theorem Emits.trans {bw : BitWriter} {bits bits' : List Bool} {r r' : BitWriter × List Byte} (h : Emits bw bits r)
    (h' : Emits r.1 bits' r') : Emits bw (bits ++ bits') (r'.1, r.2 ++ r'.2) where
  stream := by rw [bytesBits_append, List.append_assoc, h'.stream, ← List.append_assoc, h.stream, List.append_assoc]
  ready := h'.ready
  counted := by rw [h'.counted, h.counted, List.length_append, Nat.add_assoc]

theorem flushBytes_emits {fuel : Nat} {bw : BitWriter} (hfuel : bw.cnt ≤ fuel) (hacc : bw.acc.toNat < 2 ^ bw.cnt) :
    Emits bw [] (flushBytes fuel bw) := by
  induction fuel generalizing bw with
  | zero => exact BitWriter.Ready.emits_nil ⟨by omega, hacc⟩
  | succ fuel ih =>
    rw [flushBytes]
    split
    · next hcnt =>
      have hsplit : bw.cnt = 8 + (bw.cnt - 8) := by omega
      have hlow : lowBits bw.lowByte.toNat 8 = lowBits bw.acc.toNat 8 := by
        rw [BitWriter.lowByte, BitVec.toNat_setWidth, lowBits_eq_iff, Nat.mod_mod]
      have hshift : (bw.acc >>> 8).toNat = bw.acc.toNat / 2 ^ 8 := by
        rw [BitVec.toNat_ushiftRight, Nat.shiftRight_eq_div_pow]
      have hrest : (bw.acc >>> 8).toNat < 2 ^ (bw.cnt - 8) := by
        rw [hshift]
        exact Nat.div_lt_of_lt_mul (by rwa [← Nat.pow_add, ← hsplit])
      have hflush := ih (bw := ⟨bw.acc >>> 8, bw.cnt - 8, bw.k + 1⟩) (by simp only; omega) hrest
      refine ⟨?_, hflush.ready, ?_⟩
      · rw [bytesBits_cons, List.append_assoc, hflush.stream, hlow, BitWriter.pending, BitWriter.pending, hshift,
          ← List.append_assoc, ← lowBits_add, ← hsplit]
      · rw [hflush.counted, List.length_cons, Nat.add_right_comm, Nat.add_assoc]
    · exact BitWriter.Ready.emits_nil ⟨by omega, hacc⟩

/-- ACC | (v << CNT) holds the pending bits below those of `v`: ACC never needs more than 20 bits (R211). -/
theorem toNat_acc_or_shiftLeft {bw : BitWriter} {u : Put} (hbw : bw.Ready) (hu : u.Admitted) :
    (bw.acc ||| BitVec.ofNat 32 u.value <<< bw.cnt).toNat = bw.acc.toNat + 2 ^ bw.cnt * u.value := by
  obtain ⟨hvalue, -, hwidth⟩ := hu
  have hv : u.value < 2 ^ 13 := hvalue.trans_le (Nat.pow_le_pow_right Nat.two_pos hwidth)
  have hcnt : 2 ^ bw.cnt ≤ 2 ^ 7 := Nat.pow_le_pow_right Nat.two_pos hbw.cnt_le
  have hfits : 2 ^ bw.cnt * u.value < 2 ^ 32 := by
    have := Nat.mul_le_mul hcnt hv.le
    omega
  rw [BitVec.toNat_or, BitVec.toNat_shiftLeft, BitVec.toNat_ofNat, Nat.mod_eq_of_lt (by omega : u.value < 2 ^ 32),
    Nat.shiftLeft_eq, Nat.mul_comm u.value, Nat.mod_eq_of_lt hfits, Nat.or_comm,
    ← Nat.two_pow_add_eq_or_of_lt hbw.acc_lt, Nat.add_comm]

theorem putBits_emits {bw : BitWriter} {u : Put} (hbw : bw.Ready) (hu : u.Admitted) :
    Emits bw (lowBits u.value u.width) (putBits bw u) := by
  have hacc := toNat_acc_or_shiftLeft hbw hu
  have hlt : bw.acc.toNat + 2 ^ bw.cnt * u.value < 2 ^ (bw.cnt + u.width) := by
    have hvalue := Nat.mul_le_mul_left (2 ^ bw.cnt) hu.1
    have hpending := hbw.acc_lt
    rw [Nat.mul_succ] at hvalue
    rw [Nat.pow_add]
    omega
  have hflush := flushBytes_emits (bw := ⟨bw.acc ||| BitVec.ofNat 32 u.value <<< bw.cnt, bw.cnt + u.width, bw.k⟩)
    le_rfl (hacc ▸ hlt)
  refine ⟨?_, hflush.ready, hflush.counted⟩
  rw [putBits, hflush.stream, List.append_nil, BitWriter.pending, BitWriter.pending, hacc, lowBits_add_mul hbw.acc_lt]

theorem putAll_emits {bw : BitWriter} {us : List Put} (hbw : bw.Ready) (hus : ∀ u ∈ us, u.Admitted) :
    Emits bw (streamBits us) (putAll bw us) := by
  induction us generalizing bw with
  | nil => exact hbw.emits_nil
  | cons u us ih =>
    obtain ⟨hu, hus⟩ := List.forall_mem_cons.1 hus
    have hput := putBits_emits hbw hu
    exact hput.trans (ih hput.ready hus)

@[simp] theorem fresh_bits_pending : Work.fresh.bits.pending = [] := rfl
theorem fresh_bits_ready : Work.fresh.bits.Ready := ⟨Nat.zero_le 7, Nat.one_pos⟩

/-- Settles O53, by induction over the puts. -/
theorem accumulatorEmitsBitStream : Obligations.AccumulatorEmitsBitStream := by
  intro us hus
  obtain ⟨hstream, ⟨hcnt, hacc⟩, hcounted⟩ := putAll_emits fresh_bits_ready hus
  exact ⟨hstream, hcnt, hacc, hcounted.trans (Nat.zero_add _)⟩

/-! ### The length and distance tables (R216, R217) -/

/-- Each row of a table reaches the base of the next, and the last one `hi`. -/
def Covers (table : List (Nat × Nat)) (hi : Nat) : Prop :=
  List.IsChain (fun row next => next.1 ≤ row.1 + 2 ^ row.2) (table ++ [(hi + 1, 0)])

/-- A row of the table and an extra value that fits its extra bits give `v` back. -/
structure TableCode.Decodes (c : TableCode) (table : List (Nat × Nat)) (v : Nat) : Prop where
  row : ∃ base, table[c.index]? = some (base, c.extraBits) ∧ base + c.extra = v
  fits : c.extra < 2 ^ c.extraBits

/-- From a row whose base is at most `v`, the search ends at a row that decodes to `v`. -/
theorem lastRow_decodes {table rows : List (Nat × Nat)} {best : TableCode} {base hi v : Nat}
    (hrows : table.drop (best.index + 1) = rows) (hrow : table[best.index]? = some (base, best.extraBits))
    (hbase : base + best.extra = v) (hcovers : Covers ((base, best.extraBits) :: rows) hi) (hv : v ≤ hi) :
    (lastRow best (best.index + 1) rows v).Decodes table v := by
  induction rows generalizing best base with
  | nil =>
    have hreach : hi + 1 ≤ base + 2 ^ best.extraBits := (List.isChain_cons_cons.1 hcovers).1
    exact ⟨⟨base, hrow, hbase⟩, by simp only [lastRow]; omega⟩
  | cons next rows ih =>
    obtain ⟨nextBase, e⟩ := next
    obtain ⟨hreach, hcovers⟩ := List.isChain_cons_cons.1 hcovers
    rw [lastRow]
    split
    · next hle =>
      refine ih (best := ⟨best.index + 1, e, v - nextBase⟩) (base := nextBase) ?_ ?_ (by simp only; omega) hcovers
      · rw [← List.drop_drop, hrows]; rfl
      · rw [← Nat.add_zero (best.index + 1), ← List.getElem?_drop, hrows]; rfl
    · next hlt => exact ⟨⟨base, hrow, hbase⟩, by simp only at hreach; omega⟩

theorem lengthCode_decodes {len : Nat} (h3 : 3 ≤ len) (h258 : len ≤ 258) : (lengthCode len).Decodes lengthTable len := by
  have hcovers : Covers lengthTable 258 := by unfold Covers; decide
  rw [lengthCode, lengthTable, lastRow, if_pos h3]
  exact lastRow_decodes rfl rfl (by simp only; omega) hcovers h258

theorem distanceCode_decodes {dist : Nat} (h1 : 1 ≤ dist) (hmax : dist ≤ 32768) :
    (distanceCode dist).Decodes distanceTable dist := by
  have hcovers : Covers distanceTable 32768 := by unfold Covers; decide
  rw [distanceCode, distanceTable, lastRow, if_pos h1]
  exact lastRow_decodes rfl rfl (by simp only; omega) hcovers hmax

section
variable {c c' : TableCode} {table : List (Nat × Nat)} {v v' : Nat}

theorem TableCode.Decodes.index_lt (h : c.Decodes table v) : c.index < table.length := by
  obtain ⟨base, hrow, -⟩ := h.row
  exact (List.getElem?_eq_some_iff.1 hrow).1

theorem TableCode.Decodes.extraBits_le {n : Nat} (h : c.Decodes table v) (htable : ∀ row ∈ table, row.2 ≤ n) :
    c.extraBits ≤ n := by
  obtain ⟨base, hrow, -⟩ := h.row
  exact htable _ (List.mem_of_getElem? hrow)

theorem TableCode.Decodes.extraBits_eq (h : c.Decodes table v) (h' : c'.Decodes table v') (hindex : c.index = c'.index) :
    c.extraBits = c'.extraBits := by
  obtain ⟨base, hrow, -⟩ := h.row
  obtain ⟨base', hrow', -⟩ := h'.row
  rw [hindex, hrow'] at hrow
  exact (congrArg Prod.snd (Option.some.inj hrow)).symm

/-- A row and an extra value decode to one number. -/
theorem TableCode.Decodes.unique (h : c.Decodes table v) (h' : c'.Decodes table v') (hindex : c.index = c'.index)
    (hextra : c.extra = c'.extra) : v = v' := by
  obtain ⟨base, hrow, rfl⟩ := h.row
  obtain ⟨base', hrow', rfl⟩ := h'.row
  rw [hindex, hrow'] at hrow
  have hbase : base' = base := congrArg Prod.fst (Option.some.inj hrow)
  rw [hextra, hbase]

end

theorem lengthCode_index_le {len : Nat} (h3 : 3 ≤ len) (h258 : len ≤ 258) : (lengthCode len).index ≤ 28 :=
  Nat.le_of_lt_succ (lengthCode_decodes h3 h258).index_lt

theorem distanceCode_index_le {dist : Nat} (h1 : 1 ≤ dist) (hmax : dist ≤ 32768) : (distanceCode dist).index ≤ 29 :=
  Nat.le_of_lt_succ (distanceCode_decodes h1 hmax).index_lt

/-- Row 28 is length 258 alone: symbol 284 ends at 257 (R216). -/
theorem lengthCode_index_eq_iff {len : Nat} (h3 : 3 ≤ len) (h258 : len ≤ 258) :
    (lengthCode len).index = 28 ↔ len = 258 := by
  constructor
  · intro hindex
    obtain ⟨base, hrow, hbase⟩ := (lengthCode_decodes h3 h258).row
    rw [hindex] at hrow
    have hlast : 258 = base := congrArg Prod.fst (Option.some.inj hrow)
    omega
  · rintro rfl
    decide

/-- Settles O56: a table whose rows reach one another decodes each number in its range. -/
theorem lengthAndDistanceTablesCover : Obligations.LengthAndDistanceTablesCover := by
  refine ⟨fun len h3 h258 => ?_, fun dist h1 hmax => ?_⟩
  · obtain ⟨⟨base, hrow, hbase⟩, hfits⟩ := lengthCode_decodes h3 h258
    exact ⟨base, hrow, hbase, hfits, lengthCode_index_le h3 h258, lengthCode_index_eq_iff h3 h258⟩
  · obtain ⟨⟨base, hrow, hbase⟩, hfits⟩ := distanceCode_decodes h1 hmax
    exact ⟨base, hrow, hbase, hfits, distanceCode_index_le h1 hmax⟩

/-! ### Symbols (R214, R215, R218) -/

/-- The literal/length symbol a symbol begins with. -/
def Symbol.litLen (s : Symbol) : Nat :=
  match s with
  | .lit b => b.toNat
  | .copy len _ => 257 + (lengthCode len).index
  | .eob => 256

/-- The bits of the fixed code of literal/length symbol `s`. -/
def litLenBits (s : Nat) : List Bool := codeBits (litLenCode s).1 (litLenCode s).2

/-- The bits a symbol has after its literal/length code. -/
def Symbol.tailBits (s : Symbol) : List Bool :=
  match s with
  | .lit _ => []
  | .copy len dist => lowBits (lengthCode len).extra (lengthCode len).extraBits ++ (codeBits (distanceCode dist).index 5
      ++ lowBits (distanceCode dist).extra (distanceCode dist).extraBits)
  | .eob => []

theorem symbolBits_eq (s : Symbol) : symbolBits s = litLenBits s.litLen ++ s.tailBits := by
  cases s with
  | lit b => exact (List.append_nil _).symm
  | copy len dist =>
    rw [symbolBits, List.append_assoc, List.append_assoc]
    rfl
  | eob => rfl

/-- Symbols 286 and 287 are never used (R221). -/
theorem Symbol.Admitted.litLen_le {s : Symbol} (hs : s.Admitted) : s.litLen ≤ 285 := by
  cases s with
  | lit b =>
    have := b.isLt
    simp only [litLen]
    omega
  | copy len dist =>
    obtain ⟨h3, h258, -⟩ := hs
    have := lengthCode_index_le h3 h258
    simp only [litLen]
    omega
  | eob => decide

/-- The four ranges of R214. -/
theorem litLenCode_cases (s : Nat) :
    s ≤ 143 ∧ litLenCode s = (0x30 + s, 8) ∨ (144 ≤ s ∧ s ≤ 255) ∧ litLenCode s = (0x190 + (s - 144), 9) ∨
      (256 ≤ s ∧ s ≤ 279) ∧ litLenCode s = (s - 256, 7) ∨ 280 ≤ s ∧ litLenCode s = (0xC0 + (s - 280), 8) := by
  unfold litLenCode
  split_ifs <;> simp only [and_true, Prod.mk.injEq] <;> omega

theorem litLenCode_bounds {s : Nat} (hs : s ≤ 287) :
    (litLenCode s).1 < 2 ^ (litLenCode s).2 ∧ 7 ≤ (litLenCode s).2 ∧ (litLenCode s).2 ≤ 9 := by
  rcases litLenCode_cases s with ⟨hrange, hcode⟩ | ⟨hrange, hcode⟩ | ⟨hrange, hcode⟩ | ⟨hrange, hcode⟩ <;>
    simp only [hcode] <;> omega

theorem huff_admitted {s : Nat} (hs : s ≤ 287) : (huff s).Admitted := by
  obtain ⟨-, h7, h9⟩ := litLenCode_bounds hs
  exact ⟨revBits_lt _ _, by simp only [huff]; omega, by simp only [huff]; omega⟩

theorem extraPut_admitted {c : TableCode} {table : List (Nat × Nat)} {v : Nat} (h : c.Decodes table v)
    (htable : ∀ row ∈ table, row.2 ≤ 13) : ∀ u ∈ extraPut c, u.Admitted := by
  intro u hu
  rw [extraPut] at hu
  split at hu
  · next hpos =>
    rw [List.mem_singleton] at hu
    exact hu ▸ ⟨h.fits, hpos, h.extraBits_le htable⟩
  · cases hu

theorem symbolPuts_admitted {s : Symbol} (hs : s.Admitted) : ∀ u ∈ symbolPuts s, u.Admitted := by
  have hhuff : (huff s.litLen).Admitted := huff_admitted (hs.litLen_le.trans (by decide))
  cases s with
  | lit b => exact List.forall_mem_singleton.2 hhuff
  | copy len dist =>
    obtain ⟨h3, h258, h1, hmax⟩ := hs
    have hlength := extraPut_admitted (lengthCode_decodes h3 h258) (by decide)
    have hdistance := extraPut_admitted (distanceCode_decodes h1 hmax) (by decide)
    have hcode : (distPut (distanceCode dist).index).Admitted := ⟨revBits_lt _ _, by simp [distPut]⟩
    exact List.forall_mem_append.2 ⟨List.forall_mem_cons.2 ⟨hhuff, hlength⟩, List.forall_mem_cons.2 ⟨hcode, hdistance⟩⟩
  | eob => exact List.forall_mem_singleton.2 hhuff

/-! ### The block (R212, R213, R220) -/

theorem streamBits_huff (s : Nat) : lowBits (huff s).value (huff s).width = litLenBits s := lowBits_revBits _ _

theorem streamBits_extraPut (c : TableCode) : streamBits (extraPut c) = lowBits c.extra c.extraBits := by
  rw [extraPut]
  split
  · simp
  · next hzero => rw [Nat.eq_zero_of_not_pos hzero]; rfl

/-- The puts of a symbol append its bits: codes are reversed into `put`, extra bits are not (R219). -/
theorem streamBits_symbolPuts (s : Symbol) : streamBits (symbolPuts s) = symbolBits s := by
  rw [symbolBits_eq]
  cases s with
  | lit b => simp [symbolPuts, streamBits_huff, Symbol.litLen, Symbol.tailBits]
  | copy len dist =>
    simp [symbolPuts, streamBits_huff, streamBits_extraPut, distPut, lowBits_revBits, Symbol.litLen, Symbol.tailBits]
  | eob => simp [symbolPuts, streamBits_huff, Symbol.litLen, Symbol.tailBits]

theorem streamBits_blockPuts (syms : List Symbol) :
    streamBits (blockPuts syms) = [true, true, false] ++ syms.flatMap symbolBits := by
  have hsyms : streamBits (syms.flatMap symbolPuts) = syms.flatMap symbolBits := by
    rw [streamBits, List.flatMap_assoc]
    exact List.flatMap_congr fun s _ => streamBits_symbolPuts s
  rw [blockPuts, streamBits_append, hsyms]
  rfl

theorem blockPuts_admitted {syms : List Symbol} (hsyms : ∀ s ∈ syms, s.Admitted) : ∀ u ∈ blockPuts syms, u.Admitted := by
  refine List.forall_mem_append.2 ⟨by simp [blockHeader, Put.Admitted], fun u hu => ?_⟩
  obtain ⟨s, hs, hu⟩ := List.mem_flatMap.1 hu
  exact symbolPuts_admitted (hsyms s hs) u hu

/-- The end padding packs the pending bits (R212). -/
theorem packBits_pending {bw : BitWriter} (hbw : bw.Ready) : packBits bw.pending = (padEnd bw).2 := by
  have hlength : bw.pending.length = bw.cnt := lowBits_length _ _
  rw [padEnd]
  split
  · next hpos =>
    have hcnt := hbw.cnt_le
    rw [packBits_of_length_lt (by omega) (by omega), BitWriter.pending, bitsValue_lowBits, Nat.mod_eq_of_lt hbw.acc_lt,
      BitVec.ofNat_toNat, BitWriter.lowByte]
  · next hzero =>
    rw [List.eq_nil_of_length_eq_zero (hlength.trans (Nat.eq_zero_of_not_pos hzero))]
    rfl

section
variable {syms : List Symbol} (hsyms : ∀ s ∈ syms, s.Admitted)
include hsyms

/-- Before the padding the bytes and the pending bits are the block's stream. -/
theorem block_emits : Emits Work.fresh.bits ([true, true, false] ++ syms.flatMap symbolBits)
    (putAll Work.fresh.bits (blockPuts syms)) :=
  streamBits_blockPuts syms ▸ putAll_emits fresh_bits_ready (blockPuts_admitted hsyms)

theorem deflateBlock_eq_blockByBits : (deflateBlock syms).2 = blockByBits syms := by
  obtain ⟨hstream, hready, -⟩ := block_emits hsyms
  rw [fresh_bits_pending, List.nil_append] at hstream
  rw [blockByBits, ← hstream, packBits_bytesBits_append, packBits_pending hready]
  rfl

end

/-- Settles O54: the puts append the symbols' bits, and the padding packs what is pending at the end. -/
theorem blockIsPackedSymbolStream : Obligations.BlockIsPackedSymbolStream := fun _ => deflateBlock_eq_blockByBits

/-! ### Unique decoding (R214 to R217) -/

/-- If a first part and its continuation begin another one with a first part as long, the first parts are the same. -/
theorem eq_and_prefix_of_append_prefix {a b x y : List Bool} (hlength : a.length = b.length) (h : a ++ x <+: b ++ y) :
    a = b ∧ x <+: y := by
  obtain ⟨t, ht⟩ := h
  rw [List.append_assoc] at ht
  obtain ⟨hab, hxy⟩ := List.append_inj ht hlength
  exact ⟨hab, t, hxy⟩

theorem codeBits_inj {c c' n : Nat} (hc : c < 2 ^ n) (hc' : c' < 2 ^ n) (h : codeBits c n = codeBits c' n) : c = c' :=
  lowBits_inj hc hc' (List.reverse_injective h)

/-- A code's bits begin another's exactly at the other's most significant bits. -/
theorem codeBits_prefix {c n c' n' : Nat} (hc : c < 2 ^ n) (hc' : c' < 2 ^ n') (h : codeBits c n <+: codeBits c' n') :
    n ≤ n' ∧ c' / 2 ^ (n' - n) = c := by
  have hn : n ≤ n' := by simpa using h.length_le
  have hsum : n' - n + n = n' := Nat.sub_add_cancel hn
  have hsplit : codeBits c' n' = codeBits (c' / 2 ^ (n' - n)) n ++ codeBits c' (n' - n) := by
    rw [codeBits, ← hsum, lowBits_add, List.reverse_append, hsum]
    rfl
  have hdiv : c' / 2 ^ (n' - n) < 2 ^ n := Nat.div_lt_of_lt_mul (by rwa [← Nat.pow_add, hsum])
  rw [hsplit, ← List.append_nil (codeBits c n)] at h
  obtain ⟨heq, -⟩ := eq_and_prefix_of_append_prefix (by simp) h
  exact ⟨hn, codeBits_inj hdiv hc heq.symm⟩

/-- The literal/length symbol whose code begins the nine bits `w`, most significant bit first (R214). -/
def litLenSymbol (w : Nat) : Nat :=
  if w < 96 then 256 + w / 4 else if w < 384 then w / 2 - 48 else if w < 400 then w / 2 + 88 else w - 256

/-- Nine bits that a code begins stand for its symbol, whatever follows the code. -/
theorem litLenSymbol_of_div {s w : Nat} (hs : s ≤ 287) (h : w / 2 ^ (9 - (litLenCode s).2) = (litLenCode s).1) :
    litLenSymbol w = s := by
  unfold litLenSymbol
  rcases litLenCode_cases s with ⟨hrange, hcode⟩ | ⟨hrange, hcode⟩ | ⟨hrange, hcode⟩ | ⟨hrange, hcode⟩ <;>
    simp only [hcode] at h <;> split_ifs <;> omega

/-- No literal/length code begins another: both begin the nine bits of the longer one. -/
theorem litLenBits_prefix {s s' : Nat} (hs : s ≤ 287) (hs' : s' ≤ 287) (h : litLenBits s <+: litLenBits s') : s = s' := by
  obtain ⟨hc, -, -⟩ := litLenCode_bounds hs
  obtain ⟨hc', -, h9⟩ := litLenCode_bounds hs'
  obtain ⟨hn, hdiv⟩ := codeBits_prefix hc hc' h
  have hwindow' := Nat.mul_div_cancel (litLenCode s').1 (Nat.two_pow_pos (9 - (litLenCode s').2))
  have hwidths : 9 - (litLenCode s).2 = 9 - (litLenCode s').2 + ((litLenCode s').2 - (litLenCode s).2) := by omega
  have hwindow : (litLenCode s').1 * 2 ^ (9 - (litLenCode s').2) / 2 ^ (9 - (litLenCode s).2) = (litLenCode s).1 := by
    rw [hwidths, Nat.pow_add, ← Nat.div_div_eq_div_mul, hwindow', hdiv]
  exact (litLenSymbol_of_div hs hwindow).symm.trans (litLenSymbol_of_div hs' hwindow')

/-- A row's extra bits give its number back. -/
theorem TableCode.Decodes.eq_of_prefix {c c' : TableCode} {table : List (Nat × Nat)} {v v' : Nat} {x y : List Bool}
    (h : c.Decodes table v) (h' : c'.Decodes table v') (hindex : c.index = c'.index)
    (hbits : lowBits c.extra c.extraBits ++ x <+: lowBits c'.extra c'.extraBits ++ y) : v = v' ∧ x <+: y := by
  have hextraBits := h.extraBits_eq h' hindex
  obtain ⟨heq, hrest⟩ := eq_and_prefix_of_append_prefix (by simp [hextraBits]) hbits
  rw [hextraBits] at heq
  exact ⟨h.unique h' hindex (lowBits_inj (hextraBits ▸ h.fits) h'.fits heq), hrest⟩

theorem copy_eq_of_tailBits_prefix {len dist len' dist' : Nat} (hs : (Symbol.copy len dist).Admitted)
    (hs' : (Symbol.copy len' dist').Admitted) (hindex : (lengthCode len).index = (lengthCode len').index)
    (h : (Symbol.copy len dist).tailBits <+: (Symbol.copy len' dist').tailBits) :
    Symbol.copy len dist = Symbol.copy len' dist' := by
  obtain ⟨h3, h258, h1, hmax⟩ := hs
  obtain ⟨h3', h258', h1', hmax'⟩ := hs'
  have hfive {dist : Nat} (h1 : 1 ≤ dist) (hmax : dist ≤ 32768) : (distanceCode dist).index < 2 ^ 5 :=
    Nat.lt_of_le_of_lt (distanceCode_index_le h1 hmax) (by decide)
  obtain ⟨rfl, hrest⟩ := (lengthCode_decodes h3 h258).eq_of_prefix (lengthCode_decodes h3' h258') hindex h
  obtain ⟨hcode, hextra⟩ := eq_and_prefix_of_append_prefix (by simp) hrest
  have hdistance := codeBits_inj (hfive h1 hmax) (hfive h1' hmax') hcode
  obtain ⟨rfl, -⟩ := (distanceCode_decodes h1 hmax).eq_of_prefix (distanceCode_decodes h1' hmax') hdistance
    (x := []) (y := []) (by simpa using hextra)
  rfl

/-- Settles O55: one of the two literal/length codes begins the other, so they are the same; then the tails are read field
by field. -/
theorem symbolBitsArePrefixFree : Obligations.SymbolBitsArePrefixFree := by
  intro s s' hs hs' h
  have hle := hs.litLen_le
  have hle' := hs'.litLen_le
  rw [symbolBits_eq, symbolBits_eq] at h
  have hlitLen : s.litLen = s'.litLen := by
    rcases List.prefix_or_prefix_of_prefix ((List.prefix_append _ _).trans h) (List.prefix_append _ _) with hcode | hcode
    · exact litLenBits_prefix (by omega) (by omega) hcode
    · exact (litLenBits_prefix (by omega) (by omega) hcode).symm
  rw [hlitLen, List.prefix_append_right_inj] at h
  cases s <;> cases s' <;> simp only [Symbol.litLen] at hlitLen
  case lit.lit b b' => rw [BitVec.eq_of_toNat_eq hlitLen]
  case copy.copy => exact copy_eq_of_tailBits_prefix hs hs' (Nat.add_left_cancel hlitLen) h
  case eob.eob => rfl
  -- Symbols of different kinds begin with different literal/length symbols.
  all_goals omega

/-! ### The size bound (R222) -/

theorem symbolBits_lit_length_le (b : Byte) : (symbolBits (.lit b)).length ≤ 9 := by
  have hb : b.toNat ≤ 287 := by have := b.isLt; omega
  rw [symbolBits, codeBits_length]
  exact (litLenCode_bounds hb).2.2

theorem litLenCode_length_width_le (row : Nat) : (litLenCode (257 + row)).2 ≤ 8 := by
  rcases litLenCode_cases (257 + row) with ⟨hrange, hcode⟩ | ⟨hrange, hcode⟩ | ⟨hrange, hcode⟩ | ⟨hrange, hcode⟩ <;>
    simp only [hcode] <;> omega

theorem symbolBits_copy_length (len dist : Nat) :
    (symbolBits (.copy len dist)).length = (litLenCode (257 + (lengthCode len).index)).2 + (lengthCode len).extraBits + 5
      + (distanceCode dist).extraBits := by
  simp [symbolBits, Nat.add_assoc]

theorem symbolBits_copy_length_le {len dist : Nat} (h3 : 3 ≤ len) (h258 : len ≤ 258) (h1 : 1 ≤ dist)
    (hmax : dist ≤ 32768) : (symbolBits (.copy len dist)).length ≤ if len = 3 then 25 else 31 := by
  have hcode := litLenCode_length_width_le (lengthCode len).index
  have hlength : (lengthCode len).extraBits ≤ 5 := (lengthCode_decodes h3 h258).extraBits_le (by decide)
  have hdistance : (distanceCode dist).extraBits ≤ 13 := (distanceCode_decodes h1 hmax).extraBits_le (by decide)
  rw [symbolBits_copy_length]
  split
  · next hthree =>
    subst hthree
    have hseven : (litLenCode (257 + (lengthCode 3).index)).2 + (lengthCode 3).extraBits = 7 := rfl
    omega
  · omega

/-- A symbol costs at most 9 bits for each byte it stands for. -/
theorem symbolBits_length_le {s : Symbol} (hs : s.Admitted) (hne : s ≠ .eob) : (symbolBits s).length ≤ 9 * s.size := by
  cases s with
  | lit b => exact symbolBits_lit_length_le b
  | copy len dist =>
    obtain ⟨h3, h258, h1, hmax⟩ := hs
    have hle := symbolBits_copy_length_le h3 h258 h1 hmax
    rw [Symbol.size]
    split at hle <;> omega
  | eob => exact absurd rfl hne

theorem flatMap_symbolBits_length_le {syms : List Symbol} (hsyms : ∀ s ∈ syms, s.Admitted) (heob : .eob ∉ syms) :
    (syms.flatMap symbolBits).length ≤ 9 * (syms.map Symbol.size).sum := by
  induction syms with
  | nil => exact Nat.zero_le _
  | cons s syms ih =>
    obtain ⟨hs, hsyms⟩ := List.forall_mem_cons.1 hsyms
    rw [List.mem_cons, not_or] at heob
    have hhead := symbolBits_length_le hs (Ne.symm heob.1)
    have htail := ih hsyms heob.2
    rw [List.flatMap_cons, List.length_append, List.map_cons, List.sum_cons, Nat.mul_add]
    omega

/-- A block is 3 bits of header and its symbols, to the byte boundary. -/
theorem deflateBlock_length {syms : List Symbol} (hsyms : ∀ s ∈ syms, s.Admitted) :
    (deflateBlock syms).2.length = (3 + (syms.flatMap symbolBits).length + 7) / 8 := by
  obtain ⟨hstream, ⟨hcnt, -⟩, -⟩ := block_emits hsyms
  have hbits := congrArg List.length hstream
  rw [fresh_bits_pending, BitWriter.pending] at hbits
  simp only [List.length_append, bytesBits_length, lowBits_length, List.length_cons, List.length_nil] at hbits
  rw [deflateBlock, List.length_append, padEnd]
  split
  · rw [List.length_singleton]
    omega
  · rw [List.length_nil]
    omega

section
variable {p : Params} (hmax : p.maxDist ≤ 32768) (d : List Byte) (q : Nat)
include hmax

theorem admitted_of_mem_lz77 : ∀ s ∈ (lz77 p d q).2, s.Admitted := by
  intro s hs
  cases s with
  | lit b => trivial
  | copy len dist =>
    obtain ⟨h3, h258, h1, hdist⟩ := copy_bounds_of_mem_lz77 hs
    exact ⟨h3, h258, h1, hdist.trans hmax⟩
  | eob => trivial

theorem lz77_symbolBits_length_le : ((lz77 p d q).2.flatMap symbolBits).length ≤ 9 * d.length + 7 := by
  obtain ⟨-, -, hsize, -⟩ := matchFinderReconstructsInput p d q
  have hadmitted := admitted_of_mem_lz77 hmax d q
  rw [lz77_eq_body] at hsize hadmitted ⊢
  have hbody := flatMap_symbolBits_length_le (fun s hs => hadmitted s (List.mem_append_left _ hs))
    (eob_notMem_lz77Body p d q)
  have heob : ([Symbol.eob].flatMap symbolBits).length = 7 := rfl
  have hsizes : ((lz77Body p d q).map Symbol.size).sum = d.length := by simpa [Symbol.size] using hsize
  rw [List.flatMap_append, List.length_append, heob, ← hsizes]
  omega

theorem deflateBlock_lz77_length_le : (deflateBlock (lz77 p d q).2).2.length ≤ (3 + 9 * d.length + 7 + 7) / 8 := by
  have hbits := lz77_symbolBits_length_le hmax d q
  rw [deflateBlock_length (admitted_of_mem_lz77 hmax d q)]
  exact Nat.div_le_div_right (by omega)

end

theorem zlib_length (p : Params) (d : List Byte) (q : Nat) :
    (zlib p d q).length = (deflateBlock (lz77 p d q).2).2.length + 6 := by
  simp only [zlib, zlibWrap, zlibHeader, List.length_append, List.length_cons, List.length_nil, be32_length]
  omega

/-- Settles O57: each symbol costs at most 9 bits a byte, and the sizes of the symbols are the bytes of the input. -/
theorem compressedSizeBound : Obligations.CompressedSizeBound := by
  refine ⟨symbolBits_lit_length_le, fun len dist h3 h258 h1 hmax => ⟨symbolBits_copy_length_le h3 h258 h1 hmax, ?_⟩,
    fun p d q hmax => ?_⟩
  · exact symbolBits_length_le (s := .copy len dist) ⟨h3, h258, h1, hmax⟩ Symbol.noConfusion
  · have hblock := deflateBlock_lz77_length_le hmax d q
    exact ⟨hblock, by rw [zlib_length]; omega⟩

end Sys2Proof.Machine
end

section
/-! ## The PNG framer (45_png_framer.md)

A chunk's fields are read back by dropping the fields before them (`drop_chunk_length`, `drop_chunk_type`,
`drop_chunk_payload`). The length bounds are the size bound of the compressor (`compressedSizeBound`) at FP_CAP. -/

namespace Sys2Proof.Machine

/-! ### The fields of a chunk (R241) -/

/-- The four bytes of a word, read most significant first, give it back (00_scope.md R11). -/
theorem foldl_be32 (v : Word) : (be32 v).foldl (fun n b => n * 256 + b.toNat) 0 = v.toNat := by
  simp only [be32, List.foldl_cons, List.foldl_nil, BitVec.extractLsb'_toNat, Nat.shiftRight_eq_div_pow]
  have := v.isLt
  omega

section
variable (type payload : List Byte)

theorem take_chunk_length : (chunk type payload).take 4 = be32 (BitVec.ofNat 32 payload.length) := by
  simp only [chunk, List.append_assoc]
  exact List.take_left' (be32_length _)

theorem drop_chunk_length : (chunk type payload).drop 4 = type ++ (payload ++ be32 (crc32 (type ++ payload))) := by
  simp only [chunk, List.append_assoc]
  exact List.drop_left' (be32_length _)

variable {type} (htype : type.length = 4)
include htype

theorem drop_chunk_type : (chunk type payload).drop 8 = payload ++ be32 (crc32 (type ++ payload)) := by
  rw [← List.drop_drop (i := 4) (j := 4), drop_chunk_length, List.drop_left' htype]

theorem drop_chunk_payload : (chunk type payload).drop (payload.length + 8) = be32 (crc32 (type ++ payload)) := by
  rw [Nat.add_comm, ← List.drop_drop, drop_chunk_type payload htype, List.drop_left]

end

/-- Settles O58: the fields are read off one after the other, and a payload length below 2^32 is its own word's value. -/
theorem chunkLayout : Obligations.ChunkLayout := by
  intro type payload htype hpayload
  have hword : payload.length < 2 ^ 32 := by omega
  refine ⟨?_, ?_, ?_, ?_, ?_⟩
  · rw [chunk_length, htype]
    omega
  · rw [take_chunk_length, foldl_be32, BitVec.toNat_ofNat, Nat.mod_eq_of_lt hword]
  · rw [drop_chunk_length, List.take_left' htype]
  · rw [drop_chunk_type payload htype, List.take_left]
  · rw [drop_chunk_payload payload htype, foldl_be32]

/-! ### The length bounds (R247, R248) -/

theorem chip_fpCap_le : Config.chip.fpCap ≤ 2 ^ 30 := BitVec.toNat_lt_twoPow_of_le (x := Config.fpCapLess1) le_rfl

/-- R222 for the chip, whose MAX_DIST is the last distance of the table, with its constants added up as R248 has them. -/
theorem zlib_chip_length_le (d : List Byte) (q : Nat) :
    (zlib Config.chip d q).length ≤ (10 + 9 * d.length + 7) / 8 + 6 := by
  have hconstants : 10 + 9 * d.length + 7 = 3 + 9 * d.length + 7 + 7 := by omega
  obtain ⟨-, -, hbound⟩ := compressedSizeBound
  rw [hconstants]
  exact (hbound Config.chip d q le_rfl).2

/-- Settles O59: the compressor's size bound is monotone in the plane, and at 2^30 bytes it leaves room for the 57 bytes
around the zlib stream. -/
theorem pngLengthBounds : Obligations.PngLengthBounds := by
  refine ⟨chip_fpCap_le, fun w h f plane q hplane => ?_⟩
  have hzlib := zlib_chip_length_le plane q
  have hcap : plane.length ≤ 2 ^ 30 := hplane.trans chip_fpCap_le
  have hstream : (pngStream Config.chip w h f plane q).length = 57 + (zlib Config.chip plane q).length :=
    pngContainer_length w h f _
  exact ⟨hzlib, by omega, hstream, by omega⟩

end Sys2Proof.Machine
end

section
/-! ## The commands (46_commands.md)

Each unit equals its reference form, each list of register checks is the chain of R302, and so the run of a command whose
checks pass ends in the output of the reference forms. `complete_success` and `complete_error` then give the completion. -/

namespace Sys2Proof.Machine

/-! ### Acceptance (R260) -/

/-- Settles O18: the step is the register write to CMD, which while idle is `accept`. -/
theorem commandWriteIsAccepted : Obligations.CommandWriteIsAccepted := by
  intro s x rest hidle hreset hhost
  have hturn : (s.turn rest).status.busy = false := hidle
  have hstep : step s = .next (accept Config.chip (hostValue x s.vars) (s.turn rest)) := by
    rw [step_regWrite (r := .cmd) (engineDue_false_of_idle hidle) hreset hhost, writeReg_idle hturn, if_pos rfl]
  exact ⟨_, hstep, rfl, rfl, rfl, rfl, rfl, rfl, rfl, rfl, rfl, rfl, fun _ => rfl, rfl, rfl⟩

/-! ### The units in their reference forms -/

theorem crc32_eq_crc32ByTable (d : List Byte) : crc32 d = crc32ByTable d := by
  have hstep : crcStep = fun (cr : Word) (b : Byte) => (cr >>> 8) ^^^ crcTable ((cr ^^^ b.zeroExtend 32).setWidth 8) :=
    funext₂ crcStep_eq_table
  rw [crc32, crcRegister, hstep, crc32ByTable]

theorem chunk_eq_chunkByTable (type payload : List Byte) : chunk type payload = chunkByTable type payload := by
  rw [chunk, crc32_eq_crc32ByTable, chunkByTable]

/-- The compressor emits admitted symbols only, so its block is the packed stream (44_huffman_bitwriter.md R224). -/
theorem zlib_eq_zlibByBits {p : Params} (hmax : p.maxDist ≤ 32768) (d : List Byte) (q : Nat) :
    zlib p d q = zlibByBits p d q := by
  rw [zlib, zlibWrap, deflateBlock_eq_blockByBits (admitted_of_mem_lz77 hmax d q), adler32_eq_adlerClosed]
  rfl

/-- The colour type by format (45_png_framer.md R242). -/
theorem colourType_eq (f : PixelFormat) : colourType f = if f = .gray8 then 0 else if f = .bgra32 then 6 else 2 := by
  cases f <;> rfl

theorem pngStream_eq_pngByParts {p : Params} (hmax : p.maxDist ≤ 32768) (c : Cfg) (f : PixelFormat) (plane : List Byte) :
    pngStream p c.width c.height f plane (effectiveQuality c.quality) = pngByParts p c f plane := by
  simp only [pngStream, pngContainer, chunk_eq_chunkByTable, zlib_eq_zlibByBits hmax, ihdr, colourType_eq]
  rfl

/-! ### The operand codes (10_state.md R24, R25) -/

/-- A FORMAT code of the table names its format, whose channels are those of the code. -/
theorem pixelFormat_of_mem_formatCodes {fmt : BitVec 8} {f : PixelFormat} (h : (fmt, f) ∈ formatCodes) :
    pixelFormat fmt = some f ∧ f.channels = channelCount fmt := by
  have hall : ∀ e ∈ formatCodes, pixelFormat e.1 = some e.2 ∧ e.2.channels = channelCount e.1 := by decide
  exact hall _ h

theorem filterMode_of_mem_modeCodes {code : BitVec 4} {mode : FilterMode} (h : (code, mode) ∈ modeCodes) :
    filterMode code = some mode := by
  have hall : ∀ e ∈ modeCodes, filterMode e.1 = some e.2 := by decide
  exact hall _ h

theorem planeLength_eq_planeSize {c : Cfg} {f : PixelFormat} (h : (c.format, f) ∈ formatCodes) :
    planeLength c f = planeSize c := by
  rw [planeLength, rowLength, (pixelFormat_of_mem_formatCodes h).2, planeSize]

/-- No MODE value of the table is out of range (60_exceptions.md R300). -/
theorem not_badMode_of_mem_modeCodes {c : Cfg} {mode : FilterMode} (h : (c.filter, mode) ∈ modeCodes) : ¬badMode c := by
  have hall : ∀ e ∈ modeCodes, e.1.toNat ≤ 4 ∨ e.1.toNat = 8 := by decide
  exact not_not_intro (hall _ h)

/-! ### The register checks as the chain of 60_exceptions.md R302 -/

theorem dimensionOk_false_iff (v : Word) : (!dimensionOk v) = true ↔ v = 0 ∨ 2 ^ 31 - 1 < v.toNat := by
  have hzero : v = 0 ↔ v.toNat = 0 := BitVec.toNat_inj.symm
  rw [hzero, dimensionOk, Bool.not_eq_true', decide_eq_false_iff_not]
  omega

theorem filterMode_isNone_iff (c : Cfg) : (filterMode c.filter).isNone = true ↔ badMode c := by
  have hall : ∀ code : BitVec 4, (filterMode code).isNone = true ↔ ¬(code.toNat ≤ 4 ∨ code.toNat = 8) := by decide
  exact hall c.filter

theorem firstFailure_filterChecks (c : Cfg) (f : PixelFormat) :
    firstFailure (filterChecks c f) =
      if badDimensions c ∨ badMode c then some .param
      else if c.dstCap.toNat < planeLength c f then some .overflow else none := by
  simp only [filterChecks, dimensionChecks, modeCheck, List.cons_append, List.nil_append, firstFailure_cons,
    firstFailure_nil, dimensionOk_false_iff, filterMode_isNone_iff, decide_eq_true_eq, badDimensions, ite_or]

theorem firstFailure_encodeChecks (p : Params) (c : Cfg) (f : PixelFormat) :
    firstFailure (encodeChecks p c f) =
      if badDimensions c ∨ p.qmax < c.quality.toNat ∨ badMode c then some .param
      else if p.fpCap < planeLength c f then some .capacity else none := by
  simp only [encodeChecks, dimensionChecks, qualityCheck, modeCheck, List.cons_append, List.nil_append, firstFailure_cons,
    firstFailure_nil, dimensionOk_false_iff, filterMode_isNone_iff, decide_eq_true_eq, badDimensions, ite_or]

theorem firstFailure_zlibChecks (p : Params) (c : Cfg) :
    firstFailure (zlibChecks p c) =
      if p.qmax < c.quality.toNat then some .param
      else if p.fpCap < c.srcLen.toNat then some .capacity else none := by
  simp only [zlibChecks, qualityCheck, firstFailure_cons, firstFailure_nil, decide_eq_true_eq]

theorem firstFailure_chunkChecks (c : Cfg) :
    firstFailure (chunkChecks c) = if 2 ^ 31 - 1 < c.srcLen.toNat then some .param else none := by
  simp only [chunkChecks, firstFailure_cons, firstFailure_nil, decide_eq_true_eq]

/-! ### What a run gives whose checks pass -/

theorem ofNat_sourceBytes_length (c : Cfg) (m : Memory) : BitVec.ofNat 32 (sourceBytes c m).length = c.srcLen := by
  rw [sourceBytes_length, BitVec.ofNat_toNat, BitVec.setWidth_eq]

theorem chunkByTable_sourceBytes_length (c : Cfg) (m : Memory) :
    (chunkByTable (be32 c.chunkType) (sourceBytes c m)).length = c.srcLen.toNat + 12 := by
  rw [← chunk_eq_chunkByTable, chunk_length, be32_length, sourceBytes_length]
  omega

theorem runWriteChunk_outcome {s : State} (hlen : s.cfg.srcLen.toNat ≤ 2 ^ 31 - 1)
    (hfits : s.cfg.srcLen.toNat + 12 ≤ s.cfg.dstCap.toNat) :
    (runWriteChunk s).outcome =
      .ok (chunkByTable (be32 s.cfg.chunkType) (sourceBytes s.cfg s.mem))
        (crc32ByTable (be32 s.cfg.chunkType ++ sourceBytes s.cfg s.mem)) := by
  have hchecks : firstFailure (chunkChecks s.cfg) = none := by
    rw [firstFailure_chunkChecks, if_neg (Nat.not_lt.2 hlen)]
  simp only [runWriteChunk, hchecks, chunkTypeBytes, chunk_eq_chunkByTable, crc32_eq_crc32ByTable]
  exact fittingRun_ok ((chunkByTable_sourceBytes_length _ _).trans_le hfits) _ _

theorem runZlibCompress_outcome {p : Params} {s : State} (hmax : p.maxDist ≤ 32768)
    (hquality : s.cfg.quality.toNat ≤ p.qmax) (hlen : s.cfg.srcLen.toNat ≤ p.fpCap)
    (hfits : (zlibByBits p (sourceBytes s.cfg s.mem) (max s.cfg.quality.toNat 5)).length ≤ s.cfg.dstCap.toNat) :
    (runZlibCompress p s).outcome =
      .ok (zlibByBits p (sourceBytes s.cfg s.mem) (max s.cfg.quality.toNat 5)) (adlerClosed (sourceBytes s.cfg s.mem)) := by
  have hchecks : firstFailure (zlibChecks p s.cfg) = none := by
    rw [firstFailure_zlibChecks, if_neg (Nat.not_lt.2 hquality), if_neg (Nat.not_lt.2 hlen)]
  simp only [runZlibCompress, hchecks, zlib_eq_zlibByBits hmax, adler32_eq_adlerClosed]
  exact fittingRun_ok hfits _ _

section
variable {s : State} {f : PixelFormat} {mode : FilterMode} (hf : (s.cfg.format, f) ∈ formatCodes)
  (hmode : (s.cfg.filter, mode) ∈ modeCodes) (hdim : ¬badDimensions s.cfg)
include hf hmode hdim

theorem runFilterImage_outcome (hfits : planeSize s.cfg ≤ s.cfg.dstCap.toNat) :
    (runFilterImage s).outcome =
      .ok (rasterPlane s.cfg f mode s.mem) (adlerClosed (rasterPlane s.cfg f mode s.mem)) := by
  have hchecks : firstFailure (filterChecks s.cfg f) = none := by
    rw [firstFailure_filterChecks, if_neg (not_or.2 ⟨hdim, not_badMode_of_mem_modeCodes hmode⟩),
      planeLength_eq_planeSize hf, if_neg (Nat.not_lt.2 hfits)]
  simp only [runFilterImage, (pixelFormat_of_mem_formatCodes hf).1, hchecks, filterMode_of_mem_modeCodes hmode,
    adler32_eq_adlerClosed]
  rfl

variable {p : Params} (hquality : s.cfg.quality.toNat ≤ p.qmax)
include hquality

/-- With FORMAT, W, H, QUALITY and MODE in range, FP_CAP alone decides (60_exceptions.md R302). -/
theorem firstFailure_encodeChecks_of_params :
    firstFailure (encodeChecks p s.cfg f) = if p.fpCap < planeSize s.cfg then some .capacity else none := by
  have hparam : ¬(badDimensions s.cfg ∨ p.qmax < s.cfg.quality.toNat ∨ badMode s.cfg) :=
    not_or.2 ⟨hdim, not_or.2 ⟨Nat.not_lt.2 hquality, not_badMode_of_mem_modeCodes hmode⟩⟩
  rw [firstFailure_encodeChecks, if_neg hparam, planeLength_eq_planeSize hf]

theorem runEncodePng_capacity (hcap : p.fpCap < planeSize s.cfg) : (runEncodePng p s).outcome = .error .capacity := by
  have hchecks := firstFailure_encodeChecks_of_params hf hmode hdim hquality
  rw [if_pos hcap] at hchecks
  simp only [runEncodePng, (pixelFormat_of_mem_formatCodes hf).1, hchecks]
  rfl

theorem runEncodePng_outcome (hmax : p.maxDist ≤ 32768) (hcap : planeSize s.cfg ≤ p.fpCap)
    (hfits : (pngByParts p s.cfg f (rasterPlane s.cfg f mode s.mem)).length ≤ s.cfg.dstCap.toNat) :
    (runEncodePng p s).outcome =
      .ok (pngByParts p s.cfg f (rasterPlane s.cfg f mode s.mem)) (adlerClosed (rasterPlane s.cfg f mode s.mem)) := by
  have hchecks := firstFailure_encodeChecks_of_params hf hmode hdim hquality
  rw [if_neg (Nat.not_lt.2 hcap)] at hchecks
  simp only [runEncodePng, (pixelFormat_of_mem_formatCodes hf).1, hchecks, filterMode_of_mem_modeCodes hmode,
    adler32_eq_adlerClosed, pngStream_eq_pngByParts hmax]
  exact fittingRun_ok hfits _ _

end

/-! ### The commands without output (R261, R265, R266, R268) -/

/-- Settles O22: the clean completion of NOP writes no span, and `retire` then leaves memory and the platform. -/
theorem nopCompletes : Obligations.NopCompletes := by
  intro s hd
  have hnext : complete Config.chip .nop runNop s = .next (retire Config.chip [] Work.fresh (plainCompletion s)) :=
    complete_clean hd
  have hmem := retire_mem_clean (u := plainCompletion s) Work.fresh hd rfl rfl
  refine ⟨_, hnext, complete_frame hnext, rfl, rfl, rfl, rfl, fun a => congrArg (Memory.read · a) hmem, ?_⟩
  rw [retire_platform]
  split <;> rfl

/-- Settles O23: a word with a field out of range is a well-formed reserved one, and the run of a reserved word is the
error OPCODE, which writes no byte. -/
theorem reservedWordCompletesWithOpcodeError : Obligations.ReservedWordCompletesWithOpcodeError := by
  refine ⟨fun w hw => decode_reserved (decide_eq_true hw.symm), fun rsv op s hd => ?_⟩
  obtain ⟨t, ht, herror⟩ := complete_error (r := runReserved) rfl hd
  exact ⟨t, ht, herror, herror.memory (by decide)⟩

/-- Settles O24: the run's checksum is the one by the byte table, and its output is empty. -/
theorem crc32CommandResult : Obligations.Crc32CommandResult := by
  refine ⟨by decide, fun s hd => ?_⟩
  have hrun : (runCrc32 s).outcome = .ok [] (crc32ByTable (sourceBytes s.cfg s.mem)) :=
    congrArg (RunOutcome.ok []) (crc32_eq_crc32ByTable _)
  exact complete_success_empty hrun hd

/-- Settles O25: the run's checksum is the closed form, and its output is empty. -/
theorem adler32CommandResult : Obligations.Adler32CommandResult := by
  refine ⟨by decide, fun s hd => ?_⟩
  have hrun : (runAdler32 s).outcome = .ok [] (adlerClosed (sourceBytes s.cfg s.mem)) :=
    congrArg (RunOutcome.ok []) (adler32_eq_adlerClosed _)
  exact complete_success_empty hrun hd

/-! ### The commands with output (R262, R263, R264, R267) -/

/-- A success whose output fits DST_CAP, with the duties kept (46_commands.md R260). -/
theorem complete_success_fits {p : Params} {i : Instr} {r : Run} {s : State} {out : List Byte} {res : Word}
    (ho : r.outcome = .ok out res) (hfits : out.length ≤ s.cfg.dstCap.toNat) (hm : s.mem.wf = true)
    (hd : DutiesKept p i (.ok out res) s) : ∃ t, complete p i r s = .next t ∧ SuccessFrom s t out res :=
  complete_success ho hd hm (Nat.lt_of_le_of_lt hfits s.cfg.dstCap.isLt)

/-- Settles O26: the run frames the payload, whose length is SRC_LEN, in SRC_LEN + 12 bytes. -/
theorem writeChunkFramesPayload : Obligations.WriteChunkFramesPayload := by
  intro s hm hlen hcap d crc out hd
  have hout : chunkByTable (be32 s.cfg.chunkType) d = out := by rw [chunkByTable, ofNat_sourceBytes_length]
  have hrun : (runWriteChunk s).outcome = .ok out crc := hout ▸ runWriteChunk_outcome hlen hcap
  have hfits : out.length ≤ s.cfg.dstCap.toNat := hout ▸ (chunkByTable_sourceBytes_length _ _).trans_le hcap
  exact complete_success_fits hrun hfits hm hd

/-- Settles O27: the register checks pass, and the compressor's block is the packed bit stream of its symbols. -/
theorem zlibCompressWritesStream : Obligations.ZlibCompressWritesStream := by
  intro s hm hquality hlen d out hfits hd
  exact complete_success_fits (runZlibCompress_outcome le_rfl hquality hlen hfits) hfits hm hd

/-- Settles O28: the register checks pass, and the plane has the length L they bound by DST_CAP. -/
theorem filterImageWritesPlane : Obligations.FilterImageWritesPlane := by
  intro s f mode hm hf hmode hdim hcap out hd
  have hlength : out.length = planeSize s.cfg := (rasterPlane_length _ _ _ _).trans (planeLength_eq_planeSize hf)
  obtain ⟨t, ht, hsuccess⟩ :=
    complete_success_fits (runFilterImage_outcome hf hmode hdim hcap) (hlength.trans_le hcap) hm hd
  exact ⟨t, ht, hsuccess, hlength⟩

/-- Settles O30: MAX_DIST is all the encoder needs of the parameters once the raster passes their checks. -/
theorem encodePngUnderAnyParameters : Obligations.EncodePngUnderAnyParameters := by
  intro p s f mode hm hf hmode hdim hmax hquality hcap plane out hfits hd
  exact complete_success_fits (runEncodePng_outcome hf hmode hdim hquality hmax hcap hfits) hfits hm hd

/-- Settles O29: a plane within FP_CAP is O30 at the chip's parameters, and a larger one fails the last check. -/
theorem encodePngWritesStream : Obligations.EncodePngWritesStream := by
  intro s f mode hm hf hmode hdim hquality plane out hfits hd
  by_cases hcap : planeSize s.cfg ≤ Config.chip.fpCap
  · simp only [if_pos hcap] at hd ⊢
    exact encodePngUnderAnyParameters Config.chip s f mode hm hf hmode hdim le_rfl hquality hcap hfits hd
  · simp only [if_neg hcap] at hd ⊢
    exact complete_error (runEncodePng_capacity hf hmode hdim hquality (Nat.not_le.1 hcap)) hd

end Sys2Proof.Machine
end

section
/-! ## Errors and the interrupt (60_exceptions.md)

What a host access does to STATUS says when a recorded error goes. IRQ is read off the completion's frame and the idle
register write. A run that fails ends in the code of the chain of R302, by the first check that fails or by the length of
its output; `complete_error` then gives the completion. -/

namespace Sys2Proof.Machine

/-! ### A recorded error (R305) -/

/-- A host access leaves STATUS, or it is a register write or an edge of reset. -/
theorem hostStep_status {p : Params} {op : HostOp} {s t : State} (h : hostStep p op s = .next t) :
    t.status = s.status ∨
    (∃ r x, op = .regWrite (p.regBase + r.offset) 4 x ∧ t = writeReg p r (hostValue x s.vars) s) ∨
    (op = .assertReset ∧ t.status = s.status.abandoned) ∨ op = .releaseReset := by
  rcases hostStep_cases h with ⟨r, x, hop, -, ht⟩ | ⟨r, name, -, -, rfl⟩ | ⟨-, -, rfl⟩ | ⟨a, b, -, -, rfl⟩ |
    ⟨a, -, -, rfl⟩ | ⟨-, rfl⟩ | ⟨-, -, rfl⟩ | ⟨hop, -, rfl⟩ | ⟨hop, -, -⟩ | ⟨hop, -, -⟩
  · exact .inr (.inl ⟨r, x, hop, ht⟩)
  · exact .inl rfl
  · exact .inl rfl
  · obtain ⟨d, u, heq, -⟩ := hostStore_eq p a b s
    exact .inl (by rw [heq])
  · exact .inl (hostLoad_status p a s)
  · obtain ⟨d, heq, -⟩ := maintain_eq p s
    exact .inl (by rw [heq])
  · exact .inl rfl
  · exact .inr (.inr (.inl ⟨hop, rfl⟩))
  · exact .inr (.inr (.inr hop))
  · exact .inr (.inr (.inr hop))

/-- A write of 0 to STATUS.ERR keeps the error and its code (10_state.md R31). -/
theorem Status.clearOnes_keeps_error (st : Status) {v : Word} (h : v.getLsbD 2 = false) :
    (st.clearOnes v).err = st.err ∧ (st.clearOnes v).errCode = st.errCode := by
  rw [clearOnes_err, clearOnes_errCode, h]
  exact ⟨Bool.and_true _, rfl⟩

/-- A register write keeps the error, or it is a write to CMD or one of 1 to STATUS.ERR (10_state.md R31). -/
theorem writeReg_error (p : Params) (r : Reg) (v : Word) (s : State) :
    ((writeReg p r v s).status.err = s.status.err ∧ (writeReg p r v s).status.errCode = s.status.errCode) ∨
    r = .cmd ∨ (r = .status ∧ v.getLsbD 2 = true) := by
  cases hb : s.status.busy with
  | true =>
    rw [writeReg_busy hb]
    exact .inl ⟨rfl, rfl⟩
  | false =>
    rw [writeReg_idle hb]
    split
    · exact .inr (.inl ‹_›)
    · split
      · cases hbit : v.getLsbD 2 with
        | true => exact .inr (.inr ⟨‹_›, rfl⟩)
        | false => exact .inl (s.status.clearOnes_keeps_error hbit)
      · exact .inl ⟨rfl, rfl⟩

/-- Settles O20: an idle step is silent or a host access, and of the accesses that write STATUS only the three named
change the error. -/
theorem errorStaysUntilCleared : Obligations.ErrorStaysUntilCleared := by
  intro s t hidle herr ht
  rcases step_cases ht with ⟨hdue, -⟩ | ⟨-, -, rfl⟩ | ⟨-, op, rest, hhost, hop⟩
  · simp [engineDue_false_of_idle hidle] at hdue
  · exact .inl ⟨herr, rfl⟩
  · rcases hostStep_status hop with hkeep | ⟨r, x, rfl, rfl⟩ | ⟨-, habandoned⟩ | rfl
    · exact .inl (by rw [hkeep]; exact ⟨herr, rfl⟩)
    · rcases writeReg_error Config.chip r (hostValue x s.vars) (s.turn rest) with ⟨hkeep, hcode⟩ | rfl | ⟨rfl, hclear⟩
      · exact .inl ⟨hkeep.trans herr, hcode⟩
      · exact .inr (.inr (.inl ⟨x, rest, hhost⟩))
      · exact .inr (.inl ⟨x, rest, hhost, hclear⟩)
    · exact .inl (by rw [habandoned]; exact ⟨herr, rfl⟩)
    · exact .inr (.inr (.inr ⟨rest, hhost⟩))

/-! ### The interrupt (R310) -/

/-- Settles O21: a completion leaves DONE 1 and the configuration; a write to FLAGS sets IRQ_EN and leaves STATUS, and O14
and O18 say what the writes to STATUS and CMD make of DONE. -/
theorem interruptFollowsDoneAndEnable : Obligations.InterruptFollowsDoneAndEnable := by
  refine ⟨fun i s t hexec => ?_, fun s x rest hidle hreset hhost => ?_, fun s x rest hidle hreset hbit hhost => ?_,
    fun s x rest hidle hreset hhost => ?_⟩
  · rw [exec_eq_complete] at hexec
    have hframe := complete_frame hexec
    rw [State.irq, hframe.done, hframe.cfg, Bool.true_and]
  · have hturn : (s.turn rest).status.busy = false := hidle
    have hstep := step_regWrite (r := .flags) (engineDue_false_of_idle hidle) hreset hhost
    rw [writeReg_idle hturn] at hstep
    exact ⟨_, hstep, rfl, rfl⟩
  · obtain ⟨t, ht, -, hdone, -⟩ := statusFieldsAndClearing.2 s x rest hidle hreset hhost
    exact ⟨t, ht, by simp [State.irq, hdone, hbit]⟩
  · obtain ⟨t, ht, -, -, -, hdone, -⟩ := commandWriteIsAccepted s x rest hidle hreset hhost
    exact ⟨t, ht, by simp [State.irq, hdone]⟩

/-! ### The order of the errors (R302) -/

theorem pixelFormat_eq_none {fmt : BitVec 8} (h : 3 < fmt.toNat) : pixelFormat fmt = none := by
  have hall : ∀ fmt : BitVec 8, 3 < fmt.toNat → pixelFormat fmt = none := by decide
  exact hall fmt h

/-- Every FORMAT code up to 3 is in the table (10_state.md R24). -/
theorem exists_mem_formatCodes {fmt : BitVec 8} (h : ¬3 < fmt.toNat) : ∃ f, (fmt, f) ∈ formatCodes := by
  have hall : ∀ fmt : BitVec 8, ¬3 < fmt.toNat → ∃ e ∈ formatCodes, e.1 = fmt := by decide
  obtain ⟨⟨_, f⟩, hmem, rfl⟩ := hall fmt h
  exact ⟨f, hmem⟩

/-- The chain of a command with the codes PARAM, CAPACITY and OVERFLOW: a register check fails with the code, or they all
pass and the output does not fit. -/
theorem register_error_or_overflow {badParam overCap overflows : Prop} [Decidable badParam] [Decidable overCap]
    {code : ErrCode}
    (h : if badParam then code = .param else if overCap then code = .capacity else code = .overflow ∧ overflows) :
    (if badParam then some ErrCode.param else if overCap then some .capacity else none) = some code ∨
    ((if badParam then some ErrCode.param else if overCap then some .capacity else none) = none ∧
      code = .overflow ∧ overflows) := by
  by_cases hparam : badParam
  · rw [if_pos hparam] at h ⊢
    exact .inl (h ▸ rfl)
  · rw [if_neg hparam] at h ⊢
    by_cases hcap : overCap
    · rw [if_pos hcap] at h ⊢
      exact .inl (h ▸ rfl)
    · rw [if_neg hcap] at h ⊢
      exact .inr ⟨rfl, h⟩

section
variable {p : Params} {s : State} {code : ErrCode}

theorem runEncodePng_format (h : 3 < s.cfg.format.toNat) : (runEncodePng p s).outcome = .error .format := by
  simp only [runEncodePng, pixelFormat_eq_none h]
  rfl

theorem runFilterImage_format (h : 3 < s.cfg.format.toNat) : (runFilterImage s).outcome = .error .format := by
  simp only [runFilterImage, pixelFormat_eq_none h]
  rfl

theorem runZlibCompress_failed (hc : firstFailure (zlibChecks p s.cfg) = some code) :
    (runZlibCompress p s).outcome = .error code := by
  simp only [runZlibCompress, hc]
  rfl

theorem runZlibCompress_overflow (hc : firstFailure (zlibChecks p s.cfg) = none)
    (hover : s.cfg.dstCap.toNat < (zlib p (sourceBytes s.cfg s.mem) (max s.cfg.quality.toNat 5)).length) :
    (runZlibCompress p s).outcome = .error .overflow := by
  simp only [runZlibCompress, hc]
  exact fittingRun_overflow hover _ _

theorem runWriteChunk_failed (hc : firstFailure (chunkChecks s.cfg) = some code) :
    (runWriteChunk s).outcome = .error code := by
  simp only [runWriteChunk, hc]
  rfl

theorem runWriteChunk_overflow (hc : firstFailure (chunkChecks s.cfg) = none)
    (hover : s.cfg.dstCap.toNat < s.cfg.srcLen.toNat + 12) : (runWriteChunk s).outcome = .error .overflow := by
  have hlength : (chunk (chunkTypeBytes s.cfg) (sourceBytes s.cfg s.mem)).length = s.cfg.srcLen.toNat + 12 := by
    rw [chunk_length, chunkTypeBytes_length, sourceBytes_length]
    omega
  simp only [runWriteChunk, hc]
  exact fittingRun_overflow (hlength ▸ hover) _ _

variable {f : PixelFormat} (hf : (s.cfg.format, f) ∈ formatCodes)
include hf

theorem runFilterImage_failed (hc : firstFailure (filterChecks s.cfg f) = some code) :
    (runFilterImage s).outcome = .error code := by
  simp only [runFilterImage, (pixelFormat_of_mem_formatCodes hf).1, hc]
  rfl

theorem runEncodePng_failed (hc : firstFailure (encodeChecks p s.cfg f) = some code) :
    (runEncodePng p s).outcome = .error code := by
  simp only [runEncodePng, (pixelFormat_of_mem_formatCodes hf).1, hc]
  rfl

/-- The PNG stream is 57 bytes more than its zlib stream (45_png_framer.md R247). -/
theorem runEncodePng_overflow {mode : FilterMode} (hmode : (s.cfg.filter, mode) ∈ modeCodes)
    (hc : firstFailure (encodeChecks p s.cfg f) = none)
    (hover : s.cfg.dstCap.toNat < 57 + (zlib p (rasterPlane s.cfg f mode s.mem) (max s.cfg.quality.toNat 5)).length) :
    (runEncodePng p s).outcome = .error .overflow := by
  simp only [runEncodePng, (pixelFormat_of_mem_formatCodes hf).1, hc, filterMode_of_mem_modeCodes hmode]
  exact fittingRun_overflow (hover.trans_eq (pngContainer_length _ _ _ _).symm) _ _

/-- The register checks of ENCODE_PNG, L by the FORMAT code (60_exceptions.md R302). -/
theorem firstFailure_encodeChecks_planeSize :
    firstFailure (encodeChecks p s.cfg f) =
      if badDimensions s.cfg ∨ p.qmax < s.cfg.quality.toNat ∨ badMode s.cfg then some .param
      else if p.fpCap < planeSize s.cfg then some .capacity else none := by
  rw [firstFailure_encodeChecks, planeLength_eq_planeSize hf]

/-- FILTER_IMAGE checks its plane against DST_CAP with the registers, so OVERFLOW too is a check that fails. -/
theorem firstFailure_filterChecks_eq_some
    (h : if badDimensions s.cfg ∨ badMode s.cfg then code = .param
      else code = .overflow ∧ s.cfg.dstCap.toNat < planeSize s.cfg) :
    firstFailure (filterChecks s.cfg f) = some code := by
  rw [firstFailure_filterChecks, planeLength_eq_planeSize hf]
  split at h
  · rw [if_pos ‹_›, h]
  · rw [if_neg ‹_›, if_pos h.2, h.1]

end

/-- Settles O31: in each command's chain the run ends in the code, and an error run with its duties kept completes with
that error. -/
theorem errorsFollowPriority : Obligations.ErrorsFollowPriority := by
  intro s i code hd h
  suffices hrun : (runOf Config.chip i s).outcome = .error code by
    rw [exec_eq_complete]
    exact complete_error hrun hd
  cases i with
  | nop | crc32 | adler32 => exact h.elim
  | reserved rsv opcode => exact h ▸ rfl
  | encodePng =>
    simp only at h
    split at h
    · exact h ▸ runEncodePng_format ‹_›
    · rcases register_error_or_overflow h with hc | ⟨hc, rfl, f, mode, hf, hmode, hover⟩
      · obtain ⟨f, hf⟩ := exists_mem_formatCodes ‹_›
        exact runEncodePng_failed hf ((firstFailure_encodeChecks_planeSize hf).trans hc)
      · exact runEncodePng_overflow hf hmode ((firstFailure_encodeChecks_planeSize hf).trans hc) hover
  | filterImage =>
    simp only at h
    split at h
    · exact h ▸ runFilterImage_format ‹_›
    · obtain ⟨f, hf⟩ := exists_mem_formatCodes ‹_›
      exact runFilterImage_failed hf (firstFailure_filterChecks_eq_some hf h)
  | zlibCompress =>
    rcases register_error_or_overflow h with hc | ⟨hc, rfl, hover⟩
    · exact runZlibCompress_failed ((firstFailure_zlibChecks _ _).trans hc)
    · exact runZlibCompress_overflow ((firstFailure_zlibChecks _ _).trans hc) hover
  | writeChunk =>
    have hchecks := firstFailure_chunkChecks s.cfg
    simp only at h
    split at h
    · rw [if_pos ‹_›] at hchecks
      exact h ▸ runWriteChunk_failed hchecks
    · rw [if_neg ‹_›] at hchecks
      exact h.1 ▸ runWriteChunk_overflow hchecks h.2

end Sys2Proof.Machine
end

section
/-! ## Reset and busy-time reads (70_reset_and_hazards.md)

Each step is one host access on the host's turn, and the law of that access gives what it leaves: the two edges of reset
(R330), the register read (R344), and the refusals while reset is asserted. -/

namespace Sys2Proof.Machine

/-! ### The edges of reset (R330) -/

/-- The step that asserts reset outside it, whose region is that of the command in the latch. -/
theorem step_assertReset {s : State} {rest : List HostOp} (hdue : s.engineDue = false) (hreset : s.inReset = false)
    (hhost : s.host = .assertReset :: rest) :
    step s = .next (assertReset Config.chip (writeRegion (decode s.cmdWord) s.cfg) (s.turn rest)) := by
  have hturn : (s.turn rest).inReset = false := hreset
  rw [step_eq_hostStep_turn hdue hhost]
  simp only [hostStep, hturn]
  rfl

/-- The step that ends reset; the engine is never due while reset is asserted. -/
theorem step_releaseReset {s : State} {rest : List HostOp} (hreset : s.inReset = true)
    (hhost : s.host = .releaseReset :: rest) : step s = .next (releaseReset (s.turn rest)) := by
  have hturn : (s.turn rest).inReset = true := hreset
  rw [step_eq_hostStep_turn (engineDue_false_of_inReset hreset) hhost]
  simp only [hostStep, hturn, if_true]

/-- Every register has its reset value when reset ends (10_state.md R42). -/
theorem readReg_releaseReset (r : Reg) (s : State) : readReg r (releaseReset s) = readReg r State.reset := by
  cases r <;> rfl

/-- Settles O8: the step is `releaseReset`, which sets every register and leaves memory. -/
theorem resetEndRestoresRegisters : Obligations.ResetEndRestoresRegisters := by
  intro s rest hreset _ hhost
  exact ⟨_, step_releaseReset hreset hhost, rfl, fun r => readReg_releaseReset r _, rfl, rfl, fun _ => rfl, rfl⟩

/-- Asserting reset leaves memory outside the abandoned region. -/
theorem read_assertReset_outside (p : Params) {dst : Option Span} {a : Word} (h : spansHold dst.toList a = false)
    (s : State) : (assertReset p dst s).mem.read a = s.mem.read a := by
  rw [assertReset_mem]
  split
  · exact read_scrambleRegion_outside s.mem s.draws dst a h
  · rfl

/-- Settles O9: the step is `assertReset`, which clears BUSY and keeps DONE, and DONE is 0 while a command is busy. -/
theorem resetAbandonsBusyCommand : Obligations.ResetAbandonsBusyCommand := by
  intro s rest hinv hreset hbusy hwait hhost
  refine ⟨_, step_assertReset (engineDue_false_of_wait hwait) hreset hhost, rfl, rfl, ?_, fun a ha => ?_, rfl⟩
  · exact hinv.status.busyNotDone hbusy
  · exact read_assertReset_outside Config.chip ha (s.turn rest)

/-- Settles O17: reads and writes are refused where `accessedReg` refuses them, and WAIT by its own test of reset. -/
theorem noRegisterAccessDuringReset : Obligations.NoRegisterAccessDuringReset := by
  intro s addr bytes x name rest hreset hhost
  have hturn : (s.turn rest).inReset = true := hreset
  have hrefused := accessedReg_inReset (p := Config.chip) hturn addr bytes
  have hdue := engineDue_false_of_inReset hreset
  rcases hhost with hwrite | hread | hwait
  · rw [step_eq_hostStep_turn hdue hwrite, hostStep_regWrite_error hrefused]
  · rw [step_eq_hostStep_turn hdue hread, hostStep_regRead_error hrefused]
  · rw [step_eq_hostStep_turn hdue hwait]
    simp only [hostStep, hturn, if_true]

/-! ### Register reads (R344) -/

/-- Settles O15: the step is `RD` of the register, and an assignment to a host variable leaves the others. -/
theorem registerReadHasNoSideEffect : Obligations.RegisterReadHasNoSideEffect := by
  intro s r name rest hdue hreset hhost v vs
  exact ⟨step_stmtRd hdue hreset hhost, varGet_varSet_self s.vars name v,
    fun other hne => varGet_varSet_other s.vars v hne⟩

end Sys2Proof.Machine
end
